-- ==== Sys2Proof/Word.lean ====
section
/-! DEFINITION. The widths the spec gives its values: XLEN, a byte, an instruction word, a register index and a CSR address
(00_scope.md R6, R8; 30_encoding.md R160, R161). -/

namespace Sys2Proof

/-- A general register, the pc, a CSR or a virtual address: XLEN = 64 bits (00_scope.md R6). -/
abbrev Word := BitVec 64

/-- One byte of memory (20_memory.md R101). -/
abbrev Byte := BitVec 8

/-- One instruction word: 32 bits, the only length there is (30_encoding.md R160, R177). -/
abbrev InstrWord := BitVec 32

/-- A register index, naming x0 to x31 (30_encoding.md R161). -/
abbrev Reg := BitVec 5

/-- A CSR address (30_encoding.md R169; 10_state.md R41). -/
abbrev CsrAddr := BitVec 12

end Sys2Proof
end

