-- ==== Sys2Proof/Config.lean ====
section
/-! DEFINITION. What the spec leaves to the platform or the host: the parameters RAM_BASE, RAM_SIZE, DEVICE_WINDOWS and
EXTRA_RO_CSRS (00_scope.md R6), as a record that State carries and no step changes, and the draws cycleRead, timeRead and
devRead, as free values without a body (93_implementation_defined.md section 2). -/

namespace Sys2Proof

/-- One device window `[base, base + size)` (20_memory.md R102). -/
structure Window where
  base : Nat
  size : Nat
  deriving DecidableEq, Repr

/-- The parameters of the block (00_scope.md R6; 10_state.md R66). DESIGN CHOICE (log 1): plain data carried by State, so that
a statement about every state is a statement about every configuration. -/
structure Platform where
  /-- RAM_BASE (20_memory.md R101). -/
  ramBase : Nat
  /-- RAM_SIZE in bytes (20_memory.md R101). -/
  ramSize : Nat
  /-- DEVICE_WINDOWS (20_memory.md R102). -/
  windows : List Window
  /-- EXTRA_RO_CSRS: read-only constants by CSR address (10_state.md R62). -/
  extraRoCsrs : List (CsrAddr × Word)
  deriving DecidableEq, Repr

/-- The two ranges `[b, b + n)` and `[c, c + m)` share no address. -/
def rangesApart (b n c m : Nat) : Bool := b + n ≤ c || c + m ≤ b

/-- The window does not meet RAM (20_memory.md R102) and lies in the 64-bit address space (R100, DEDUCED; log 26). That it holds an
address, `0 < size`, is a DESIGN CHOICE (log 26): R102 and 92_eei_decisions.md D12 do not say whether a window may be empty. -/
def windowOk (p : Platform) (w : Window) : Bool :=
  0 < w.size && w.base + w.size ≤ 2 ^ 64 && rangesApart w.base w.size p.ramBase p.ramSize

/-- An entry of EXTRA_RO_CSRS is at a read-only address (bits 11:10 = 3) that 10_state.md R40 does not list (R62), and not at one
with bits 9:8 = 2, which is "never implemented" (R46; log 21). -/
def extraCsrOk (e : CsrAddr × Word) : Bool :=
  e.1.extractLsb' 10 2 == 3#2 && e.1.extractLsb' 8 2 != 2#2 && e.1 != 0xC00#12 && e.1 != 0xC01#12 && e.1 != 0xC02#12

/-- The constraints the spec puts on the parameters: RAM_BASE and RAM_SIZE are multiples of 16, RAM_SIZE > 0, RAM ends at or
below 2^56 (92_eei_decisions.md D10), the windows are disjoint (20_memory.md R102), the extra CSRs are as 10_state.md R62 says;
that two extra entries have different addresses is DEDUCED (log 18), that no window is empty a DESIGN CHOICE (log 26). -/
def Platform.wf (p : Platform) : Bool :=
  p.ramBase % 16 == 0 && p.ramSize % 16 == 0 && 0 < p.ramSize && p.ramBase + p.ramSize ≤ 2 ^ 56
    && p.windows.all (windowOk p)
    && decide (p.windows.Pairwise fun v w => rangesApart v.base v.size w.base w.size)
    && p.extraRoCsrs.all extraCsrOk
    && decide ((p.extraRoCsrs.map Prod.fst).Pairwise (· ≠ ·))

namespace Config

/-- The test parameters of 95_test_vectors.md section 0, which State.reset uses; "test values, not hardware values"
(92_eei_decisions.md D10). DESIGN CHOICE (log 1). -/
def testPlatform : Platform :=
  { ramBase := 0x80000000, ramSize := 0x100000, windows := [], extraRoCsrs := [] }

/-- FREE VALUE. The value of the `k`-th draw when it is a read of cycle, "a 64-bit value under no law" (10_state.md R59; log 3). -/
opaque cycleRead : Nat → Word

/-- FREE VALUE. The value of the `k`-th draw when it is a read of time, "a 64-bit value under no law" (10_state.md R60; log 3). -/
opaque timeRead : Nat → Word

/-- FREE VALUE. The `n` bytes that the `k`-th draw gives when it is a device read of width `n` at physical address `pa`
(20_memory.md R107; log 4). -/
opaque devRead : (k : Nat) → (pa : Word) → (n : Nat) → BitVec (8 * n)

end Config

end Sys2Proof
end

