-- ==== Sys2Proof/Machine/State.lean ====
section
/-! DEFINITION. The state of the machine as plain data: all that 10_state.md R66 lists, the parameters of the block (log 1), and
three fields of the model's own that carry what the host exchanges with a step: the draw counter (log 3, log 5), the device
events (log 6) and the value step returned (log 7). -/

namespace Sys2Proof.Machine

/-- The privilege modes (10_state.md R36). -/
inductive Priv where
  | user
  | supervisor
  | machine
  deriving DecidableEq, Repr

/-- R36: "encoded U = 0, S = 1, M = 3, and the value 2 never occurs". -/
def Priv.code : Priv → BitVec 2
  | .user => 0
  | .supervisor => 1
  | .machine => 3

/-- Sparse RAM: pairs of a physical address and its byte, addresses strictly rising, no byte 0 listed; an unlisted address reads
0 (20_memory.md R101: "0 for a byte the loader did not write"; log 11). -/
abbrev Memory := List Host.Cell

/-- What the host sees of a device-window access (20_memory.md R107; log 6). -/
inductive DevEvent where
  /-- `devRead(pa, n)`. -/
  | read (pa : Word) (n : Nat)
  /-- `devWrite(pa, n, v)`: the low `8 n` bits of `v`. -/
  | write (pa : Word) (n : Nat) (v : Word)
  deriving DecidableEq, Repr

/-- What a call of step returns (10_state.md R91). -/
inductive StepResult where
  /-- An instruction retired. -/
  | ok
  /-- A trap was taken: the cause code, whether it is an interrupt, and the trap value. -/
  | trapped (code : Nat) (interrupt : Bool) (tval : Word)
  deriving DecidableEq, Repr

/-- The CSR storage (10_state.md R40, R66): 16 registers of the csr_file and the counter instret. sstatus, sie and sip are views
(R45); cycle and time are draws (R59, R60). -/
structure CsrFile where
  mstatus : Word
  medeleg : Word
  mideleg : Word
  mie : Word
  mip : Word
  mtvec : Word
  mscratch : Word
  mepc : Word
  mcause : Word
  mtval : Word
  stvec : Word
  sscratch : Word
  sepc : Word
  scause : Word
  stval : Word
  satp : Word
  instret : Word
  deriving DecidableEq, Repr

/-- The architectural state (10_state.md R66), the parameters, and the model's own fields. -/
structure State where
  /-- x1 to x31 (R30): entry `k` holds x(k+1). x0 has no storage (R31). -/
  regs : Vector Word 31
  /-- The virtual address of the next instruction (R34). -/
  pc : Word
  /-- The current privilege mode (R36). -/
  priv : Priv
  /-- The reservation: none is `valid = 0`; some p is `valid = 1` with the physical address p (R39; log 9). -/
  resv : Option (BitVec 56)
  /-- The CSR storage (R40). -/
  csr : CsrFile
  /-- RAM (20_memory.md R101). -/
  mem : Memory
  /-- The parameters of the block (R66; log 1); no step changes them. -/
  platform : Platform
  /-- MODEL'S OWN: how many values have been drawn (log 3, log 5). -/
  draws : Nat
  /-- MODEL'S OWN: the device accesses made so far, oldest first (log 6). -/
  events : List DevEvent
  /-- MODEL'S OWN: what the latest call of step returned; none right after reset (log 7). -/
  result : Option StepResult
  deriving DecidableEq, Repr

/-- Why the machine stops with a fault. The spec's own exceptions are never faults: they are taken as traps (60_exceptions.md R420). -/
inductive Fault where
  /-- Raised by MRET alone, when mstatus.MPP holds 2: a value 10_state.md R47 lets no write store and R36 says no mode has, so the
  spec gives the return no meaning. Safe: it stops where nothing is said, and no run from reset reaches it (log 10). -/
  | reservedPrivilege
  deriving DecidableEq, Repr

/-- Why an instruction has no meaning in the model. -/
inductive Refusal where
  /-- Raised by an arm of exec for an instruction without a meaning yet; no arm does so now. Safe. -/
  | notModelled (mnemonic : String)
  deriving DecidableEq, Repr

/-- What a meaning, and a step, answers. -/
abbrev Result := Host.Outcome State Fault Refusal

/-- The CSR storage after reset (70_reset_and_hazards.md R480). -/
def CsrFile.reset : CsrFile :=
  { mstatus := 0x0000000A00000000#64, medeleg := 0, mideleg := 0, mie := 0, mip := 0, mtvec := 0, mscratch := 0, mepc := 0,
    mcause := 0, mtval := 0, stvec := 0, sscratch := 0, sepc := 0, scause := 0, stval := 0, satp := 0, instret := 0 }

/-- R480: x2 is `(RAM_BASE + RAM_SIZE) & ~0xF`, every other general register 0. -/
def resetRegs (p : Platform) : Vector Word 31 :=
  (Vector.replicate 31 0).set 1 (BitVec.ofNat 64 (p.ramBase + p.ramSize) &&& ~~~0xF#64)

/-- R480: the state that `reset(entry_pc)` makes on a platform whose RAM the loader has filled (R481). -/
def State.resetOn (p : Platform) (entryPc : Word) (ram : Memory) : State :=
  { regs := resetRegs p, pc := entryPc, priv := .machine, resv := none, csr := CsrFile.reset, mem := ram, platform := p,
    draws := 0, events := [], result := none }

/-- The state after reset with the parameters, entry pc and empty payload of 95_test_vectors.md section 2. DESIGN CHOICE (log 1,
log 2): the spec leaves RAM_BASE, RAM_SIZE and entry_pc to the platform and the loader; every other value is R480's. -/
def State.reset : State := State.resetOn Config.testPlatform 0x80000000#64 []

end Sys2Proof.Machine
end

