-- ==== Sys2Proof/Machine/Operands.lean ====
section
/-! DEFINITION. The operand forms (30_encoding.md R163 to R169): the immediates as 64-bit values, the zero-extended uimm, the low
word of a register, the two extensions of a result. Register operands are read by State.reg (Machine/Ops.lean). -/

namespace Sys2Proof.Machine

/-- R163: `immI = sext_64(inst[31:20])`. -/
def immI (imm : BitVec 12) : Word := imm.signExtend 64

/-- R164: `immS = sext_64({inst[31:25], inst[11:7]})`. -/
def immS (imm : BitVec 12) : Word := imm.signExtend 64

/-- R165: `immB`, the 13 bits sign-extended. -/
def immB (imm : BitVec 13) : Word := imm.signExtend 64

/-- R166: `immU = sext_64({inst[31:12], 12'b0})`. -/
def immU (imm : BitVec 20) : Word := (imm ++ 0#12).signExtend 64

/-- R167: `immJ`, the 21 bits sign-extended. -/
def immJ (imm : BitVec 21) : Word := imm.signExtend 64

/-- R169: `uimm = zext_64(inst[19:15])`. -/
def immCsr (uimm : BitVec 5) : Word := uimm.setWidth 64

/-- R231: the low word `v[31:0]`. -/
def lowWord (v : Word) : BitVec 32 := v.extractLsb' 0 32

/-- R231: a word-suffixed result, `sext_64(r[31:0])`. -/
def sextWord (r : BitVec 32) : Word := r.signExtend 64

/-- R168: the amount `v[5:0]` of a 64-bit register shift. -/
def shiftAmount64 (v : Word) : Nat := (v.extractLsb' 0 6).toNat

/-- R168: the amount `v[4:0]` of a 32-bit register shift. -/
def shiftAmount32 (v : Word) : Nat := (v.extractLsb' 0 5).toNat

/-- R44: an instruction word zero-extended to 64 bits, the trap value of an illegal-instruction exception. -/
def zextWord (w : InstrWord) : Word := w.setWidth 64

end Sys2Proof.Machine
end

