-- ==== Sys2Proof/Machine/Alu.lean ====
section
/-! DEFINITION. The integer_alu (10_state.md R84): pure total functions. 40_integer_alu.md for the ALU operations,
42_control_transfer.md for the branch comparisons, 44_muldiv.md for multiply and divide, 45_atomics.md for the AMO operations.
Values are read as integers where the spec reads them so, and narrowed at the end (00_scope.md R8). -/

namespace Sys2Proof.Machine

/-! ### 64-bit operations (R202 to R220) -/

/-- R203, R214: 1 iff `signed(a) < signed(b)`. -/
def aluSlt (a b : Word) : Word := if a.toInt < b.toInt then 1 else 0
/-- R204, R215: 1 iff `unsigned(a) < unsigned(b)`. -/
def aluSltu (a b : Word) : Word := if a.toNat < b.toNat then 1 else 0
/-- R208, R213: `a << n`. -/
def aluSll (a : Word) (n : Nat) : Word := a <<< n
/-- R209, R217: `a >>u n`. -/
def aluSrl (a : Word) (n : Nat) : Word := a >>> n
/-- R210, R218: `a >>s n`. -/
def aluSra (a : Word) (n : Nat) : Word := a.sshiftRight n

/-! ### Word operations (R221 to R229): on the low 32 bits, then sign-extended (R231) -/

/-- R221, R225: `sext_64((a + b)[31:0])`. -/
def aluAddw (a b : Word) : Word := sextWord (lowWord (a + b))
/-- R226: `sext_64((a - b)[31:0])`. -/
def aluSubw (a b : Word) : Word := sextWord (lowWord (a - b))
/-- R222, R227: `sext_64((a[31:0] << n)[31:0])`. -/
def aluSllw (a : Word) (n : Nat) : Word := sextWord (lowWord a <<< n)
/-- R223, R228: `sext_64(a[31:0] >>u n)`. -/
def aluSrlw (a : Word) (n : Nat) : Word := sextWord (lowWord a >>> n)
/-- R224, R229: `sext_64(a[31:0] >>s n)`. -/
def aluSraw (a : Word) (n : Nat) : Word := sextWord ((lowWord a).sshiftRight n)

/-! ### Branch comparisons (R281 to R286) -/

/-- R283: `signed(a) < signed(b)`. -/
def cmpLt (a b : Word) : Bool := decide (a.toInt < b.toInt)
/-- R285: `unsigned(a) < unsigned(b)`. -/
def cmpLtu (a b : Word) : Bool := decide (a.toNat < b.toNat)

/-! ### Multiply (R330 to R333, R338) -/

/-- R330: `(a × b)[63:0]`. -/
def mulLow (a b : Word) : Word := a * b
/-- R331: `(sext_128(a) × sext_128(b))[127:64]`. -/
def mulHigh (a b : Word) : Word := (a.signExtend 128 * b.signExtend 128).extractLsb' 64 64
/-- R332: `(sext_128(a) × zext_128(b))[127:64]`. -/
def mulHighSU (a b : Word) : Word := (a.signExtend 128 * b.setWidth 128).extractLsb' 64 64
/-- R333: `(zext_128(a) × zext_128(b))[127:64]`. -/
def mulHighU (a b : Word) : Word := (a.setWidth 128 * b.setWidth 128).extractLsb' 64 64
/-- R338: `sext_64((a × b)[31:0])` of the low words. -/
def mulWord (a b : Word) : Word := sextWord (lowWord a * lowWord b)

/-! ### Divide (R334 to R337, R339 to R343), at any width: 64 for the plain forms, 32 for the word forms -/

/-- R334, R339: signed division, truncating toward zero; all ones on a zero divisor; the dividend on signed overflow. -/
def divSigned {n : Nat} (a b : BitVec n) : BitVec n :=
  if b = 0 then BitVec.allOnes n
  else if a = BitVec.intMin n ∧ b = BitVec.allOnes n then BitVec.intMin n
  else BitVec.ofInt n (a.toInt.tdiv b.toInt)

/-- R335, R340: unsigned division; all ones on a zero divisor. -/
def divUnsigned {n : Nat} (a b : BitVec n) : BitVec n :=
  if b = 0 then BitVec.allOnes n else BitVec.ofNat n (a.toNat / b.toNat)

/-- R336, R341: signed remainder `a - trunc(a / b) × b`; the dividend on a zero divisor; 0 on signed overflow. -/
def remSigned {n : Nat} (a b : BitVec n) : BitVec n :=
  if b = 0 then a
  else if a = BitVec.intMin n ∧ b = BitVec.allOnes n then 0
  else BitVec.ofInt n (a.toInt - a.toInt.tdiv b.toInt * b.toInt)

/-- R337, R342: unsigned remainder; the dividend on a zero divisor. -/
def remUnsigned {n : Nat} (a b : BitVec n) : BitVec n :=
  if b = 0 then a else BitVec.ofNat n (a.toNat % b.toNat)

/-! ### AMO operations (R365 to R382): the old memory value `m` and the register value `r`, at the access width -/

/-- R370, R379: `(signed(m) < signed(r)) ? m : r`. -/
def amoMin {n : Nat} (m r : BitVec n) : BitVec n := if m.toInt < r.toInt then m else r
/-- R371, R380: `(signed(m) > signed(r)) ? m : r`. -/
def amoMax {n : Nat} (m r : BitVec n) : BitVec n := if m.toInt > r.toInt then m else r
/-- R372, R381: `(m <u r) ? m : r`. -/
def amoMinu {n : Nat} (m r : BitVec n) : BitVec n := if m.toNat < r.toNat then m else r
/-- R373, R382: `(m >u r) ? m : r`. -/
def amoMaxu {n : Nat} (m r : BitVec n) : BitVec n := if m.toNat > r.toNat then m else r

end Sys2Proof.Machine
end

