-- ==== Sys2Proof/Machine/Flags.lean ====
section
/-! DEFINITION. The hart has no status flags and no condition codes (10_state.md R38): no instruction computes a flag. What this
file holds instead are the fields of the status registers: single bits of mstatus, mie, mip, medeleg and mideleg, mstatus.MPP,
and the masks of the writable and visible fields (10_state.md R47 to R54). -/

namespace Sys2Proof.Machine

/-- Bit `i` of a register (00_scope.md R7). -/
def getBit (w : Word) (i : Nat) : Bool := w.getLsbD i

/-- The register with bit `i` set to `b`. -/
def setBit (w : Word) (i : Nat) (b : Bool) : Word :=
  (w &&& ~~~(1#64 <<< i)) ||| (if b then 1#64 <<< i else 0)

/-! ### Field positions of mstatus (R47) -/

def bitSIE : Nat := 1
def bitMIE : Nat := 3
def bitSPIE : Nat := 5
def bitMPIE : Nat := 7
def bitSPP : Nat := 8
def bitSUM : Nat := 18
def bitMXR : Nat := 19

/-- R47: MPP, bits 12:11. -/
def getMpp (w : Word) : BitVec 2 := w.extractLsb' 11 2

/-- mstatus with MPP replaced. -/
def setMpp (w : Word) (v : BitVec 2) : Word := (w &&& ~~~0x1800#64) ||| (v.setWidth 64 <<< 11)

/-! ### Masks -/

/-- R47: SIE, MIE, SPIE, MPIE, SPP, MPP, SUM and MXR are writable. -/
def mstatusMask : Word := 0x00000000000C19AA#64
/-- R47: UXL = SXL = 2, the bits of mstatus that always read 1. -/
def mstatusOnes : Word := 0x0000000A00000000#64
/-- R48: the fields sstatus shows. -/
def sstatusReadMask : Word := 0x00000003000C0122#64
/-- R48: the fields a write to sstatus changes. -/
def sstatusWriteMask : Word := 0x00000000000C0122#64
/-- R49: the six interrupt-enable bits. -/
def mieMask : Word := 0xAAA#64
/-- R49: SSIP, STIP and SEIP, the bits of mip a CSR write changes. -/
def mipWriteMask : Word := 0x222#64
/-- R50: the bits sie and sip show, and sie writes. -/
def sieMask : Word := 0x222#64
/-- R50: SSIP, the one bit a write to sip changes. -/
def sipWriteMask : Word := 0x002#64
/-- R51: the delegable exception causes. -/
def medelegMask : Word := 0xB3FF#64
/-- R52: the delegable interrupts. -/
def midelegMask : Word := 0x222#64

/-- R45: "`M <- (M & ~writemask) | (v & writemask)`". -/
def mergeMasked (old mask v : Word) : Word := (old &&& ~~~mask) ||| (v &&& mask)

/-- R47: the write rule of mstatus; a write of 2 into MPP leaves MPP unchanged. -/
def mstatusWrite (old v : Word) : Word :=
  if getMpp v = 2 then setMpp (mergeMasked old mstatusMask v) (getMpp old)
  else mergeMasked old mstatusMask v

/-- R53: bit 1 of a trap-vector register is hard-wired 0. -/
def tvecWrite (v : Word) : Word := v &&& ~~~0x2#64

/-- R54: bits 1:0 of an exception pc are hard-wired 0. -/
def epcWrite (v : Word) : Word := v &&& ~~~0x3#64

/-! ### satp (R58) -/

/-- R58: MODE, bits 63:60. -/
def satpMode (w : Word) : BitVec 4 := w.extractLsb' 60 4
/-- R58: ASID, bits 59:44; stored, no effect. -/
def satpAsid (w : Word) : BitVec 16 := w.extractLsb' 44 16
/-- R58: PPN of the root page table, bits 43:0. -/
def satpPpn (w : Word) : BitVec 44 := w.extractLsb' 0 44

/-- R58: a write whose MODE is neither 0 nor 8 has no effect. -/
def satpWrite (old v : Word) : Word := if satpMode v = 0 ∨ satpMode v = 8 then v else old

end Sys2Proof.Machine
end

