-- ==== Sys2Proof/Machine/Memory.lean ====
section
/-! DEFINITION. RAM as a sparse list of cells in one canonical form (20_memory.md R101), and the little-endian byte order of
every multi-byte value (20_memory.md R103). -/

namespace Sys2Proof.Machine

/-- What an address with no cell reads as (20_memory.md R101, R480: "0 in every other byte"; log 11). -/
def unlistedByte : Byte := 0

/-- The byte at an address. -/
def Memory.read : Memory → Nat → Byte
  | [], _ => unlistedByte
  | (a, b) :: m, k => if k = a then b else if k < a then unlistedByte else Memory.read m k

/-- A new first cell, left out when it holds what an unlisted address reads as. -/
def consCell (k : Nat) (v : Byte) (m : Memory) : Memory := if v = unlistedByte then m else (k, v) :: m

/-- Writing one byte, keeping the canonical form. -/
def Memory.write : Memory → Nat → Byte → Memory
  | [], k, v => consCell k v []
  | (a, b) :: m, k, v =>
    if k < a then consCell k v ((a, b) :: m)
    else if k = a then consCell k v m
    else (a, b) :: Memory.write m k v

/-- The canonical form: addresses strictly rising, no cell equal to what an unlisted address reads as. -/
def Memory.wf : Memory → Bool
  | [] => true
  | (a, b) :: m => b != unlistedByte && (m.all fun c => a < c.1) && Memory.wf m

/-- `n` bytes from address `p` upwards, lowest first. -/
def Memory.readBytes (m : Memory) (p : Nat) : Nat → List Byte
  | 0 => []
  | n + 1 => Memory.read m p :: Memory.readBytes m (p + 1) n

/-- Writing bytes at successive addresses from `p`. -/
def Memory.writeBytes (m : Memory) (p : Nat) : List Byte → Memory
  | [] => m
  | b :: bs => Memory.writeBytes (Memory.write m p b) (p + 1) bs

/-- Writing byte `k` of a list at the `k`-th physical address of a list (20_memory.md R111). -/
def Memory.writeAll : Memory → List Word → List Byte → Memory
  | m, p :: ps, b :: bs => Memory.writeAll (Memory.write m p.toNat b) ps bs
  | m, _, _ => m

/-- R103: the value of bytes in ascending address order, zero-extended to 64 bits. -/
def leWord : List Byte → Word
  | [] => 0
  | b :: bs => b.setWidth 64 ||| (leWord bs <<< 8)

/-- R103: the low `n` bytes of a value in ascending address order. -/
def leBytes : Nat → Word → List Byte
  | 0, _ => []
  | n + 1, v => v.setWidth 8 :: leBytes n (v >>> 8)

/-- R106: `PhysRead(p, n)` of RAM, zero-extended to 64 bits. -/
def physRead (m : Memory) (p n : Nat) : Word := leWord (Memory.readBytes m p n)

/-- R106: `PhysWrite(p, n, v)` to RAM. -/
def physWrite (m : Memory) (p n : Nat) (v : Word) : Memory := Memory.writeBytes m p (leBytes n v)

end Sys2Proof.Machine
end

