-- ==== Sys2Proof/Machine/Ops.lean ====
section
/-! DEFINITION. The named operations over registers and the trap machinery: the register_file (10_state.md R83), retiring an
instruction (R90 step 5), TAKING A TRAP (trap_dispatcher, R88; 60_exceptions.md R440 to R445), the two returns from a trap
(46_system.md R393, R394) and the choice of an interrupt (privilege_manager, R89; 60_exceptions.md R431, R433). -/

namespace Sys2Proof.Machine

/-! ### Registers (10_state.md R30, R31, R83) -/

theorem regIndex_lt (r : Reg) : r.toNat - 1 < 31 := by omega

/-- R31: x0 reads 0; R83: a read of x1 to x31. -/
def State.reg (s : State) (r : Reg) : Word :=
  if r = 0 then 0 else s.regs[r.toNat - 1]'(regIndex_lt r)

/-- R31: a write to x0 is discarded; R83: a write of x1 to x31. -/
def State.setReg (s : State) (r : Reg) (v : Word) : State :=
  if r = 0 then s else { s with regs := s.regs.set (r.toNat - 1) v (regIndex_lt r) }

/-! ### Retiring (10_state.md R90 step 5, R91; R61) -/

/-- R90 (5): `pc <- nextpc; instret <- instret + 1; return Ok`. -/
def retire (nextPc : Word) (s : State) : State :=
  { s with pc := nextPc, csr := { s.csr with instret := s.csr.instret + 1 }, result := some .ok }

/-- Commit of an instruction whose one effect is a register: x[rd] is written and the next pc is `pc + 4` (R35, R230). -/
def writeBack (rd : Reg) (v : Word) (s : State) : Result := .next (retire (s.pc + 4) (s.setReg rd v))

/-! ### Causes (60_exceptions.md R420, R421) -/

/-- The synchronous exceptions that are ever raised (R420). -/
inductive ExcCause where
  | instrAddrMisaligned
  | instrAccessFault
  | illegalInstr
  | breakpoint
  | loadAccessFault
  | storeAccessFault
  | ecallFromU
  | ecallFromS
  | ecallFromM
  | instrPageFault
  | loadPageFault
  | storePageFault
  deriving DecidableEq, Repr

/-- R420: the exception code. -/
def ExcCause.code : ExcCause → Nat
  | .instrAddrMisaligned => 0
  | .instrAccessFault => 1
  | .illegalInstr => 2
  | .breakpoint => 3
  | .loadAccessFault => 5
  | .storeAccessFault => 7
  | .ecallFromU => 8
  | .ecallFromS => 9
  | .ecallFromM => 11
  | .instrPageFault => 12
  | .loadPageFault => 13
  | .storePageFault => 15

/-- The interrupts (R421). -/
inductive Irq where
  | supervisorSoftware
  | machineSoftware
  | supervisorTimer
  | machineTimer
  | supervisorExternal
  | machineExternal
  deriving DecidableEq, Repr

/-- R421: the cause code, which is also the bit of mip and mie. -/
def Irq.code : Irq → Nat
  | .supervisorSoftware => 1
  | .machineSoftware => 3
  | .supervisorTimer => 5
  | .machineTimer => 7
  | .supervisorExternal => 9
  | .machineExternal => 11

/-- What a trap is taken for (00_scope.md section 6, "Trap"). -/
inductive Cause where
  | exception (c : ExcCause)
  | interrupt (i : Irq)
  deriving DecidableEq, Repr

/-- The cause code (R420, R421). -/
def Cause.code : Cause → Nat
  | .exception c => c.code
  | .interrupt i => i.code

/-- The interrupt flag (R422). -/
def Cause.isInterrupt : Cause → Bool
  | .exception _ => false
  | .interrupt _ => true

/-- R422: `cause = (isInterrupt << 63) | code`. -/
def causeWord (c : Cause) : Word :=
  (if c.isInterrupt then 1#64 <<< 63 else 0) ||| BitVec.ofNat 64 c.code

/-- An exception with its trap value, as `raise` of 00_scope.md R9 gives it. -/
structure Exc where
  cause : ExcCause
  tval : Word
  deriving DecidableEq, Repr

/-! ### Taking a trap (60_exceptions.md R440 to R445) -/

/-- R440: the bit of medeleg (exceptions) or mideleg (interrupts) for a cause. -/
def delegated (c : Cause) (s : State) : Bool :=
  match c with
  | .exception e => getBit s.csr.medeleg e.code
  | .interrupt i => getBit s.csr.mideleg i.code

/-- R440: the trap targets S if it is delegated and the current privilege is S or U, else M. -/
def targetsS (c : Cause) (s : State) : Bool := delegated c s && s.priv != .machine

/-- R443: BASE + 4 × code for an interrupt in vectored mode, else BASE. -/
def trapVector (tvec : Word) (c : Cause) : Word :=
  let base := tvec &&& ~~~0x3#64
  if getBit tvec 0 && c.isInterrupt then base + 4 * BitVec.ofNat 64 c.code else base

/-- R441: `MPIE <- MIE; MIE <- 0; MPP <- priv`. -/
def mstatusEnterM (m : Word) (p : Priv) : Word :=
  setMpp (setBit (setBit m bitMPIE (getBit m bitMIE)) bitMIE false) p.code

/-- R442: `SPIE <- SIE; SIE <- 0; SPP <- (priv = U) ? 0 : 1`. -/
def mstatusEnterS (m : Word) (p : Priv) : Word :=
  setBit (setBit (setBit m bitSPIE (getBit m bitSIE)) bitSIE false) bitSPP (p != .user)

/-- R91: the value step returns for a trap. -/
def trapResult (c : Cause) (tval : Word) : StepResult := .trapped c.code c.isInterrupt tval

/-- R441: entry to M-mode; R445: the reservation is lost. -/
def enterM (c : Cause) (tval epc : Word) (s : State) : State :=
  { s with
    csr := { s.csr with mepc := epc, mcause := causeWord c, mtval := tval, mstatus := mstatusEnterM s.csr.mstatus s.priv }
    priv := .machine
    pc := trapVector s.csr.mtvec c
    resv := none
    result := some (trapResult c tval) }

/-- R442: entry to S-mode; R445: the reservation is lost. -/
def enterS (c : Cause) (tval epc : Word) (s : State) : State :=
  { s with
    csr := { s.csr with sepc := epc, scause := causeWord c, stval := tval, mstatus := mstatusEnterS s.csr.mstatus s.priv }
    priv := .supervisor
    pc := trapVector s.csr.stvec c
    resv := none
    result := some (trapResult c tval) }

/-- `takeTrap(isInterrupt, code, tval, epc)` (10_state.md R88; R440 to R445). -/
def takeTrap (c : Cause) (tval epc : Word) (s : State) : State :=
  if targetsS c s then enterS c tval epc s else enterM c tval epc s

/-- 00_scope.md R9, `raise`: the instruction is aborted and the exception taken, with the pc of the instruction as epc. -/
def raise (e : Exc) (s : State) : Result := .next (takeTrap (.exception e.cause) e.tval s.pc s)

/-- R420 code 2: illegal-instruction, with the word zero-extended as trap value (R44). -/
def raiseIllegal (w : InstrWord) (s : State) : Result := raise ⟨.illegalInstr, zextWord w⟩ s

/-! ### Returning from a trap (46_system.md R393, R394; 60_exceptions.md R450) -/

/-- The mode a stored MPP names; 2 names none (10_state.md R36, R47; log 10). -/
def privOfMpp (v : BitVec 2) : Option Priv :=
  if v = 0 then some .user else if v = 1 then some .supervisor else if v = 3 then some .machine else none

/-- R393: `MIE <- MPIE; MPIE <- 1; MPP <- U`. -/
def mstatusMret (m : Word) : Word :=
  setMpp (setBit (setBit m bitMIE (getBit m bitMPIE)) bitMPIE true) 0

/-- R394: `SIE <- SPIE; SPIE <- 1; SPP <- 0`. -/
def mstatusSret (m : Word) : Word :=
  setBit (setBit (setBit m bitSIE (getBit m bitSPIE)) bitSPIE true) bitSPP false

/-- `xret(M)` (10_state.md R88; R393): priv, mstatus and pc together. -/
def xretM (s : State) : Result :=
  match privOfMpp (getMpp s.csr.mstatus) with
  | some p => .next (retire s.csr.mepc { s with priv := p, csr := { s.csr with mstatus := mstatusMret s.csr.mstatus } })
  | none => .fault .reservedPrivilege

/-- `xret(S)` (10_state.md R88; R394). -/
def xretS (s : State) : Result :=
  .next (retire s.csr.sepc
    { s with
      priv := if getBit s.csr.mstatus bitSPP then .supervisor else .user
      csr := { s.csr with mstatus := mstatusSret s.csr.mstatus } })

/-! ### Interrupts (60_exceptions.md R431, R433) -/

/-- R431: pending, enabled, and let through by the level it targets. -/
def deliverable (s : State) (i : Irq) : Bool :=
  getBit s.csr.mip i.code && getBit s.csr.mie i.code &&
    (if getBit s.csr.mideleg i.code then
      s.priv == .user || (s.priv == .supervisor && getBit s.csr.mstatus bitSIE)
    else s.priv != .machine || getBit s.csr.mstatus bitMIE)

/-- R433: MEI, SEI, MSI, SSI, MTI, STI. -/
def irqPriority : List Irq :=
  [.machineExternal, .supervisorExternal, .machineSoftware, .supervisorSoftware, .machineTimer, .supervisorTimer]

/-- R431: the deliverable interrupt of highest priority, or none. -/
def selectInterrupt (s : State) : Option Irq := irqPriority.find? (deliverable s)

/-! ### Control transfer (42_control_transfer.md R280) -/

/-- R280: a target with `t[1:0] != 0` raises cause 0 with the target as trap value, before anything is written; otherwise the
given commit is made and the next pc is the target. -/
def transferTo (t : Word) (committed s : State) : Result :=
  if t.extractLsb' 0 2 = 0#2 then .next (retire t committed) else raise ⟨.instrAddrMisaligned, t⟩ s

end Sys2Proof.Machine
end

