-- ==== Sys2Proof/Machine/Mmu.lean ====
section
/-! DEFINITION. Regions of the physical space (20_memory.md R100 to R102, R106), the sv39_mmu (10_state.md R87; 20_memory.md R120
to R132) and the fetch_unit (10_state.md R81). -/

namespace Sys2Proof.Machine

/-! ### Access kinds and their faults (20_memory.md R105, R112) -/

/-- How an access is translated (R105): SC and AMO as store, LR as load (R132). -/
inductive Access where
  | fetch
  | load
  | store
  deriving DecidableEq, Repr

/-- R112: the page fault of a kind, with the failing virtual address as trap value. -/
def pageFault (K : Access) (va : Word) : Exc :=
  match K with
  | .fetch => ⟨.instrPageFault, va⟩
  | .load => ⟨.loadPageFault, va⟩
  | .store => ⟨.storePageFault, va⟩

/-- R112: the access fault of a kind, with the failing virtual address as trap value. -/
def accessFault (K : Access) (va : Word) : Exc :=
  match K with
  | .fetch => ⟨.instrAccessFault, va⟩
  | .load => ⟨.loadAccessFault, va⟩
  | .store => ⟨.storeAccessFault, va⟩

/-! ### Regions (R101, R102, R106) -/

/-- R106: the `n` bytes from `a` all lie in RAM, computed without wrap-around. -/
def inRam (p : Platform) (a n : Nat) : Bool := p.ramBase ≤ a && a + n ≤ p.ramBase + p.ramSize

/-- The address lies in the window (R102). -/
def inWindow (w : Window) (a : Nat) : Bool := w.base ≤ a && a < w.base + w.size

/-- What a physical address belongs to, when it is mapped (R100). -/
inductive Region where
  | ram
  | window (w : Window)
  deriving DecidableEq, Repr

/-- R110: `regionOf`: RAM, the window the address is in, or none. -/
def regionOf (p : Platform) (a : Nat) : Option Region :=
  if inRam p a 1 then some .ram
  else match p.windows.find? (fun w => inWindow w a) with
    | some w => some (.window w)
    | none => none

/-- R110: the physical address lies in the region. -/
def inRegion (p : Platform) (r : Region) (a : Nat) : Bool :=
  match r with
  | .ram => inRam p a 1
  | .window w => inWindow w a

/-! ### Page-table entries (R122) -/

def pteV (pte : Word) : Bool := getBit pte 0
def pteR (pte : Word) : Bool := getBit pte 1
def pteW (pte : Word) : Bool := getBit pte 2
def pteX (pte : Word) : Bool := getBit pte 3
def pteU (pte : Word) : Bool := getBit pte 4
/-- R122: `pte[53:10]`. -/
def ptePpn (pte : Word) : BitVec 44 := pte.extractLsb' 10 44
/-- R122: bits 63:54 (N, PBMT and the reserved bits) must be 0. -/
def pteReservedClear (pte : Word) : Bool := pte.extractLsb' 54 10 == 0#10
/-- R122: an entry with R = 1 or X = 1 is a leaf. -/
def pteLeaf (pte : Word) : Bool := pteR pte || pteX pte
/-- R123: V = 1, not (R = 0 and W = 1), reserved bits 0. -/
def pteValid (pte : Word) : Bool := pteV pte && !(!pteR pte && pteW pte) && pteReservedClear pte

/-! ### The walk (R120 to R129) -/

/-- R120: active iff satp.MODE = 8 and priv is S or U. -/
def translationActive (s : State) : Bool := satpMode s.csr.satp == 8#4 && s.priv != .machine

/-- R121: bits 63:39 all equal bit 38. -/
def canonical (va : Word) : Bool :=
  va.extractLsb' 39 25 == (if getBit va 38 then BitVec.allOnes 25 else 0#25)

/-- R121: `VPN[i]`, 9 bits from bit `12 + 9 i`. -/
def vpn (va : Word) (i : Nat) : BitVec 9 := va.extractLsb' (12 + 9 * i) 9

/-- R125: the permission check of a leaf. -/
def checkPermission (s : State) (K : Access) (pte : Word) : Bool :=
  (match K with
    | .fetch => pteX pte
    | .load => pteR pte || (getBit s.csr.mstatus bitMXR && pteX pte)
    | .store => pteW pte) &&
  (match s.priv with
    | .user => pteU pte
    | .supervisor => !pteU pte || (K != .fetch && getBit s.csr.mstatus bitSUM)
    | .machine => true)

/-- R126: a leaf at level 2 needs PPN[1] = PPN[0] = 0, one at level 1 needs PPN[0] = 0. -/
def superpageAligned (i : Nat) (pte : Word) : Bool :=
  match i with
  | 0 => true
  | 1 => pte.extractLsb' 10 9 == 0#9
  | _ => pte.extractLsb' 10 18 == 0#18

/-- R127: the physical address of a leaf at level `i`, 56 bits, zero-extended to 64. -/
def physAddr (i : Nat) (pte va : Word) : Word :=
  match i with
  | 0 => (ptePpn pte ++ va.extractLsb' 0 12 : BitVec 56).setWidth 64
  | 1 => (pte.extractLsb' 19 35 ++ va.extractLsb' 0 21 : BitVec 56).setWidth 64
  | _ => (pte.extractLsb' 28 26 ++ va.extractLsb' 0 30 : BitVec 56).setWidth 64

/-- R123, R125 to R127: what a leaf at level `i` gives. -/
def leafResult (s : State) (K : Access) (va : Word) (i : Nat) (pte : Word) : Except Exc Word :=
  if checkPermission s K pte && superpageAligned i pte then .ok (physAddr i pte va) else .error (pageFault K va)

/-- R123: reading and testing one entry; R129: an entry not in RAM is an access fault of the kind. -/
def readPte (s : State) (K : Access) (va : Word) (pteAddr : Nat) : Except Exc Word :=
  if inRam s.platform pteAddr 8 then
    if pteValid (physRead s.mem pteAddr 8) then .ok (physRead s.mem pteAddr 8) else .error (pageFault K va)
  else .error (accessFault K va)

/-- R123: the loop from level `i` with the table at physical address `a`, a natural number below 2^56 (log 16). -/
def walk (s : State) (K : Access) (va : Word) : (i : Nat) → (a : Nat) → Except Exc Word
  | 0, a =>
    match readPte s K va (a + (vpn va 0).toNat * 8) with
    | .error e => .error e
    | .ok pte => if pteLeaf pte then leafResult s K va 0 pte else .error (pageFault K va)
  | i + 1, a =>
    match readPte s K va (a + (vpn va (i + 1)).toNat * 8) with
    | .error e => .error e
    | .ok pte =>
      if pteLeaf pte then leafResult s K va (i + 1) pte else walk s K va i ((ptePpn pte).toNat * 4096)

/-- `Translate(va, kind)` (10_state.md R87; R120, R121, R123). -/
def translate (s : State) (K : Access) (va : Word) : Except Exc Word :=
  if translationActive s then
    if canonical va then walk s K va 2 ((satpPpn s.csr.satp).toNat * 4096) else .error (pageFault K va)
  else .ok va

/-! ### Fetch (10_state.md R81) -/

/-- R81: the physical address of the instruction at pc, after every check of the fetch. -/
def fetchAddr (s : State) : Except Exc Word :=
  if s.pc.extractLsb' 0 2 = 0#2 then
    match translate s .fetch s.pc with
    | .error e => .error e
    | .ok pa => if inRam s.platform pa.toNat 4 then .ok pa else .error (accessFault .fetch s.pc)
  else .error ⟨.instrAddrMisaligned, s.pc⟩

/-- R81: the little-endian word at pc. -/
def fetch (s : State) : Except Exc InstrWord :=
  match fetchAddr s with
  | .error e => .error e
  | .ok pa => .ok ((physRead s.mem pa.toNat 4).setWidth 32)

end Sys2Proof.Machine
end

