-- ==== Sys2Proof/Machine/LoadStore.lean ====
section
/-! DEFINITION. The load_store_unit (10_state.md R85): MemRead and MemWrite byte by byte with every check before any transfer
(20_memory.md R109 to R113), the device accesses (R107, R108), the reservation and the atomic sequences (45_atomics.md R360,
R384). -/

namespace Sys2Proof.Machine

/-! ### The checks of a load or store (20_memory.md R110) -/

/-- R110: bytes `va, va + 1, …`, `n` of them, each translated and then found in the region of the first byte;
the addresses are modulo 2^64 (R250; log 14). -/
def checkBytes (s : State) (K : Access) (r : Region) (va : Word) : Nat → Except Exc (List Word)
  | 0 => .ok []
  | n + 1 =>
    match translate s K va with
    | .error e => .error e
    | .ok pa =>
      if inRegion s.platform r pa.toNat then
        match checkBytes s K r (va + 1) n with
        | .error e => .error e
        | .ok pas => .ok (pa :: pas)
      else .error (accessFault K va)

/-- R110: every byte of an `n`-byte access checked in ascending order; the region is that of the first byte. -/
def checkAccess (s : State) (K : Access) (va : Word) (n : Nat) : Except Exc (Region × List Word) :=
  match translate s K va with
  | .error e => .error e
  | .ok pa =>
    match regionOf s.platform pa.toNat with
    | none => .error (accessFault K va)
    | some r =>
      match checkBytes s K r va n with
      | .error e => .error e
      | .ok pas => .ok (r, pas)

/-! ### Device accesses (20_memory.md R107, R108) -/

/-- R110: `va mod n = 0 and pa[k] = pa[0] + k for all k`: one device access of width `n`; aligned
means that the virtual address is (log 13). -/
def oneDeviceAccess (va : Word) (n : Nat) (pas : List Word) : Bool :=
  va.toNat % n == 0 && pas == (List.range n).map fun k => pas.headD 0 + BitVec.ofNat 64 k

/-- R107: `devRead(pa, n)`: the next draw, recorded (log 4, log 6). -/
def devReadOne (s : State) (pa : Word) (n : Nat) : Word × State :=
  ((Config.devRead s.draws pa n).setWidth 64,
    { s with draws := s.draws + 1, events := s.events ++ [.read pa n] })

/-- R107: single-byte device reads in ascending order, as a little-endian value. -/
def devReadBytes (s : State) : List Word → Word × State
  | [] => (0, s)
  | pa :: pas =>
    let (b, s1) := devReadOne s pa 1
    let (v, s2) := devReadBytes s1 pas
    (b ||| (v <<< 8), s2)

/-- R107: `devWrite(pa, n, v)`, recorded as an event (log 6). -/
def devWriteOne (s : State) (pa : Word) (n : Nat) (v : Word) : State :=
  { s with events := s.events ++ [.write pa n v] }

/-- R107: single-byte device writes in ascending order. -/
def devWriteBytes (s : State) : List Word → List Byte → State
  | pa :: pas, b :: bs => devWriteBytes (devWriteOne s pa 1 (b.setWidth 64)) pas bs
  | _, _ => s

/-! ### MemRead and MemWrite (20_memory.md R110, R111) -/

/-- R110: `MemRead(va, n)`: the `n * 8`-bit value, zero-extended, and the state after the host's part of a device read. -/
def memRead (s : State) (va : Word) (n : Nat) : Except Exc (Word × State) :=
  match checkAccess s .load va n with
  | .error e => .error e
  | .ok (.ram, pas) => .ok (leWord (pas.map fun pa => Memory.read s.mem pa.toNat), s)
  | .ok (.window _, pas) =>
    if oneDeviceAccess va n pas then .ok (devReadOne s (pas.headD 0) n) else .ok (devReadBytes s pas)

/-- R360(e): `granule(p) = p & ~7`. -/
def granule (pa : Word) : Word := pa &&& ~~~0x7#64

/-- R360(e) 1: the reservation after a write of the bytes at the given physical addresses. -/
def resvAfterWrite (resv : Option (BitVec 56)) (pas : List Word) : Option (BitVec 56) :=
  match resv with
  | none => none
  | some a => if pas.any fun pa => granule pa == granule (a.setWidth 64) then none else some a

/-- R111: `MemWrite(va, n, v)`: the low `n * 8` bits of `v`, all bytes or none. The reservation
test of R360(e) is made on a window's bytes too, where it can drop nothing (log 15). -/
def memWrite (s : State) (va : Word) (n : Nat) (v : Word) : Except Exc State :=
  match checkAccess s .store va n with
  | .error e => .error e
  | .ok (.ram, pas) =>
    .ok { s with mem := Memory.writeAll s.mem pas (leBytes n v), resv := resvAfterWrite s.resv pas }
  | .ok (.window _, pas) =>
    .ok (if oneDeviceAccess va n pas then
        devWriteOne { s with resv := resvAfterWrite s.resv pas } (pas.headD 0) n (leWord (leBytes n v))
      else devWriteBytes { s with resv := resvAfterWrite s.resv pas } pas (leBytes n v))

/-! ### Loads and stores as instructions (41_loads_stores.md R250, R264, R265) -/

/-- A load of `n` bytes at `va` into rd, extended by `ext`: it reads, or takes the exception of the first failing byte. -/
def loadInto (rd : Reg) (va : Word) (n : Nat) (ext : Word → Word) (s : State) : Result :=
  match memRead s va n with
  | .error e => raise e s
  | .ok (v, s1) => .next (retire (s.pc + 4) (s1.setReg rd (ext v)))

/-- A store of the low `n` bytes of `v` at `va`: it writes them all, or takes the exception of the first failing byte. -/
def storeAt (va : Word) (n : Nat) (v : Word) (s : State) : Result :=
  match memWrite s va n v with
  | .error e => raise e s
  | .ok s1 => .next (retire (s.pc + 4) s1)

/-! ### Atomics (45_atomics.md R360, R361 to R364, R384) -/

/-- R360 (b), (c), (d): alignment before translation, one translation, all bytes in RAM; the physical address, or the exception. -/
def atomicAddr (s : State) (K : Access) (va : Word) (n : Nat) : Except Exc Word :=
  if va.toNat % n = 0 then
    match translate s K va with
    | .error e => .error e
    | .ok pa => if inRam s.platform pa.toNat n then .ok pa else .error (accessFault K va)
  else .error (accessFault K va)

/-- R361, R362: LR of `n` bytes: rd gets the extended value and the reservation is armed at the physical address. -/
def loadReserved (rd rs1 : Reg) (n : Nat) (ext : Word → Word) (s : State) : Result :=
  match atomicAddr s .load (s.reg rs1) n with
  | .error e => raise e s
  | .ok pa =>
    .next (retire (s.pc + 4) (State.setReg { s with resv := some (pa.setWidth 56) } rd (ext (physRead s.mem pa.toNat n))))

/-- R363: the reservation is valid and holds this physical address. -/
def reservedAt (s : State) (pa : Word) : Bool :=
  match s.resv with
  | none => false
  | some a => a.setWidth 64 == pa

/-- R363, R364: SC of `n` bytes: the checks first, then the store and 0 in rd if reserved, else 1; the reservation is gone. -/
def storeConditional (rd rs1 rs2 : Reg) (n : Nat) (s : State) : Result :=
  match atomicAddr s .store (s.reg rs1) n with
  | .error e => raise e s
  | .ok pa =>
    if reservedAt s pa then
      .next (retire (s.pc + 4)
        (State.setReg { s with mem := physWrite s.mem pa.toNat n (s.reg rs2), resv := none } rd 0))
    else .next (retire (s.pc + 4) (State.setReg { s with resv := none } rd 1))

/-- R384: the common AMO sequence on `n` bytes: `op` of the old value and x[rs2] is stored, the extended old value goes to rd. -/
def amo (rd rs1 rs2 : Reg) (n : Nat) (op : Word → Word → Word) (ext : Word → Word) (s : State) : Result :=
  match atomicAddr s .store (s.reg rs1) n with
  | .error e => raise e s
  | .ok pa =>
    let old := physRead s.mem pa.toNat n
    .next (retire (s.pc + 4)
      (State.setReg
        { s with mem := physWrite s.mem pa.toNat n (op old (s.reg rs2)), resv := resvAfterWrite s.resv [pa] } rd (ext old)))

/-- R384, R385: a .W AMO: the operation on 32-bit values, the old word sign-extended into rd. -/
def amoWord (rd rs1 rs2 : Reg) (op : BitVec 32 → BitVec 32 → BitVec 32) (s : State) : Result :=
  amo rd rs1 rs2 4 (fun m r => (op (lowWord m) (lowWord r)).setWidth 64) (fun m => sextWord (lowWord m)) s

/-- R384, R386: a .D AMO: the operation on 64-bit values, the old doubleword in rd. -/
def amoDouble (rd rs1 rs2 : Reg) (op : Word → Word → Word) (s : State) : Result :=
  amo rd rs1 rs2 8 op (fun m => m) s

end Sys2Proof.Machine
end

