-- ==== Sys2Proof/Machine/Atomics.lean ====
section
/-! DEFINITION. The atomic instructions (45_atomics.md). aq and rl are accepted with any value and have no effect (R360(f)). -/

namespace Sys2Proof.Machine

/-- LR.W, R361: 4 bytes, sign-extended, and the reservation armed. -/
def execLrW (rd rs1 : Reg) (_aq _rl : Bool) (s : State) : Result :=
  loadReserved rd rs1 4 (fun v => sextWord (lowWord v)) s

/-- LR.D, R362: 8 bytes, and the reservation armed. -/
def execLrD (rd rs1 : Reg) (_aq _rl : Bool) (s : State) : Result :=
  loadReserved rd rs1 8 (fun v => v) s

/-- SC.W, R363: 4 bytes if reserved. -/
def execScW (rd rs1 rs2 : Reg) (_aq _rl : Bool) (s : State) : Result :=
  storeConditional rd rs1 rs2 4 s

/-- SC.D, R364: 8 bytes if reserved. -/
def execScD (rd rs1 rs2 : Reg) (_aq _rl : Bool) (s : State) : Result :=
  storeConditional rd rs1 rs2 8 s

/-- AMOSWAP.W, R365: `op(m, r) = r`. -/
def execAmoswapW (rd rs1 rs2 : Reg) (_aq _rl : Bool) (s : State) : Result :=
  amoWord rd rs1 rs2 (fun _ r => r) s

/-- AMOADD.W, R366: `op(m, r) = m + r`. -/
def execAmoaddW (rd rs1 rs2 : Reg) (_aq _rl : Bool) (s : State) : Result :=
  amoWord rd rs1 rs2 (fun m r => m + r) s

/-- AMOXOR.W, R367: `op(m, r) = m ^ r`. -/
def execAmoxorW (rd rs1 rs2 : Reg) (_aq _rl : Bool) (s : State) : Result :=
  amoWord rd rs1 rs2 (fun m r => m ^^^ r) s

/-- AMOAND.W, R368: `op(m, r) = m & r`. -/
def execAmoandW (rd rs1 rs2 : Reg) (_aq _rl : Bool) (s : State) : Result :=
  amoWord rd rs1 rs2 (fun m r => m &&& r) s

/-- AMOOR.W, R369: `op(m, r) = m | r`. -/
def execAmoorW (rd rs1 rs2 : Reg) (_aq _rl : Bool) (s : State) : Result :=
  amoWord rd rs1 rs2 (fun m r => m ||| r) s

/-- AMOMIN.W, R370: `op(m, r) = (signed(m) < signed(r)) ? m : r`. -/
def execAmominW (rd rs1 rs2 : Reg) (_aq _rl : Bool) (s : State) : Result :=
  amoWord rd rs1 rs2 amoMin s

/-- AMOMAX.W, R371: `op(m, r) = (signed(m) > signed(r)) ? m : r`. -/
def execAmomaxW (rd rs1 rs2 : Reg) (_aq _rl : Bool) (s : State) : Result :=
  amoWord rd rs1 rs2 amoMax s

/-- AMOMINU.W, R372: `op(m, r) = (m <u r) ? m : r`. -/
def execAmominuW (rd rs1 rs2 : Reg) (_aq _rl : Bool) (s : State) : Result :=
  amoWord rd rs1 rs2 amoMinu s

/-- AMOMAXU.W, R373: `op(m, r) = (m >u r) ? m : r`. -/
def execAmomaxuW (rd rs1 rs2 : Reg) (_aq _rl : Bool) (s : State) : Result :=
  amoWord rd rs1 rs2 amoMaxu s

/-- AMOSWAP.D, R374: `op(m, r) = r`. -/
def execAmoswapD (rd rs1 rs2 : Reg) (_aq _rl : Bool) (s : State) : Result :=
  amoDouble rd rs1 rs2 (fun _ r => r) s

/-- AMOADD.D, R375: `op(m, r) = m + r`. -/
def execAmoaddD (rd rs1 rs2 : Reg) (_aq _rl : Bool) (s : State) : Result :=
  amoDouble rd rs1 rs2 (fun m r => m + r) s

/-- AMOXOR.D, R376: `op(m, r) = m ^ r`. -/
def execAmoxorD (rd rs1 rs2 : Reg) (_aq _rl : Bool) (s : State) : Result :=
  amoDouble rd rs1 rs2 (fun m r => m ^^^ r) s

/-- AMOAND.D, R377: `op(m, r) = m & r`. -/
def execAmoandD (rd rs1 rs2 : Reg) (_aq _rl : Bool) (s : State) : Result :=
  amoDouble rd rs1 rs2 (fun m r => m &&& r) s

/-- AMOOR.D, R378: `op(m, r) = m | r`. -/
def execAmoorD (rd rs1 rs2 : Reg) (_aq _rl : Bool) (s : State) : Result :=
  amoDouble rd rs1 rs2 (fun m r => m ||| r) s

/-- AMOMIN.D, R379: `op(m, r) = (signed(m) < signed(r)) ? m : r`. -/
def execAmominD (rd rs1 rs2 : Reg) (_aq _rl : Bool) (s : State) : Result :=
  amoDouble rd rs1 rs2 amoMin s

/-- AMOMAX.D, R380: `op(m, r) = (signed(m) > signed(r)) ? m : r`. -/
def execAmomaxD (rd rs1 rs2 : Reg) (_aq _rl : Bool) (s : State) : Result :=
  amoDouble rd rs1 rs2 amoMax s

/-- AMOMINU.D, R381: `op(m, r) = (m <u r) ? m : r`. -/
def execAmominuD (rd rs1 rs2 : Reg) (_aq _rl : Bool) (s : State) : Result :=
  amoDouble rd rs1 rs2 amoMinu s

/-- AMOMAXU.D, R382: `op(m, r) = (m >u r) ? m : r`. -/
def execAmomaxuD (rd rs1 rs2 : Reg) (_aq _rl : Bool) (s : State) : Result :=
  amoDouble rd rs1 rs2 amoMaxu s

end Sys2Proof.Machine
end

