-- ==== Sys2Proof/Machine/Control.lean ====
section
/-! DEFINITION. Branches and jumps (42_control_transfer.md). -/

namespace Sys2Proof.Machine

/-- R290: the common sequence of the six branches: a taken branch checks its target and goes there; one that is not taken goes to
`pc + 4` and checks nothing. -/
def branch (cond : Bool) (imm : BitVec 13) (s : State) : Result :=
  if cond then transferTo (s.pc + immB imm) s s else .next (retire (s.pc + 4) s)

/-- BEQ, R281: taken iff `x[rs1] = x[rs2]`. -/
def execBeq (rs1 rs2 : Reg) (imm : BitVec 13) (s : State) : Result :=
  branch (s.reg rs1 == s.reg rs2) imm s

/-- BNE, R282: taken iff `x[rs1] != x[rs2]`. -/
def execBne (rs1 rs2 : Reg) (imm : BitVec 13) (s : State) : Result :=
  branch (s.reg rs1 != s.reg rs2) imm s

/-- BLT, R283: taken iff `signed(x[rs1]) < signed(x[rs2])`. -/
def execBlt (rs1 rs2 : Reg) (imm : BitVec 13) (s : State) : Result :=
  branch (cmpLt (s.reg rs1) (s.reg rs2)) imm s

/-- BGE, R284: taken iff `signed(x[rs1]) >= signed(x[rs2])`. -/
def execBge (rs1 rs2 : Reg) (imm : BitVec 13) (s : State) : Result :=
  branch (!cmpLt (s.reg rs1) (s.reg rs2)) imm s

/-- BLTU, R285: taken iff `unsigned(x[rs1]) < unsigned(x[rs2])`. -/
def execBltu (rs1 rs2 : Reg) (imm : BitVec 13) (s : State) : Result :=
  branch (cmpLtu (s.reg rs1) (s.reg rs2)) imm s

/-- BGEU, R286: taken iff `unsigned(x[rs1]) >= unsigned(x[rs2])`. -/
def execBgeu (rs1 rs2 : Reg) (imm : BitVec 13) (s : State) : Result :=
  branch (!cmpLtu (s.reg rs1) (s.reg rs2)) imm s

/-- JAL, R287: `t <- pc + immJ; checkTarget(t); x[rd] <- pc + 4; pc <- t`. -/
def execJal (rd : Reg) (imm : BitVec 21) (s : State) : Result :=
  transferTo (s.pc + immJ imm) (s.setReg rd (s.pc + 4)) s

/-- JALR, R288: `t <- (x[rs1] + immI) & ~1; checkTarget(t); x[rd] <- pc + 4; pc <- t`, x[rs1] read first. -/
def execJalr (rd rs1 : Reg) (imm : BitVec 12) (s : State) : Result :=
  transferTo ((s.reg rs1 + immI imm) &&& ~~~1#64) (s.setReg rd (s.pc + 4)) s

end Sys2Proof.Machine
end

