-- ==== Sys2Proof/Machine/Integer.lean ====
section
/-! DEFINITION. The integer computational instructions (40_integer_alu.md): each writes one register and goes to `pc + 4` (R230). -/

namespace Sys2Proof.Machine

/-- LUI, R200: `x[rd] <- immU`. -/
def execLui (rd : Reg) (imm : BitVec 20) (s : State) : Result :=
  writeBack rd (immU imm) s

/-- AUIPC, R201: `x[rd] <- pc + immU`. -/
def execAuipc (rd : Reg) (imm : BitVec 20) (s : State) : Result :=
  writeBack rd (s.pc + immU imm) s

/-- ADDI, R202: `x[rd] <- x[rs1] + immI`. -/
def execAddi (rd rs1 : Reg) (imm : BitVec 12) (s : State) : Result :=
  writeBack rd (s.reg rs1 + immI imm) s

/-- SLTI, R203: `x[rd] <- (signed(x[rs1]) < signed(immI)) ? 1 : 0`. -/
def execSlti (rd rs1 : Reg) (imm : BitVec 12) (s : State) : Result :=
  writeBack rd (aluSlt (s.reg rs1) (immI imm)) s

/-- SLTIU, R204: `x[rd] <- (unsigned(x[rs1]) < unsigned(immI)) ? 1 : 0`. -/
def execSltiu (rd rs1 : Reg) (imm : BitVec 12) (s : State) : Result :=
  writeBack rd (aluSltu (s.reg rs1) (immI imm)) s

/-- XORI, R205: `x[rd] <- x[rs1] ^ immI`. -/
def execXori (rd rs1 : Reg) (imm : BitVec 12) (s : State) : Result :=
  writeBack rd (s.reg rs1 ^^^ immI imm) s

/-- ORI, R206: `x[rd] <- x[rs1] | immI`. -/
def execOri (rd rs1 : Reg) (imm : BitVec 12) (s : State) : Result :=
  writeBack rd (s.reg rs1 ||| immI imm) s

/-- ANDI, R207: `x[rd] <- x[rs1] & immI`. -/
def execAndi (rd rs1 : Reg) (imm : BitVec 12) (s : State) : Result :=
  writeBack rd (s.reg rs1 &&& immI imm) s

/-- SLLI, R208: `x[rd] <- x[rs1] << shamt`. -/
def execSlli (rd rs1 : Reg) (shamt : BitVec 6) (s : State) : Result :=
  writeBack rd (aluSll (s.reg rs1) shamt.toNat) s

/-- SRLI, R209: `x[rd] <- x[rs1] >>u shamt`. -/
def execSrli (rd rs1 : Reg) (shamt : BitVec 6) (s : State) : Result :=
  writeBack rd (aluSrl (s.reg rs1) shamt.toNat) s

/-- SRAI, R210: `x[rd] <- x[rs1] >>s shamt`. -/
def execSrai (rd rs1 : Reg) (shamt : BitVec 6) (s : State) : Result :=
  writeBack rd (aluSra (s.reg rs1) shamt.toNat) s

/-- ADD, R211: `x[rd] <- x[rs1] + x[rs2]`. -/
def execAdd (rd rs1 rs2 : Reg) (s : State) : Result :=
  writeBack rd (s.reg rs1 + s.reg rs2) s

/-- SUB, R212: `x[rd] <- x[rs1] - x[rs2]`. -/
def execSub (rd rs1 rs2 : Reg) (s : State) : Result :=
  writeBack rd (s.reg rs1 - s.reg rs2) s

/-- SLL, R213: `x[rd] <- x[rs1] << x[rs2][5:0]`. -/
def execSll (rd rs1 rs2 : Reg) (s : State) : Result :=
  writeBack rd (aluSll (s.reg rs1) (shiftAmount64 (s.reg rs2))) s

/-- SLT, R214: `x[rd] <- (signed(x[rs1]) < signed(x[rs2])) ? 1 : 0`. -/
def execSlt (rd rs1 rs2 : Reg) (s : State) : Result :=
  writeBack rd (aluSlt (s.reg rs1) (s.reg rs2)) s

/-- SLTU, R215: `x[rd] <- (unsigned(x[rs1]) < unsigned(x[rs2])) ? 1 : 0`. -/
def execSltu (rd rs1 rs2 : Reg) (s : State) : Result :=
  writeBack rd (aluSltu (s.reg rs1) (s.reg rs2)) s

/-- XOR, R216: `x[rd] <- x[rs1] ^ x[rs2]`. -/
def execXor (rd rs1 rs2 : Reg) (s : State) : Result :=
  writeBack rd (s.reg rs1 ^^^ s.reg rs2) s

/-- SRL, R217: `x[rd] <- x[rs1] >>u x[rs2][5:0]`. -/
def execSrl (rd rs1 rs2 : Reg) (s : State) : Result :=
  writeBack rd (aluSrl (s.reg rs1) (shiftAmount64 (s.reg rs2))) s

/-- SRA, R218: `x[rd] <- x[rs1] >>s x[rs2][5:0]`. -/
def execSra (rd rs1 rs2 : Reg) (s : State) : Result :=
  writeBack rd (aluSra (s.reg rs1) (shiftAmount64 (s.reg rs2))) s

/-- OR, R219: `x[rd] <- x[rs1] | x[rs2]`. -/
def execOr (rd rs1 rs2 : Reg) (s : State) : Result :=
  writeBack rd (s.reg rs1 ||| s.reg rs2) s

/-- AND, R220: `x[rd] <- x[rs1] & x[rs2]`. -/
def execAnd (rd rs1 rs2 : Reg) (s : State) : Result :=
  writeBack rd (s.reg rs1 &&& s.reg rs2) s

/-- ADDIW, R221: `x[rd] <- sext_64((x[rs1] + immI)[31:0])`. -/
def execAddiw (rd rs1 : Reg) (imm : BitVec 12) (s : State) : Result :=
  writeBack rd (aluAddw (s.reg rs1) (immI imm)) s

/-- SLLIW, R222: `x[rd] <- sext_64((x[rs1][31:0] << shamt)[31:0])`. -/
def execSlliw (rd rs1 : Reg) (shamt : BitVec 5) (s : State) : Result :=
  writeBack rd (aluSllw (s.reg rs1) shamt.toNat) s

/-- SRLIW, R223: `x[rd] <- sext_64(x[rs1][31:0] >>u shamt)`. -/
def execSrliw (rd rs1 : Reg) (shamt : BitVec 5) (s : State) : Result :=
  writeBack rd (aluSrlw (s.reg rs1) shamt.toNat) s

/-- SRAIW, R224: `x[rd] <- sext_64(x[rs1][31:0] >>s shamt)`. -/
def execSraiw (rd rs1 : Reg) (shamt : BitVec 5) (s : State) : Result :=
  writeBack rd (aluSraw (s.reg rs1) shamt.toNat) s

/-- ADDW, R225: `x[rd] <- sext_64((x[rs1] + x[rs2])[31:0])`. -/
def execAddw (rd rs1 rs2 : Reg) (s : State) : Result :=
  writeBack rd (aluAddw (s.reg rs1) (s.reg rs2)) s

/-- SUBW, R226: `x[rd] <- sext_64((x[rs1] - x[rs2])[31:0])`. -/
def execSubw (rd rs1 rs2 : Reg) (s : State) : Result :=
  writeBack rd (aluSubw (s.reg rs1) (s.reg rs2)) s

/-- SLLW, R227: `x[rd] <- sext_64((x[rs1][31:0] << x[rs2][4:0])[31:0])`. -/
def execSllw (rd rs1 rs2 : Reg) (s : State) : Result :=
  writeBack rd (aluSllw (s.reg rs1) (shiftAmount32 (s.reg rs2))) s

/-- SRLW, R228: `x[rd] <- sext_64(x[rs1][31:0] >>u x[rs2][4:0])`. -/
def execSrlw (rd rs1 rs2 : Reg) (s : State) : Result :=
  writeBack rd (aluSrlw (s.reg rs1) (shiftAmount32 (s.reg rs2))) s

/-- SRAW, R229: `x[rd] <- sext_64(x[rs1][31:0] >>s x[rs2][4:0])`. -/
def execSraw (rd rs1 rs2 : Reg) (s : State) : Result :=
  writeBack rd (aluSraw (s.reg rs1) (shiftAmount32 (s.reg rs2))) s

end Sys2Proof.Machine
end

