-- ==== Sys2Proof/Machine/LoadsStores.lean ====
section
/-! DEFINITION. The loads, stores and fences (41_loads_stores.md), over loadInto and storeAt. -/

namespace Sys2Proof.Machine

/-- LB, R251: `x[rd] <- sext_64(MemRead(x[rs1] + immI, 1))`. -/
def execLb (rd rs1 : Reg) (imm : BitVec 12) (s : State) : Result :=
  loadInto rd (s.reg rs1 + immI imm) 1 (fun v => (v.extractLsb' 0 8).signExtend 64) s

/-- LH, R252: `x[rd] <- sext_64(MemRead(x[rs1] + immI, 2))`. -/
def execLh (rd rs1 : Reg) (imm : BitVec 12) (s : State) : Result :=
  loadInto rd (s.reg rs1 + immI imm) 2 (fun v => (v.extractLsb' 0 16).signExtend 64) s

/-- LW, R253: `x[rd] <- sext_64(MemRead(x[rs1] + immI, 4))`. -/
def execLw (rd rs1 : Reg) (imm : BitVec 12) (s : State) : Result :=
  loadInto rd (s.reg rs1 + immI imm) 4 (fun v => sextWord (lowWord v)) s

/-- LD, R254: `x[rd] <- MemRead(x[rs1] + immI, 8)`. -/
def execLd (rd rs1 : Reg) (imm : BitVec 12) (s : State) : Result :=
  loadInto rd (s.reg rs1 + immI imm) 8 (fun v => v) s

/-- LBU, R255: `x[rd] <- zext_64(MemRead(x[rs1] + immI, 1))`. -/
def execLbu (rd rs1 : Reg) (imm : BitVec 12) (s : State) : Result :=
  loadInto rd (s.reg rs1 + immI imm) 1 (fun v => (v.extractLsb' 0 8).setWidth 64) s

/-- LHU, R256: `x[rd] <- zext_64(MemRead(x[rs1] + immI, 2))`. -/
def execLhu (rd rs1 : Reg) (imm : BitVec 12) (s : State) : Result :=
  loadInto rd (s.reg rs1 + immI imm) 2 (fun v => (v.extractLsb' 0 16).setWidth 64) s

/-- LWU, R257: `x[rd] <- zext_64(MemRead(x[rs1] + immI, 4))`. -/
def execLwu (rd rs1 : Reg) (imm : BitVec 12) (s : State) : Result :=
  loadInto rd (s.reg rs1 + immI imm) 4 (fun v => (lowWord v).setWidth 64) s

/-- SB, R258: `MemWrite(x[rs1] + immS, 1, x[rs2][7:0])`. -/
def execSb (rs1 rs2 : Reg) (imm : BitVec 12) (s : State) : Result :=
  storeAt (s.reg rs1 + immS imm) 1 (s.reg rs2) s

/-- SH, R259: `MemWrite(x[rs1] + immS, 2, x[rs2][15:0])`. -/
def execSh (rs1 rs2 : Reg) (imm : BitVec 12) (s : State) : Result :=
  storeAt (s.reg rs1 + immS imm) 2 (s.reg rs2) s

/-- SW, R260: `MemWrite(x[rs1] + immS, 4, x[rs2][31:0])`. -/
def execSw (rs1 rs2 : Reg) (imm : BitVec 12) (s : State) : Result :=
  storeAt (s.reg rs1 + immS imm) 4 (s.reg rs2) s

/-- SD, R261: `MemWrite(x[rs1] + immS, 8, x[rs2])`. -/
def execSd (rs1 rs2 : Reg) (imm : BitVec 12) (s : State) : Result :=
  storeAt (s.reg rs1 + immS imm) 8 (s.reg rs2) s

/-- FENCE, R262: every operand is ignored; `pc <- pc + 4`, nothing else. -/
def execFence (_fm _pred _succ : BitVec 4) (_rs1 _rd : Reg) (s : State) : Result :=
  .next (retire (s.pc + 4) s)

/-- FENCE.I, R263: every operand is ignored; `pc <- pc + 4`. -/
def execFenceI (_imm : BitVec 12) (_rs1 _rd : Reg) (s : State) : Result :=
  .next (retire (s.pc + 4) s)

end Sys2Proof.Machine
end

