-- ==== Sys2Proof/Machine/MulDiv.lean ====
section
/-! DEFINITION. Multiply and divide (44_muldiv.md): each writes one register, traps never (R343). -/

namespace Sys2Proof.Machine

/-- MUL, R330: `x[rd] <- (x[rs1] × x[rs2])[63:0]`. -/
def execMul (rd rs1 rs2 : Reg) (s : State) : Result :=
  writeBack rd (mulLow (s.reg rs1) (s.reg rs2)) s

/-- MULH, R331: `x[rd] <- (sext_128(x[rs1]) × sext_128(x[rs2]))[127:64]`. -/
def execMulh (rd rs1 rs2 : Reg) (s : State) : Result :=
  writeBack rd (mulHigh (s.reg rs1) (s.reg rs2)) s

/-- MULHSU, R332: `x[rd] <- (sext_128(x[rs1]) × zext_128(x[rs2]))[127:64]`. -/
def execMulhsu (rd rs1 rs2 : Reg) (s : State) : Result :=
  writeBack rd (mulHighSU (s.reg rs1) (s.reg rs2)) s

/-- MULHU, R333: `x[rd] <- (zext_128(x[rs1]) × zext_128(x[rs2]))[127:64]`. -/
def execMulhu (rd rs1 rs2 : Reg) (s : State) : Result :=
  writeBack rd (mulHighU (s.reg rs1) (s.reg rs2)) s

/-- DIV, R334: `x[rd] <- signed quotient`. -/
def execDiv (rd rs1 rs2 : Reg) (s : State) : Result :=
  writeBack rd (divSigned (s.reg rs1) (s.reg rs2)) s

/-- DIVU, R335: `x[rd] <- unsigned quotient`. -/
def execDivu (rd rs1 rs2 : Reg) (s : State) : Result :=
  writeBack rd (divUnsigned (s.reg rs1) (s.reg rs2)) s

/-- REM, R336: `x[rd] <- signed remainder`. -/
def execRem (rd rs1 rs2 : Reg) (s : State) : Result :=
  writeBack rd (remSigned (s.reg rs1) (s.reg rs2)) s

/-- REMU, R337: `x[rd] <- unsigned remainder`. -/
def execRemu (rd rs1 rs2 : Reg) (s : State) : Result :=
  writeBack rd (remUnsigned (s.reg rs1) (s.reg rs2)) s

/-- MULW, R338: `x[rd] <- sext_64((a × b)[31:0])`. -/
def execMulw (rd rs1 rs2 : Reg) (s : State) : Result :=
  writeBack rd (mulWord (s.reg rs1) (s.reg rs2)) s

/-- DIVW, R339: `x[rd] <- signed 32-bit quotient, sign-extended`. -/
def execDivw (rd rs1 rs2 : Reg) (s : State) : Result :=
  writeBack rd (sextWord (divSigned (lowWord (s.reg rs1)) (lowWord (s.reg rs2)))) s

/-- DIVUW, R340: `x[rd] <- unsigned 32-bit quotient, sign-extended`. -/
def execDivuw (rd rs1 rs2 : Reg) (s : State) : Result :=
  writeBack rd (sextWord (divUnsigned (lowWord (s.reg rs1)) (lowWord (s.reg rs2)))) s

/-- REMW, R341: `x[rd] <- signed 32-bit remainder, sign-extended`. -/
def execRemw (rd rs1 rs2 : Reg) (s : State) : Result :=
  writeBack rd (sextWord (remSigned (lowWord (s.reg rs1)) (lowWord (s.reg rs2)))) s

/-- REMUW, R342: `x[rd] <- unsigned 32-bit remainder, sign-extended`. -/
def execRemuw (rd rs1 rs2 : Reg) (s : State) : Result :=
  writeBack rd (sextWord (remUnsigned (lowWord (s.reg rs1)) (lowWord (s.reg rs2)))) s

end Sys2Proof.Machine
end

