-- ==== Sys2Proof/Syntax.lean ====
section
/-! DEFINITION. The instructions: one constructor for each row of spec/opcode_table.json (30_encoding.md R171). A constructor
holds every field of the word that its row leaves free, the ignored ones too (30_encoding.md R161 to R169), so that encode
gives the whole word back. The immediates are the fields as the spec puts them together, before sign extension: 12 bits for I
and S, 20 for U, 13 with bit 0 = 0 for B and 21 with bit 0 = 0 for J. -/

namespace Sys2Proof

/-- The 98 instructions of 30_encoding.md R171. -/
inductive Instr where
  -- Integer computational instructions (40_integer_alu.md)
  /-- LUI, R200 -/
  | lui (rd : Reg) (imm : BitVec 20)
  /-- AUIPC, R201 -/
  | auipc (rd : Reg) (imm : BitVec 20)
  /-- ADDI, R202 -/
  | addi (rd rs1 : Reg) (imm : BitVec 12)
  /-- SLTI, R203 -/
  | slti (rd rs1 : Reg) (imm : BitVec 12)
  /-- SLTIU, R204 -/
  | sltiu (rd rs1 : Reg) (imm : BitVec 12)
  /-- XORI, R205 -/
  | xori (rd rs1 : Reg) (imm : BitVec 12)
  /-- ORI, R206 -/
  | ori (rd rs1 : Reg) (imm : BitVec 12)
  /-- ANDI, R207 -/
  | andi (rd rs1 : Reg) (imm : BitVec 12)
  /-- SLLI, R208 -/
  | slli (rd rs1 : Reg) (shamt : BitVec 6)
  /-- SRLI, R209 -/
  | srli (rd rs1 : Reg) (shamt : BitVec 6)
  /-- SRAI, R210 -/
  | srai (rd rs1 : Reg) (shamt : BitVec 6)
  /-- ADD, R211 -/
  | add (rd rs1 rs2 : Reg)
  /-- SUB, R212 -/
  | sub (rd rs1 rs2 : Reg)
  /-- SLL, R213 -/
  | sll (rd rs1 rs2 : Reg)
  /-- SLT, R214 -/
  | slt (rd rs1 rs2 : Reg)
  /-- SLTU, R215 -/
  | sltu (rd rs1 rs2 : Reg)
  /-- XOR, R216 -/
  | xor (rd rs1 rs2 : Reg)
  /-- SRL, R217 -/
  | srl (rd rs1 rs2 : Reg)
  /-- SRA, R218 -/
  | sra (rd rs1 rs2 : Reg)
  /-- OR, R219 -/
  | or (rd rs1 rs2 : Reg)
  /-- AND, R220 -/
  | and (rd rs1 rs2 : Reg)
  /-- ADDIW, R221 -/
  | addiw (rd rs1 : Reg) (imm : BitVec 12)
  /-- SLLIW, R222 -/
  | slliw (rd rs1 : Reg) (shamt : BitVec 5)
  /-- SRLIW, R223 -/
  | srliw (rd rs1 : Reg) (shamt : BitVec 5)
  /-- SRAIW, R224 -/
  | sraiw (rd rs1 : Reg) (shamt : BitVec 5)
  /-- ADDW, R225 -/
  | addw (rd rs1 rs2 : Reg)
  /-- SUBW, R226 -/
  | subw (rd rs1 rs2 : Reg)
  /-- SLLW, R227 -/
  | sllw (rd rs1 rs2 : Reg)
  /-- SRLW, R228 -/
  | srlw (rd rs1 rs2 : Reg)
  /-- SRAW, R229 -/
  | sraw (rd rs1 rs2 : Reg)
  -- Loads, stores and fences (41_loads_stores.md)
  /-- LB, R251 -/
  | lb (rd rs1 : Reg) (imm : BitVec 12)
  /-- LH, R252 -/
  | lh (rd rs1 : Reg) (imm : BitVec 12)
  /-- LW, R253 -/
  | lw (rd rs1 : Reg) (imm : BitVec 12)
  /-- LD, R254 -/
  | ld (rd rs1 : Reg) (imm : BitVec 12)
  /-- LBU, R255 -/
  | lbu (rd rs1 : Reg) (imm : BitVec 12)
  /-- LHU, R256 -/
  | lhu (rd rs1 : Reg) (imm : BitVec 12)
  /-- LWU, R257 -/
  | lwu (rd rs1 : Reg) (imm : BitVec 12)
  /-- SB, R258 -/
  | sb (rs1 rs2 : Reg) (imm : BitVec 12)
  /-- SH, R259 -/
  | sh (rs1 rs2 : Reg) (imm : BitVec 12)
  /-- SW, R260 -/
  | sw (rs1 rs2 : Reg) (imm : BitVec 12)
  /-- SD, R261 -/
  | sd (rs1 rs2 : Reg) (imm : BitVec 12)
  /-- FENCE, R262 -/
  | fence (fm pred succ : BitVec 4) (rs1 rd : Reg)
  /-- FENCE.I, R263 -/
  | fenceI (imm : BitVec 12) (rs1 rd : Reg)
  -- Branches and jumps (42_control_transfer.md)
  /-- BEQ, R281 -/
  | beq (rs1 rs2 : Reg) (imm : BitVec 13)
  /-- BNE, R282 -/
  | bne (rs1 rs2 : Reg) (imm : BitVec 13)
  /-- BLT, R283 -/
  | blt (rs1 rs2 : Reg) (imm : BitVec 13)
  /-- BGE, R284 -/
  | bge (rs1 rs2 : Reg) (imm : BitVec 13)
  /-- BLTU, R285 -/
  | bltu (rs1 rs2 : Reg) (imm : BitVec 13)
  /-- BGEU, R286 -/
  | bgeu (rs1 rs2 : Reg) (imm : BitVec 13)
  /-- JAL, R287 -/
  | jal (rd : Reg) (imm : BitVec 21)
  /-- JALR, R288 -/
  | jalr (rd rs1 : Reg) (imm : BitVec 12)
  -- Zicsr (43_zicsr.md)
  /-- CSRRW, R301 -/
  | csrrw (rd : Reg) (csr : CsrAddr) (rs1 : Reg)
  /-- CSRRS, R302 -/
  | csrrs (rd : Reg) (csr : CsrAddr) (rs1 : Reg)
  /-- CSRRC, R303 -/
  | csrrc (rd : Reg) (csr : CsrAddr) (rs1 : Reg)
  /-- CSRRWI, R304 -/
  | csrrwi (rd : Reg) (csr : CsrAddr) (uimm : BitVec 5)
  /-- CSRRSI, R305 -/
  | csrrsi (rd : Reg) (csr : CsrAddr) (uimm : BitVec 5)
  /-- CSRRCI, R306 -/
  | csrrci (rd : Reg) (csr : CsrAddr) (uimm : BitVec 5)
  -- Multiply and divide (44_muldiv.md)
  /-- MUL, R330 -/
  | mul (rd rs1 rs2 : Reg)
  /-- MULH, R331 -/
  | mulh (rd rs1 rs2 : Reg)
  /-- MULHSU, R332 -/
  | mulhsu (rd rs1 rs2 : Reg)
  /-- MULHU, R333 -/
  | mulhu (rd rs1 rs2 : Reg)
  /-- DIV, R334 -/
  | div (rd rs1 rs2 : Reg)
  /-- DIVU, R335 -/
  | divu (rd rs1 rs2 : Reg)
  /-- REM, R336 -/
  | rem (rd rs1 rs2 : Reg)
  /-- REMU, R337 -/
  | remu (rd rs1 rs2 : Reg)
  /-- MULW, R338 -/
  | mulw (rd rs1 rs2 : Reg)
  /-- DIVW, R339 -/
  | divw (rd rs1 rs2 : Reg)
  /-- DIVUW, R340 -/
  | divuw (rd rs1 rs2 : Reg)
  /-- REMW, R341 -/
  | remw (rd rs1 rs2 : Reg)
  /-- REMUW, R342 -/
  | remuw (rd rs1 rs2 : Reg)
  -- Atomics (45_atomics.md)
  /-- LR.W, R361 -/
  | lrW (rd rs1 : Reg) (aq rl : Bool)
  /-- LR.D, R362 -/
  | lrD (rd rs1 : Reg) (aq rl : Bool)
  /-- SC.W, R363 -/
  | scW (rd rs1 rs2 : Reg) (aq rl : Bool)
  /-- SC.D, R364 -/
  | scD (rd rs1 rs2 : Reg) (aq rl : Bool)
  /-- AMOSWAP.W, R365 -/
  | amoswapW (rd rs1 rs2 : Reg) (aq rl : Bool)
  /-- AMOADD.W, R366 -/
  | amoaddW (rd rs1 rs2 : Reg) (aq rl : Bool)
  /-- AMOXOR.W, R367 -/
  | amoxorW (rd rs1 rs2 : Reg) (aq rl : Bool)
  /-- AMOAND.W, R368 -/
  | amoandW (rd rs1 rs2 : Reg) (aq rl : Bool)
  /-- AMOOR.W, R369 -/
  | amoorW (rd rs1 rs2 : Reg) (aq rl : Bool)
  /-- AMOMIN.W, R370 -/
  | amominW (rd rs1 rs2 : Reg) (aq rl : Bool)
  /-- AMOMAX.W, R371 -/
  | amomaxW (rd rs1 rs2 : Reg) (aq rl : Bool)
  /-- AMOMINU.W, R372 -/
  | amominuW (rd rs1 rs2 : Reg) (aq rl : Bool)
  /-- AMOMAXU.W, R373 -/
  | amomaxuW (rd rs1 rs2 : Reg) (aq rl : Bool)
  /-- AMOSWAP.D, R374 -/
  | amoswapD (rd rs1 rs2 : Reg) (aq rl : Bool)
  /-- AMOADD.D, R375 -/
  | amoaddD (rd rs1 rs2 : Reg) (aq rl : Bool)
  /-- AMOXOR.D, R376 -/
  | amoxorD (rd rs1 rs2 : Reg) (aq rl : Bool)
  /-- AMOAND.D, R377 -/
  | amoandD (rd rs1 rs2 : Reg) (aq rl : Bool)
  /-- AMOOR.D, R378 -/
  | amoorD (rd rs1 rs2 : Reg) (aq rl : Bool)
  /-- AMOMIN.D, R379 -/
  | amominD (rd rs1 rs2 : Reg) (aq rl : Bool)
  /-- AMOMAX.D, R380 -/
  | amomaxD (rd rs1 rs2 : Reg) (aq rl : Bool)
  /-- AMOMINU.D, R381 -/
  | amominuD (rd rs1 rs2 : Reg) (aq rl : Bool)
  /-- AMOMAXU.D, R382 -/
  | amomaxuD (rd rs1 rs2 : Reg) (aq rl : Bool)
  -- System (46_system.md)
  /-- ECALL, R390 -/
  | ecall
  /-- EBREAK, R391 -/
  | ebreak
  /-- SRET, R394 -/
  | sret
  /-- MRET, R393 -/
  | mret
  /-- WFI, R395 -/
  | wfi
  /-- SFENCE.VMA, R396 -/
  | sfenceVma (rs1 rs2 : Reg)
  deriving DecidableEq, Repr

end Sys2Proof
end

