-- ==== Sys2Proof/Decode.lean ====
section
/-! DEFINITION. The instruction decoder and, after it, the encoder (instruction_decoder, 10_state.md R82; 30_encoding.md).
decode is total and pure: "Each of the 2^32 words gives exactly one instruction of rule R171 or Illegal" (R176). It reads the
opcode table row by row, as R171 says: "A word is an instruction iff (word & mask) = match for exactly one row". -/

namespace Sys2Proof

/-! ### Fields of a word (30_encoding.md R161, R162, R163 to R169) -/

/-- R161: `rd = inst[11:7]`. -/
def fieldRd (w : InstrWord) : Reg := w.extractLsb' 7 5
/-- R161: `rs1 = inst[19:15]`. -/
def fieldRs1 (w : InstrWord) : Reg := w.extractLsb' 15 5
/-- R161: `rs2 = inst[24:20]`. -/
def fieldRs2 (w : InstrWord) : Reg := w.extractLsb' 20 5
/-- R163: the 12 bits `inst[31:20]` of an I-immediate. -/
def fieldImmI (w : InstrWord) : BitVec 12 := w.extractLsb' 20 12
/-- R164: the 12 bits `{inst[31:25], inst[11:7]}` of an S-immediate. -/
def fieldImmS (w : InstrWord) : BitVec 12 := w.extractLsb' 25 7 ++ w.extractLsb' 7 5
/-- R165: the 13 bits `{inst[31], inst[7], inst[30:25], inst[11:8], 1'b0}` of a B-immediate. -/
def fieldImmB (w : InstrWord) : BitVec 13 :=
  w.extractLsb' 31 1 ++ w.extractLsb' 7 1 ++ w.extractLsb' 25 6 ++ w.extractLsb' 8 4 ++ 0b0#1
/-- R166: the 20 bits `inst[31:12]` of a U-immediate. -/
def fieldImmU (w : InstrWord) : BitVec 20 := w.extractLsb' 12 20
/-- R167: the 21 bits `{inst[31], inst[19:12], inst[20], inst[30:21], 1'b0}` of a J-immediate. -/
def fieldImmJ (w : InstrWord) : BitVec 21 :=
  w.extractLsb' 31 1 ++ w.extractLsb' 12 8 ++ w.extractLsb' 20 1 ++ w.extractLsb' 21 10 ++ 0b0#1
/-- R168: `shamt = inst[25:20]` of a 64-bit immediate shift. -/
def fieldShamt64 (w : InstrWord) : BitVec 6 := w.extractLsb' 20 6
/-- R168: `shamt = inst[24:20]` of a 32-bit immediate shift. -/
def fieldShamt32 (w : InstrWord) : BitVec 5 := w.extractLsb' 20 5
/-- R169: the CSR address `inst[31:20]`. -/
def fieldCsr (w : InstrWord) : CsrAddr := w.extractLsb' 20 12
/-- R169: `uimm = inst[19:15]`. -/
def fieldUimm (w : InstrWord) : BitVec 5 := w.extractLsb' 15 5
/-- R169: `aq = inst[26]`. -/
def fieldAq (w : InstrWord) : Bool := w.getLsbD 26
/-- R169: `rl = inst[25]`. -/
def fieldRl (w : InstrWord) : Bool := w.getLsbD 25
/-- R162: `fm = inst[31:28]` of FENCE. -/
def fieldFm (w : InstrWord) : BitVec 4 := w.extractLsb' 28 4
/-- R162: `pred = inst[27:24]` of FENCE. -/
def fieldPred (w : InstrWord) : BitVec 4 := w.extractLsb' 24 4
/-- R162: `succ = inst[23:20]` of FENCE. -/
def fieldSucc (w : InstrWord) : BitVec 4 := w.extractLsb' 20 4

/-! ### The opcode table (30_encoding.md R171) -/

/-- One row of the table: its name, the fixed bits (mask and match) and the instruction built from the free fields. -/
structure Row where
  mnemonic : String
  mask : InstrWord
  pattern : InstrWord
  build : InstrWord → Instr

/-- R171: `(word & mask) = match`. -/
def rowMatches (w : InstrWord) (r : Row) : Bool := w &&& r.mask == r.pattern

/-- Integer computational instructions (40_integer_alu.md). -/
def integerRows : List Row := [
  ⟨"LUI", 0x0000007F#32, 0x00000037#32, fun w => .lui (fieldRd w) (fieldImmU w)⟩,
  ⟨"AUIPC", 0x0000007F#32, 0x00000017#32, fun w => .auipc (fieldRd w) (fieldImmU w)⟩,
  ⟨"ADDI", 0x0000707F#32, 0x00000013#32, fun w => .addi (fieldRd w) (fieldRs1 w) (fieldImmI w)⟩,
  ⟨"SLTI", 0x0000707F#32, 0x00002013#32, fun w => .slti (fieldRd w) (fieldRs1 w) (fieldImmI w)⟩,
  ⟨"SLTIU", 0x0000707F#32, 0x00003013#32, fun w => .sltiu (fieldRd w) (fieldRs1 w) (fieldImmI w)⟩,
  ⟨"XORI", 0x0000707F#32, 0x00004013#32, fun w => .xori (fieldRd w) (fieldRs1 w) (fieldImmI w)⟩,
  ⟨"ORI", 0x0000707F#32, 0x00006013#32, fun w => .ori (fieldRd w) (fieldRs1 w) (fieldImmI w)⟩,
  ⟨"ANDI", 0x0000707F#32, 0x00007013#32, fun w => .andi (fieldRd w) (fieldRs1 w) (fieldImmI w)⟩,
  ⟨"SLLI", 0xFC00707F#32, 0x00001013#32, fun w => .slli (fieldRd w) (fieldRs1 w) (fieldShamt64 w)⟩,
  ⟨"SRLI", 0xFC00707F#32, 0x00005013#32, fun w => .srli (fieldRd w) (fieldRs1 w) (fieldShamt64 w)⟩,
  ⟨"SRAI", 0xFC00707F#32, 0x40005013#32, fun w => .srai (fieldRd w) (fieldRs1 w) (fieldShamt64 w)⟩,
  ⟨"ADD", 0xFE00707F#32, 0x00000033#32, fun w => .add (fieldRd w) (fieldRs1 w) (fieldRs2 w)⟩,
  ⟨"SUB", 0xFE00707F#32, 0x40000033#32, fun w => .sub (fieldRd w) (fieldRs1 w) (fieldRs2 w)⟩,
  ⟨"SLL", 0xFE00707F#32, 0x00001033#32, fun w => .sll (fieldRd w) (fieldRs1 w) (fieldRs2 w)⟩,
  ⟨"SLT", 0xFE00707F#32, 0x00002033#32, fun w => .slt (fieldRd w) (fieldRs1 w) (fieldRs2 w)⟩,
  ⟨"SLTU", 0xFE00707F#32, 0x00003033#32, fun w => .sltu (fieldRd w) (fieldRs1 w) (fieldRs2 w)⟩,
  ⟨"XOR", 0xFE00707F#32, 0x00004033#32, fun w => .xor (fieldRd w) (fieldRs1 w) (fieldRs2 w)⟩,
  ⟨"SRL", 0xFE00707F#32, 0x00005033#32, fun w => .srl (fieldRd w) (fieldRs1 w) (fieldRs2 w)⟩,
  ⟨"SRA", 0xFE00707F#32, 0x40005033#32, fun w => .sra (fieldRd w) (fieldRs1 w) (fieldRs2 w)⟩,
  ⟨"OR", 0xFE00707F#32, 0x00006033#32, fun w => .or (fieldRd w) (fieldRs1 w) (fieldRs2 w)⟩,
  ⟨"AND", 0xFE00707F#32, 0x00007033#32, fun w => .and (fieldRd w) (fieldRs1 w) (fieldRs2 w)⟩,
  ⟨"ADDIW", 0x0000707F#32, 0x0000001B#32, fun w => .addiw (fieldRd w) (fieldRs1 w) (fieldImmI w)⟩,
  ⟨"SLLIW", 0xFE00707F#32, 0x0000101B#32, fun w => .slliw (fieldRd w) (fieldRs1 w) (fieldShamt32 w)⟩,
  ⟨"SRLIW", 0xFE00707F#32, 0x0000501B#32, fun w => .srliw (fieldRd w) (fieldRs1 w) (fieldShamt32 w)⟩,
  ⟨"SRAIW", 0xFE00707F#32, 0x4000501B#32, fun w => .sraiw (fieldRd w) (fieldRs1 w) (fieldShamt32 w)⟩,
  ⟨"ADDW", 0xFE00707F#32, 0x0000003B#32, fun w => .addw (fieldRd w) (fieldRs1 w) (fieldRs2 w)⟩,
  ⟨"SUBW", 0xFE00707F#32, 0x4000003B#32, fun w => .subw (fieldRd w) (fieldRs1 w) (fieldRs2 w)⟩,
  ⟨"SLLW", 0xFE00707F#32, 0x0000103B#32, fun w => .sllw (fieldRd w) (fieldRs1 w) (fieldRs2 w)⟩,
  ⟨"SRLW", 0xFE00707F#32, 0x0000503B#32, fun w => .srlw (fieldRd w) (fieldRs1 w) (fieldRs2 w)⟩,
  ⟨"SRAW", 0xFE00707F#32, 0x4000503B#32, fun w => .sraw (fieldRd w) (fieldRs1 w) (fieldRs2 w)⟩]

/-- Loads, stores and fences (41_loads_stores.md). -/
def loadStoreRows : List Row := [
  ⟨"LB", 0x0000707F#32, 0x00000003#32, fun w => .lb (fieldRd w) (fieldRs1 w) (fieldImmI w)⟩,
  ⟨"LH", 0x0000707F#32, 0x00001003#32, fun w => .lh (fieldRd w) (fieldRs1 w) (fieldImmI w)⟩,
  ⟨"LW", 0x0000707F#32, 0x00002003#32, fun w => .lw (fieldRd w) (fieldRs1 w) (fieldImmI w)⟩,
  ⟨"LD", 0x0000707F#32, 0x00003003#32, fun w => .ld (fieldRd w) (fieldRs1 w) (fieldImmI w)⟩,
  ⟨"LBU", 0x0000707F#32, 0x00004003#32, fun w => .lbu (fieldRd w) (fieldRs1 w) (fieldImmI w)⟩,
  ⟨"LHU", 0x0000707F#32, 0x00005003#32, fun w => .lhu (fieldRd w) (fieldRs1 w) (fieldImmI w)⟩,
  ⟨"LWU", 0x0000707F#32, 0x00006003#32, fun w => .lwu (fieldRd w) (fieldRs1 w) (fieldImmI w)⟩,
  ⟨"SB", 0x0000707F#32, 0x00000023#32, fun w => .sb (fieldRs1 w) (fieldRs2 w) (fieldImmS w)⟩,
  ⟨"SH", 0x0000707F#32, 0x00001023#32, fun w => .sh (fieldRs1 w) (fieldRs2 w) (fieldImmS w)⟩,
  ⟨"SW", 0x0000707F#32, 0x00002023#32, fun w => .sw (fieldRs1 w) (fieldRs2 w) (fieldImmS w)⟩,
  ⟨"SD", 0x0000707F#32, 0x00003023#32, fun w => .sd (fieldRs1 w) (fieldRs2 w) (fieldImmS w)⟩,
  ⟨"FENCE", 0x0000707F#32, 0x0000000F#32, fun w => .fence (fieldFm w) (fieldPred w) (fieldSucc w) (fieldRs1 w) (fieldRd w)⟩,
  ⟨"FENCE.I", 0x0000707F#32, 0x0000100F#32, fun w => .fenceI (fieldImmI w) (fieldRs1 w) (fieldRd w)⟩]

/-- Branches and jumps (42_control_transfer.md). -/
def controlRows : List Row := [
  ⟨"BEQ", 0x0000707F#32, 0x00000063#32, fun w => .beq (fieldRs1 w) (fieldRs2 w) (fieldImmB w)⟩,
  ⟨"BNE", 0x0000707F#32, 0x00001063#32, fun w => .bne (fieldRs1 w) (fieldRs2 w) (fieldImmB w)⟩,
  ⟨"BLT", 0x0000707F#32, 0x00004063#32, fun w => .blt (fieldRs1 w) (fieldRs2 w) (fieldImmB w)⟩,
  ⟨"BGE", 0x0000707F#32, 0x00005063#32, fun w => .bge (fieldRs1 w) (fieldRs2 w) (fieldImmB w)⟩,
  ⟨"BLTU", 0x0000707F#32, 0x00006063#32, fun w => .bltu (fieldRs1 w) (fieldRs2 w) (fieldImmB w)⟩,
  ⟨"BGEU", 0x0000707F#32, 0x00007063#32, fun w => .bgeu (fieldRs1 w) (fieldRs2 w) (fieldImmB w)⟩,
  ⟨"JAL", 0x0000007F#32, 0x0000006F#32, fun w => .jal (fieldRd w) (fieldImmJ w)⟩,
  ⟨"JALR", 0x0000707F#32, 0x00000067#32, fun w => .jalr (fieldRd w) (fieldRs1 w) (fieldImmI w)⟩]

/-- Zicsr (43_zicsr.md). -/
def zicsrRows : List Row := [
  ⟨"CSRRW", 0x0000707F#32, 0x00001073#32, fun w => .csrrw (fieldRd w) (fieldCsr w) (fieldRs1 w)⟩,
  ⟨"CSRRS", 0x0000707F#32, 0x00002073#32, fun w => .csrrs (fieldRd w) (fieldCsr w) (fieldRs1 w)⟩,
  ⟨"CSRRC", 0x0000707F#32, 0x00003073#32, fun w => .csrrc (fieldRd w) (fieldCsr w) (fieldRs1 w)⟩,
  ⟨"CSRRWI", 0x0000707F#32, 0x00005073#32, fun w => .csrrwi (fieldRd w) (fieldCsr w) (fieldUimm w)⟩,
  ⟨"CSRRSI", 0x0000707F#32, 0x00006073#32, fun w => .csrrsi (fieldRd w) (fieldCsr w) (fieldUimm w)⟩,
  ⟨"CSRRCI", 0x0000707F#32, 0x00007073#32, fun w => .csrrci (fieldRd w) (fieldCsr w) (fieldUimm w)⟩]

/-- Multiply and divide (44_muldiv.md). -/
def mulDivRows : List Row := [
  ⟨"MUL", 0xFE00707F#32, 0x02000033#32, fun w => .mul (fieldRd w) (fieldRs1 w) (fieldRs2 w)⟩,
  ⟨"MULH", 0xFE00707F#32, 0x02001033#32, fun w => .mulh (fieldRd w) (fieldRs1 w) (fieldRs2 w)⟩,
  ⟨"MULHSU", 0xFE00707F#32, 0x02002033#32, fun w => .mulhsu (fieldRd w) (fieldRs1 w) (fieldRs2 w)⟩,
  ⟨"MULHU", 0xFE00707F#32, 0x02003033#32, fun w => .mulhu (fieldRd w) (fieldRs1 w) (fieldRs2 w)⟩,
  ⟨"DIV", 0xFE00707F#32, 0x02004033#32, fun w => .div (fieldRd w) (fieldRs1 w) (fieldRs2 w)⟩,
  ⟨"DIVU", 0xFE00707F#32, 0x02005033#32, fun w => .divu (fieldRd w) (fieldRs1 w) (fieldRs2 w)⟩,
  ⟨"REM", 0xFE00707F#32, 0x02006033#32, fun w => .rem (fieldRd w) (fieldRs1 w) (fieldRs2 w)⟩,
  ⟨"REMU", 0xFE00707F#32, 0x02007033#32, fun w => .remu (fieldRd w) (fieldRs1 w) (fieldRs2 w)⟩,
  ⟨"MULW", 0xFE00707F#32, 0x0200003B#32, fun w => .mulw (fieldRd w) (fieldRs1 w) (fieldRs2 w)⟩,
  ⟨"DIVW", 0xFE00707F#32, 0x0200403B#32, fun w => .divw (fieldRd w) (fieldRs1 w) (fieldRs2 w)⟩,
  ⟨"DIVUW", 0xFE00707F#32, 0x0200503B#32, fun w => .divuw (fieldRd w) (fieldRs1 w) (fieldRs2 w)⟩,
  ⟨"REMW", 0xFE00707F#32, 0x0200603B#32, fun w => .remw (fieldRd w) (fieldRs1 w) (fieldRs2 w)⟩,
  ⟨"REMUW", 0xFE00707F#32, 0x0200703B#32, fun w => .remuw (fieldRd w) (fieldRs1 w) (fieldRs2 w)⟩]

/-- Atomics (45_atomics.md). -/
def atomicRows : List Row := [
  ⟨"LR.W", 0xF9F0707F#32, 0x1000202F#32, fun w => .lrW (fieldRd w) (fieldRs1 w) (fieldAq w) (fieldRl w)⟩,
  ⟨"LR.D", 0xF9F0707F#32, 0x1000302F#32, fun w => .lrD (fieldRd w) (fieldRs1 w) (fieldAq w) (fieldRl w)⟩,
  ⟨"SC.W", 0xF800707F#32, 0x1800202F#32, fun w => .scW (fieldRd w) (fieldRs1 w) (fieldRs2 w) (fieldAq w) (fieldRl w)⟩,
  ⟨"SC.D", 0xF800707F#32, 0x1800302F#32, fun w => .scD (fieldRd w) (fieldRs1 w) (fieldRs2 w) (fieldAq w) (fieldRl w)⟩,
  ⟨"AMOSWAP.W", 0xF800707F#32, 0x0800202F#32, fun w => .amoswapW (fieldRd w) (fieldRs1 w) (fieldRs2 w) (fieldAq w) (fieldRl w)⟩,
  ⟨"AMOADD.W", 0xF800707F#32, 0x0000202F#32, fun w => .amoaddW (fieldRd w) (fieldRs1 w) (fieldRs2 w) (fieldAq w) (fieldRl w)⟩,
  ⟨"AMOXOR.W", 0xF800707F#32, 0x2000202F#32, fun w => .amoxorW (fieldRd w) (fieldRs1 w) (fieldRs2 w) (fieldAq w) (fieldRl w)⟩,
  ⟨"AMOAND.W", 0xF800707F#32, 0x6000202F#32, fun w => .amoandW (fieldRd w) (fieldRs1 w) (fieldRs2 w) (fieldAq w) (fieldRl w)⟩,
  ⟨"AMOOR.W", 0xF800707F#32, 0x4000202F#32, fun w => .amoorW (fieldRd w) (fieldRs1 w) (fieldRs2 w) (fieldAq w) (fieldRl w)⟩,
  ⟨"AMOMIN.W", 0xF800707F#32, 0x8000202F#32, fun w => .amominW (fieldRd w) (fieldRs1 w) (fieldRs2 w) (fieldAq w) (fieldRl w)⟩,
  ⟨"AMOMAX.W", 0xF800707F#32, 0xA000202F#32, fun w => .amomaxW (fieldRd w) (fieldRs1 w) (fieldRs2 w) (fieldAq w) (fieldRl w)⟩,
  ⟨"AMOMINU.W", 0xF800707F#32, 0xC000202F#32, fun w => .amominuW (fieldRd w) (fieldRs1 w) (fieldRs2 w) (fieldAq w) (fieldRl w)⟩,
  ⟨"AMOMAXU.W", 0xF800707F#32, 0xE000202F#32, fun w => .amomaxuW (fieldRd w) (fieldRs1 w) (fieldRs2 w) (fieldAq w) (fieldRl w)⟩,
  ⟨"AMOSWAP.D", 0xF800707F#32, 0x0800302F#32, fun w => .amoswapD (fieldRd w) (fieldRs1 w) (fieldRs2 w) (fieldAq w) (fieldRl w)⟩,
  ⟨"AMOADD.D", 0xF800707F#32, 0x0000302F#32, fun w => .amoaddD (fieldRd w) (fieldRs1 w) (fieldRs2 w) (fieldAq w) (fieldRl w)⟩,
  ⟨"AMOXOR.D", 0xF800707F#32, 0x2000302F#32, fun w => .amoxorD (fieldRd w) (fieldRs1 w) (fieldRs2 w) (fieldAq w) (fieldRl w)⟩,
  ⟨"AMOAND.D", 0xF800707F#32, 0x6000302F#32, fun w => .amoandD (fieldRd w) (fieldRs1 w) (fieldRs2 w) (fieldAq w) (fieldRl w)⟩,
  ⟨"AMOOR.D", 0xF800707F#32, 0x4000302F#32, fun w => .amoorD (fieldRd w) (fieldRs1 w) (fieldRs2 w) (fieldAq w) (fieldRl w)⟩,
  ⟨"AMOMIN.D", 0xF800707F#32, 0x8000302F#32, fun w => .amominD (fieldRd w) (fieldRs1 w) (fieldRs2 w) (fieldAq w) (fieldRl w)⟩,
  ⟨"AMOMAX.D", 0xF800707F#32, 0xA000302F#32, fun w => .amomaxD (fieldRd w) (fieldRs1 w) (fieldRs2 w) (fieldAq w) (fieldRl w)⟩,
  ⟨"AMOMINU.D", 0xF800707F#32, 0xC000302F#32, fun w => .amominuD (fieldRd w) (fieldRs1 w) (fieldRs2 w) (fieldAq w) (fieldRl w)⟩,
  ⟨"AMOMAXU.D", 0xF800707F#32, 0xE000302F#32, fun w => .amomaxuD (fieldRd w) (fieldRs1 w) (fieldRs2 w) (fieldAq w) (fieldRl w)⟩]

/-- System (46_system.md). -/
def systemRows : List Row := [
  ⟨"ECALL", 0xFFFFFFFF#32, 0x00000073#32, fun _ => .ecall⟩,
  ⟨"EBREAK", 0xFFFFFFFF#32, 0x00100073#32, fun _ => .ebreak⟩,
  ⟨"SRET", 0xFFFFFFFF#32, 0x10200073#32, fun _ => .sret⟩,
  ⟨"MRET", 0xFFFFFFFF#32, 0x30200073#32, fun _ => .mret⟩,
  ⟨"WFI", 0xFFFFFFFF#32, 0x10500073#32, fun _ => .wfi⟩,
  ⟨"SFENCE.VMA", 0xFE007FFF#32, 0x12000073#32, fun w => .sfenceVma (fieldRs1 w) (fieldRs2 w)⟩]

/-- The 98 rows of 30_encoding.md R171, the same rows as spec/opcode_table.json. -/
def opcodeTable : List Row :=
  integerRows ++ loadStoreRows ++ controlRows ++ zicsrRows ++ mulDivRows ++ atomicRows ++ systemRows

/-! ### The decoder (30_encoding.md R172, R176) -/

/-- Why a word is Illegal, by the clause of R160 or R172 it falls under. All of them raise the same exception (10_state.md R90).
The last one is for a byte list that holds no whole word; fetch never gives one. DESIGN CHOICE (log 24): the names. -/
inductive Illegal where
  /-- R160: bits 1:0 are not 11, a compressed instruction, which is absent. -/
  | compressed
  /-- R160: bits 4:2 are 111, a longer encoding, which is absent. -/
  | longEncoding
  /-- R172: no row of R171 matches. -/
  | noRow
  /-- Fewer than the 4 bytes an instruction has. -/
  | truncated
  deriving DecidableEq, Repr

/-- The clause under which a word that matches no row is Illegal (R160, R172). -/
def illegalClass (w : InstrWord) : Illegal :=
  if w.extractLsb' 0 2 ≠ 0b11#2 then .compressed
  else if w.extractLsb' 2 3 = 0b111#3 then .longEncoding
  else .noRow

/-- R82, R176: the instruction of a 32-bit word, or Illegal. -/
def decode (w : InstrWord) : Except Illegal Instr :=
  match opcodeTable.find? (rowMatches w) with
  | some r => .ok (r.build w)
  | none => .error (illegalClass w)

/-- R103, R160: the word that 4 little-endian bytes give, lowest address first. -/
def wordOfBytes (b0 b1 b2 b3 : Byte) : InstrWord := b3 ++ b2 ++ b1 ++ b0

/-- Decoding from bytes as they lie in memory, lowest address first: the instruction and the bytes after it. -/
def decodeBytes : List Byte → Except Illegal (Instr × List Byte)
  | b0 :: b1 :: b2 :: b3 :: rest =>
    match decode (wordOfBytes b0 b1 b2 b3) with
    | .ok i => .ok (i, rest)
    | .error e => .error e
  | _ => .error .truncated

/-- The bytes of a word as memory holds them, lowest address first (R103). -/
def bytesOfWord (w : InstrWord) : List Byte :=
  [w.extractLsb' 0 8, w.extractLsb' 8 8, w.extractLsb' 16 8, w.extractLsb' 24 8]

/-- The instruction the decoder reads from the word whose lowest `nbits` bits are `w` and whose bits above are 0, laid out in
memory's byte order (bit 0 of the table is bit 0 of the first and only word). -/
def decodeTableWord (nbits w : Nat) : Option Instr :=
  match decodeBytes (bytesOfWord (BitVec.ofNat 32 (w % 2 ^ nbits))) with
  | .ok (i, _) => some i
  | .error _ => none

/-! ### The encoder (30_encoding.md R162): the formats, highest bits first -/

/-- R-type: `funct7 rs2 rs1 funct3 rd opcode`; I-shift32 has shamt in the place of rs2. -/
def wordR (funct7 : BitVec 7) (rs2 rs1 : Reg) (funct3 : BitVec 3) (rd : Reg) (opcode : BitVec 7) : InstrWord :=
  funct7 ++ rs2 ++ rs1 ++ funct3 ++ rd ++ opcode

/-- I-type: `imm[11:0] rs1 funct3 rd opcode`; I-csr has the CSR address in the place of imm. -/
def wordI (imm : BitVec 12) (rs1 : Reg) (funct3 : BitVec 3) (rd : Reg) (opcode : BitVec 7) : InstrWord :=
  imm ++ rs1 ++ funct3 ++ rd ++ opcode

/-- I-shift64: `funct6 shamt rs1 funct3 rd opcode`. -/
def wordShift64 (funct6 shamt : BitVec 6) (rs1 : Reg) (funct3 : BitVec 3) (rd : Reg) (opcode : BitVec 7) : InstrWord :=
  funct6 ++ shamt ++ rs1 ++ funct3 ++ rd ++ opcode

/-- S-type: `imm[11:5] rs2 rs1 funct3 imm[4:0] opcode`. -/
def wordS (imm : BitVec 12) (rs2 rs1 : Reg) (funct3 : BitVec 3) (opcode : BitVec 7) : InstrWord :=
  imm.extractLsb' 5 7 ++ rs2 ++ rs1 ++ funct3 ++ imm.extractLsb' 0 5 ++ opcode

/-- B-type: `imm[12] imm[10:5] rs2 rs1 funct3 imm[4:1] imm[11] opcode`. -/
def wordB (imm : BitVec 13) (rs2 rs1 : Reg) (funct3 : BitVec 3) (opcode : BitVec 7) : InstrWord :=
  imm.extractLsb' 12 1 ++ imm.extractLsb' 5 6 ++ rs2 ++ rs1 ++ funct3 ++ imm.extractLsb' 1 4 ++ imm.extractLsb' 11 1 ++ opcode

/-- U-type: `imm[31:12] rd opcode`. -/
def wordU (imm : BitVec 20) (rd : Reg) (opcode : BitVec 7) : InstrWord :=
  imm ++ rd ++ opcode

/-- J-type: `imm[20] imm[10:1] imm[11] imm[19:12] rd opcode`. -/
def wordJ (imm : BitVec 21) (rd : Reg) (opcode : BitVec 7) : InstrWord :=
  imm.extractLsb' 20 1 ++ imm.extractLsb' 1 10 ++ imm.extractLsb' 11 1 ++ imm.extractLsb' 12 8 ++ rd ++ opcode

/-- R-amo: `funct5 aq rl rs2 rs1 funct3 rd opcode`. -/
def wordAmo (funct5 : BitVec 5) (aq rl : Bool) (rs2 rs1 : Reg) (funct3 : BitVec 3) (rd : Reg) (opcode : BitVec 7) : InstrWord :=
  funct5 ++ BitVec.ofBool aq ++ BitVec.ofBool rl ++ rs2 ++ rs1 ++ funct3 ++ rd ++ opcode

/-- FENCE: `fm pred succ rs1 funct3 rd opcode`. -/
def wordFence (fm pred succ : BitVec 4) (rs1 : Reg) (funct3 : BitVec 3) (rd : Reg) (opcode : BitVec 7) : InstrWord :=
  fm ++ pred ++ succ ++ rs1 ++ funct3 ++ rd ++ opcode

/-- The word of an instruction, written from the formats of R162 and the fixed bits of R171. -/
def encode : Instr → InstrWord
  | .lui rd imm => wordU imm rd 0b0110111#7
  | .auipc rd imm => wordU imm rd 0b0010111#7
  | .addi rd rs1 imm => wordI imm rs1 0b000#3 rd 0b0010011#7
  | .slti rd rs1 imm => wordI imm rs1 0b010#3 rd 0b0010011#7
  | .sltiu rd rs1 imm => wordI imm rs1 0b011#3 rd 0b0010011#7
  | .xori rd rs1 imm => wordI imm rs1 0b100#3 rd 0b0010011#7
  | .ori rd rs1 imm => wordI imm rs1 0b110#3 rd 0b0010011#7
  | .andi rd rs1 imm => wordI imm rs1 0b111#3 rd 0b0010011#7
  | .slli rd rs1 shamt => wordShift64 0b000000#6 shamt rs1 0b001#3 rd 0b0010011#7
  | .srli rd rs1 shamt => wordShift64 0b000000#6 shamt rs1 0b101#3 rd 0b0010011#7
  | .srai rd rs1 shamt => wordShift64 0b010000#6 shamt rs1 0b101#3 rd 0b0010011#7
  | .add rd rs1 rs2 => wordR 0b0000000#7 rs2 rs1 0b000#3 rd 0b0110011#7
  | .sub rd rs1 rs2 => wordR 0b0100000#7 rs2 rs1 0b000#3 rd 0b0110011#7
  | .sll rd rs1 rs2 => wordR 0b0000000#7 rs2 rs1 0b001#3 rd 0b0110011#7
  | .slt rd rs1 rs2 => wordR 0b0000000#7 rs2 rs1 0b010#3 rd 0b0110011#7
  | .sltu rd rs1 rs2 => wordR 0b0000000#7 rs2 rs1 0b011#3 rd 0b0110011#7
  | .xor rd rs1 rs2 => wordR 0b0000000#7 rs2 rs1 0b100#3 rd 0b0110011#7
  | .srl rd rs1 rs2 => wordR 0b0000000#7 rs2 rs1 0b101#3 rd 0b0110011#7
  | .sra rd rs1 rs2 => wordR 0b0100000#7 rs2 rs1 0b101#3 rd 0b0110011#7
  | .or rd rs1 rs2 => wordR 0b0000000#7 rs2 rs1 0b110#3 rd 0b0110011#7
  | .and rd rs1 rs2 => wordR 0b0000000#7 rs2 rs1 0b111#3 rd 0b0110011#7
  | .addiw rd rs1 imm => wordI imm rs1 0b000#3 rd 0b0011011#7
  | .slliw rd rs1 shamt => wordR 0b0000000#7 shamt rs1 0b001#3 rd 0b0011011#7
  | .srliw rd rs1 shamt => wordR 0b0000000#7 shamt rs1 0b101#3 rd 0b0011011#7
  | .sraiw rd rs1 shamt => wordR 0b0100000#7 shamt rs1 0b101#3 rd 0b0011011#7
  | .addw rd rs1 rs2 => wordR 0b0000000#7 rs2 rs1 0b000#3 rd 0b0111011#7
  | .subw rd rs1 rs2 => wordR 0b0100000#7 rs2 rs1 0b000#3 rd 0b0111011#7
  | .sllw rd rs1 rs2 => wordR 0b0000000#7 rs2 rs1 0b001#3 rd 0b0111011#7
  | .srlw rd rs1 rs2 => wordR 0b0000000#7 rs2 rs1 0b101#3 rd 0b0111011#7
  | .sraw rd rs1 rs2 => wordR 0b0100000#7 rs2 rs1 0b101#3 rd 0b0111011#7
  | .lb rd rs1 imm => wordI imm rs1 0b000#3 rd 0b0000011#7
  | .lh rd rs1 imm => wordI imm rs1 0b001#3 rd 0b0000011#7
  | .lw rd rs1 imm => wordI imm rs1 0b010#3 rd 0b0000011#7
  | .ld rd rs1 imm => wordI imm rs1 0b011#3 rd 0b0000011#7
  | .lbu rd rs1 imm => wordI imm rs1 0b100#3 rd 0b0000011#7
  | .lhu rd rs1 imm => wordI imm rs1 0b101#3 rd 0b0000011#7
  | .lwu rd rs1 imm => wordI imm rs1 0b110#3 rd 0b0000011#7
  | .sb rs1 rs2 imm => wordS imm rs2 rs1 0b000#3 0b0100011#7
  | .sh rs1 rs2 imm => wordS imm rs2 rs1 0b001#3 0b0100011#7
  | .sw rs1 rs2 imm => wordS imm rs2 rs1 0b010#3 0b0100011#7
  | .sd rs1 rs2 imm => wordS imm rs2 rs1 0b011#3 0b0100011#7
  | .fence fm pred succ rs1 rd => wordFence fm pred succ rs1 0b000#3 rd 0b0001111#7
  | .fenceI imm rs1 rd => wordI imm rs1 0b001#3 rd 0b0001111#7
  | .beq rs1 rs2 imm => wordB imm rs2 rs1 0b000#3 0b1100011#7
  | .bne rs1 rs2 imm => wordB imm rs2 rs1 0b001#3 0b1100011#7
  | .blt rs1 rs2 imm => wordB imm rs2 rs1 0b100#3 0b1100011#7
  | .bge rs1 rs2 imm => wordB imm rs2 rs1 0b101#3 0b1100011#7
  | .bltu rs1 rs2 imm => wordB imm rs2 rs1 0b110#3 0b1100011#7
  | .bgeu rs1 rs2 imm => wordB imm rs2 rs1 0b111#3 0b1100011#7
  | .jal rd imm => wordJ imm rd 0b1101111#7
  | .jalr rd rs1 imm => wordI imm rs1 0b000#3 rd 0b1100111#7
  | .csrrw rd csr rs1 => wordI csr rs1 0b001#3 rd 0b1110011#7
  | .csrrs rd csr rs1 => wordI csr rs1 0b010#3 rd 0b1110011#7
  | .csrrc rd csr rs1 => wordI csr rs1 0b011#3 rd 0b1110011#7
  | .csrrwi rd csr uimm => wordI csr uimm 0b101#3 rd 0b1110011#7
  | .csrrsi rd csr uimm => wordI csr uimm 0b110#3 rd 0b1110011#7
  | .csrrci rd csr uimm => wordI csr uimm 0b111#3 rd 0b1110011#7
  | .mul rd rs1 rs2 => wordR 0b0000001#7 rs2 rs1 0b000#3 rd 0b0110011#7
  | .mulh rd rs1 rs2 => wordR 0b0000001#7 rs2 rs1 0b001#3 rd 0b0110011#7
  | .mulhsu rd rs1 rs2 => wordR 0b0000001#7 rs2 rs1 0b010#3 rd 0b0110011#7
  | .mulhu rd rs1 rs2 => wordR 0b0000001#7 rs2 rs1 0b011#3 rd 0b0110011#7
  | .div rd rs1 rs2 => wordR 0b0000001#7 rs2 rs1 0b100#3 rd 0b0110011#7
  | .divu rd rs1 rs2 => wordR 0b0000001#7 rs2 rs1 0b101#3 rd 0b0110011#7
  | .rem rd rs1 rs2 => wordR 0b0000001#7 rs2 rs1 0b110#3 rd 0b0110011#7
  | .remu rd rs1 rs2 => wordR 0b0000001#7 rs2 rs1 0b111#3 rd 0b0110011#7
  | .mulw rd rs1 rs2 => wordR 0b0000001#7 rs2 rs1 0b000#3 rd 0b0111011#7
  | .divw rd rs1 rs2 => wordR 0b0000001#7 rs2 rs1 0b100#3 rd 0b0111011#7
  | .divuw rd rs1 rs2 => wordR 0b0000001#7 rs2 rs1 0b101#3 rd 0b0111011#7
  | .remw rd rs1 rs2 => wordR 0b0000001#7 rs2 rs1 0b110#3 rd 0b0111011#7
  | .remuw rd rs1 rs2 => wordR 0b0000001#7 rs2 rs1 0b111#3 rd 0b0111011#7
  | .lrW rd rs1 aq rl => wordAmo 0b00010#5 aq rl 0b00000#5 rs1 0b010#3 rd 0b0101111#7
  | .lrD rd rs1 aq rl => wordAmo 0b00010#5 aq rl 0b00000#5 rs1 0b011#3 rd 0b0101111#7
  | .scW rd rs1 rs2 aq rl => wordAmo 0b00011#5 aq rl rs2 rs1 0b010#3 rd 0b0101111#7
  | .scD rd rs1 rs2 aq rl => wordAmo 0b00011#5 aq rl rs2 rs1 0b011#3 rd 0b0101111#7
  | .amoswapW rd rs1 rs2 aq rl => wordAmo 0b00001#5 aq rl rs2 rs1 0b010#3 rd 0b0101111#7
  | .amoaddW rd rs1 rs2 aq rl => wordAmo 0b00000#5 aq rl rs2 rs1 0b010#3 rd 0b0101111#7
  | .amoxorW rd rs1 rs2 aq rl => wordAmo 0b00100#5 aq rl rs2 rs1 0b010#3 rd 0b0101111#7
  | .amoandW rd rs1 rs2 aq rl => wordAmo 0b01100#5 aq rl rs2 rs1 0b010#3 rd 0b0101111#7
  | .amoorW rd rs1 rs2 aq rl => wordAmo 0b01000#5 aq rl rs2 rs1 0b010#3 rd 0b0101111#7
  | .amominW rd rs1 rs2 aq rl => wordAmo 0b10000#5 aq rl rs2 rs1 0b010#3 rd 0b0101111#7
  | .amomaxW rd rs1 rs2 aq rl => wordAmo 0b10100#5 aq rl rs2 rs1 0b010#3 rd 0b0101111#7
  | .amominuW rd rs1 rs2 aq rl => wordAmo 0b11000#5 aq rl rs2 rs1 0b010#3 rd 0b0101111#7
  | .amomaxuW rd rs1 rs2 aq rl => wordAmo 0b11100#5 aq rl rs2 rs1 0b010#3 rd 0b0101111#7
  | .amoswapD rd rs1 rs2 aq rl => wordAmo 0b00001#5 aq rl rs2 rs1 0b011#3 rd 0b0101111#7
  | .amoaddD rd rs1 rs2 aq rl => wordAmo 0b00000#5 aq rl rs2 rs1 0b011#3 rd 0b0101111#7
  | .amoxorD rd rs1 rs2 aq rl => wordAmo 0b00100#5 aq rl rs2 rs1 0b011#3 rd 0b0101111#7
  | .amoandD rd rs1 rs2 aq rl => wordAmo 0b01100#5 aq rl rs2 rs1 0b011#3 rd 0b0101111#7
  | .amoorD rd rs1 rs2 aq rl => wordAmo 0b01000#5 aq rl rs2 rs1 0b011#3 rd 0b0101111#7
  | .amominD rd rs1 rs2 aq rl => wordAmo 0b10000#5 aq rl rs2 rs1 0b011#3 rd 0b0101111#7
  | .amomaxD rd rs1 rs2 aq rl => wordAmo 0b10100#5 aq rl rs2 rs1 0b011#3 rd 0b0101111#7
  | .amominuD rd rs1 rs2 aq rl => wordAmo 0b11000#5 aq rl rs2 rs1 0b011#3 rd 0b0101111#7
  | .amomaxuD rd rs1 rs2 aq rl => wordAmo 0b11100#5 aq rl rs2 rs1 0b011#3 rd 0b0101111#7
  | .ecall => 0x00000073#32
  | .ebreak => 0x00100073#32
  | .sret => 0x10200073#32
  | .mret => 0x30200073#32
  | .wfi => 0x10500073#32
  | .sfenceVma rs1 rs2 => wordR 0b0001001#7 rs2 rs1 0b000#3 0b00000#5 0b1110011#7

end Sys2Proof
end

