-- ==== Sys2Proof/Machine/System.lean ====
section
/-! DEFINITION. The environment, trap-return and system instructions (46_system.md). -/

namespace Sys2Proof.Machine

/-- ECALL, R390: environment call: cause 8, 9 or 11 by the mode, trap value 0. -/
def execEcall (s : State) : Result :=
  raise ⟨match s.priv with | .user => .ecallFromU | .supervisor => .ecallFromS | .machine => .ecallFromM, 0⟩ s

/-- EBREAK, R391: breakpoint: cause 3, trap value pc. -/
def execEbreak (s : State) : Result :=
  raise ⟨.breakpoint, s.pc⟩ s

/-- SRET, R394: return from an S-mode trap; illegal in U (R392). -/
def execSret (s : State) : Result :=
  if s.priv = .user then raiseIllegal (encode .sret) s else xretS s

/-- MRET, R393: return from an M-mode trap; illegal in S and U (R392). -/
def execMret (s : State) : Result :=
  if s.priv = .machine then xretM s else raiseIllegal (encode .mret) s

/-- WFI, R395: `pc <- pc + 4`; illegal in U (R392). It never waits. -/
def execWfi (s : State) : Result :=
  if s.priv = .user then raiseIllegal (encode .wfi) s else .next (retire (s.pc + 4) s)

/-- SFENCE.VMA, R396: `pc <- pc + 4`, there is no TLB; illegal in U (R392). -/
def execSfenceVma (rs1 rs2 : Reg) (s : State) : Result :=
  if s.priv = .user then raiseIllegal (encode (.sfenceVma rs1 rs2)) s else .next (retire (s.pc + 4) s)

end Sys2Proof.Machine
end

