-- ==== Sys2Proof/Machine/Csr.lean ====
section
/-! DEFINITION. The csr_file (10_state.md R86): which CSR addresses exist (R40, R46, R62), their access rules (R41 to R43), their
read values and write rules (R45 to R62), and the sequence common to the six Zicsr instructions (43_zicsr.md R300). -/

namespace Sys2Proof.Machine

/-- The 22 CSRs of R40. -/
inductive Csr where
  | sstatus | sie | stvec | sscratch | sepc | scause | stval | sip | satp
  | mstatus | medeleg | mideleg | mie | mtvec | mscratch | mepc | mcause | mtval | mip
  | cycle | time | instret
  deriving DecidableEq, Repr

/-- R40: address and name. -/
def csrTable : List (CsrAddr × Csr) := [
  (0x100#12, .sstatus), (0x104#12, .sie), (0x105#12, .stvec), (0x140#12, .sscratch), (0x141#12, .sepc), (0x142#12, .scause),
  (0x143#12, .stval), (0x144#12, .sip), (0x180#12, .satp), (0x300#12, .mstatus), (0x302#12, .medeleg), (0x303#12, .mideleg),
  (0x304#12, .mie), (0x305#12, .mtvec), (0x340#12, .mscratch), (0x341#12, .mepc), (0x342#12, .mcause), (0x343#12, .mtval),
  (0x344#12, .mip), (0xC00#12, .cycle), (0xC01#12, .time), (0xC02#12, .instret)]

/-- The CSR of an address, if R40 lists it. -/
def csrAt (a : CsrAddr) : Option Csr := (csrTable.find? fun e => e.1 == a).map Prod.snd

/-- R62: the constant of an address that EXTRA_RO_CSRS adds. -/
def extraCsr (p : Platform) (a : CsrAddr) : Option Word := (p.extraRoCsrs.find? fun e => e.1 == a).map Prod.snd

/-! ### Access rules (R41 to R43, R46) -/

/-- R41: the minimum privilege, `a[9:8]`. -/
def csrMinPriv (a : CsrAddr) : BitVec 2 := a.extractLsb' 8 2

/-- R40, R62: the address is implemented; R46: none with bits 9:8 = 2 is (log 21). -/
def csrImplemented (s : State) (a : CsrAddr) : Bool :=
  (csrAt a).isSome || (csrMinPriv a != 2#2 && (extraCsr s.platform a).isSome)

/-- R41: `a[11:10] = 3` marks a read-only address. -/
def csrReadOnly (a : CsrAddr) : Bool := a.extractLsb' 10 2 == 3#2

/-- R42: a read is legal iff the address is implemented and `priv >= a[9:8]`. -/
def csrReadLegal (s : State) (a : CsrAddr) : Bool :=
  csrImplemented s a && decide ((csrMinPriv a).toNat ≤ s.priv.code.toNat)

/-- R43: a write is legal iff, besides, the address is not read-only. -/
def csrWriteLegal (s : State) (a : CsrAddr) : Bool := csrReadLegal s a && !csrReadOnly a

/-! ### Reads (R45, R47 to R62) -/

/-- The value a read of a listed CSR gives. -/
def csrValue (s : State) : Csr → Word
  | .sstatus => s.csr.mstatus &&& sstatusReadMask
  | .sie => s.csr.mie &&& sieMask
  | .stvec => s.csr.stvec
  | .sscratch => s.csr.sscratch
  | .sepc => s.csr.sepc
  | .scause => s.csr.scause
  | .stval => s.csr.stval
  | .sip => s.csr.mip &&& sieMask
  | .satp => s.csr.satp
  | .mstatus => s.csr.mstatus
  | .medeleg => s.csr.medeleg
  | .mideleg => s.csr.mideleg
  | .mie => s.csr.mie
  | .mtvec => s.csr.mtvec
  | .mscratch => s.csr.mscratch
  | .mepc => s.csr.mepc
  | .mcause => s.csr.mcause
  | .mtval => s.csr.mtval
  | .mip => s.csr.mip
  | .cycle => Config.cycleRead s.draws
  | .time => Config.timeRead s.draws
  | .instret => s.csr.instret

/-- How many draws a read takes: one for cycle and time (R59, R60, R309; log 3). -/
def csrDraws : Csr → Nat
  | .cycle => 1
  | .time => 1
  | _ => 0

/-- The value a read of an address gives; 0 for one that is not implemented, which no legal read reaches. -/
def csrRead (s : State) (a : CsrAddr) : Word :=
  match csrAt a with
  | some c => csrValue s c
  | none => (extraCsr s.platform a).getD 0

/-- The state after the host's part of a read: the draw it used is used up; nothing in the block changes (R42, R309). -/
def afterCsrRead (s : State) (a : CsrAddr) : State :=
  match csrAt a with
  | some c => { s with draws := s.draws + csrDraws c }
  | none => s

/-! ### Writes (R43, R45, R47 to R58) -/

/-- The CSR storage after a legal write of a listed CSR, by that register's write rule. -/
def csrStore (f : CsrFile) (c : Csr) (v : Word) : CsrFile :=
  match c with
  | .sstatus => { f with mstatus := mergeMasked f.mstatus sstatusWriteMask v }
  | .sie => { f with mie := mergeMasked f.mie sieMask v }
  | .stvec => { f with stvec := tvecWrite v }
  | .sscratch => { f with sscratch := v }
  | .sepc => { f with sepc := epcWrite v }
  | .scause => { f with scause := v }
  | .stval => { f with stval := v }
  | .sip => { f with mip := mergeMasked f.mip sipWriteMask v }
  | .satp => { f with satp := satpWrite f.satp v }
  | .mstatus => { f with mstatus := mstatusWrite f.mstatus v }
  | .medeleg => { f with medeleg := v &&& medelegMask }
  | .mideleg => { f with mideleg := v &&& midelegMask }
  | .mie => { f with mie := v &&& mieMask }
  | .mtvec => { f with mtvec := tvecWrite v }
  | .mscratch => { f with mscratch := v }
  | .mepc => { f with mepc := epcWrite v }
  | .mcause => { f with mcause := v }
  | .mtval => { f with mtval := v }
  | .mip => { f with mip := mergeMasked f.mip mipWriteMask v }
  | .cycle => f
  | .time => f
  | .instret => f

/-- The state after a legal write of an address (R43). -/
def csrWrite (s : State) (a : CsrAddr) (v : Word) : State :=
  match csrAt a with
  | some c => { s with csr := csrStore s.csr c v }
  | none => s

/-! ### The common sequence (43_zicsr.md R300) -/

/-- R300: the three kinds of operation; the immediate forms differ only in their source. -/
inductive CsrKind where
  | readWrite
  | readSet
  | readClear
  deriving DecidableEq, Repr

/-- R300, R307: the read is skipped by read-write with rd = 0. -/
def csrDoesRead (k : CsrKind) (rd : Reg) : Bool := !(k == .readWrite && rd == 0)

/-- R300, R307: the write is skipped by set and clear with a zero rs1 or uimm FIELD. -/
def csrDoesWrite (k : CsrKind) (f : BitVec 5) : Bool := k == .readWrite || f != 0

/-- R300: the value written. -/
def csrNew (k : CsrKind) (old src : Word) : Word :=
  match k with
  | .readWrite => src
  | .readSet => old ||| src
  | .readClear => old &&& ~~~src

/-- R300: every check the instruction makes passes. -/
def csrLegal (k : CsrKind) (rd : Reg) (a : CsrAddr) (f : BitVec 5) (s : State) : Bool :=
  (!csrDoesRead k rd || csrReadLegal s a) && (!csrDoesWrite k f || csrWriteLegal s a)

/-- R300: `old`. -/
def csrOld (k : CsrKind) (rd : Reg) (a : CsrAddr) (s : State) : Word :=
  if csrDoesRead k rd then csrRead s a else 0

/-- R300: the commit: the CSR write if there is one, then x[rd] and the pc. -/
def csrCommit (k : CsrKind) (rd : Reg) (a : CsrAddr) (f : BitVec 5) (src : Word) (s : State) : State :=
  let s1 := if csrDoesRead k rd then afterCsrRead s a else s
  let s2 := if csrDoesWrite k f then csrWrite s1 a (csrNew k (csrOld k rd a s) src) else s1
  retire (s.pc + 4) (s2.setReg rd (csrOld k rd a s))

/-- `csrOp(kind, a, src)` (R300), with the instruction's word for the trap value (R44, R308). -/
def csrOp (k : CsrKind) (rd : Reg) (a : CsrAddr) (f : BitVec 5) (src : Word) (w : InstrWord) (s : State) : Result :=
  if csrLegal k rd a f s then .next (csrCommit k rd a f src s) else raiseIllegal w s

end Sys2Proof.Machine
end

