-- ==== Sys2Proof/Machine/Zicsr.lean ====
section
/-! DEFINITION. The Zicsr instructions (43_zicsr.md), over csrOp. The trap value of an illegal access is the instruction's own word (10_state.md R44), which encode gives back (log 25). -/

namespace Sys2Proof.Machine

/-- CSRRW, R301: `csrOp(RW, csr, x[rs1])`. -/
def execCsrrw (rd : Reg) (csr : CsrAddr) (rs1 : Reg) (s : State) : Result :=
  csrOp .readWrite rd csr rs1 (s.reg rs1) (encode (.csrrw rd csr rs1)) s

/-- CSRRS, R302: `csrOp(RS, csr, x[rs1])`. -/
def execCsrrs (rd : Reg) (csr : CsrAddr) (rs1 : Reg) (s : State) : Result :=
  csrOp .readSet rd csr rs1 (s.reg rs1) (encode (.csrrs rd csr rs1)) s

/-- CSRRC, R303: `csrOp(RC, csr, x[rs1])`. -/
def execCsrrc (rd : Reg) (csr : CsrAddr) (rs1 : Reg) (s : State) : Result :=
  csrOp .readClear rd csr rs1 (s.reg rs1) (encode (.csrrc rd csr rs1)) s

/-- CSRRWI, R304: `csrOp(RWI, csr, zext_64(uimm))`. -/
def execCsrrwi (rd : Reg) (csr : CsrAddr) (uimm : BitVec 5) (s : State) : Result :=
  csrOp .readWrite rd csr uimm (immCsr uimm) (encode (.csrrwi rd csr uimm)) s

/-- CSRRSI, R305: `csrOp(RSI, csr, zext_64(uimm))`. -/
def execCsrrsi (rd : Reg) (csr : CsrAddr) (uimm : BitVec 5) (s : State) : Result :=
  csrOp .readSet rd csr uimm (immCsr uimm) (encode (.csrrsi rd csr uimm)) s

/-- CSRRCI, R306: `csrOp(RCI, csr, zext_64(uimm))`. -/
def execCsrrci (rd : Reg) (csr : CsrAddr) (uimm : BitVec 5) (s : State) : Result :=
  csrOp .readClear rd csr uimm (immCsr uimm) (encode (.csrrci rd csr uimm)) s

end Sys2Proof.Machine
end

