-- ==== Sys2Proof/Machine/HartStep.lean ====
section
/-! DEFINITION. The hart step (10_state.md R90) and the placing of one instruction word where the next step fetches; Step.lean
gives the two their fixed names. -/

namespace Sys2Proof.Machine

/-- R90 (2) to (5): fetch, decode, execute and commit; each line that raises takes its trap and ends the step. -/
def fetchDecodeExecute (s : State) : Result :=
  match fetch s with
  | .error e => raise e s
  | .ok w =>
    match decode w with
    | .error _ => raiseIllegal w s
    | .ok i => exec i s

/-- R90: one call of step: an interrupt if one is deliverable, else one instruction. -/
def hartStep (s : State) : Result :=
  match selectInterrupt s with
  | some i => .next (takeTrap (.interrupt i) 0 s.pc s)
  | none => fetchDecodeExecute s

/-- The state with a word stored, little-endian (R81, R103), at the physical address the next fetch reads; the state itself when
that fetch would raise (log 2). -/
def placeWord (s : State) (w : InstrWord) : State :=
  match fetchAddr s with
  | .error _ => s
  | .ok pa => { s with mem := physWrite s.mem pa.toNat 4 (zextWord w) }

end Sys2Proof.Machine
end

