-- ==== Sys2Proof/Machine/Step.lean ====
section
/-! DEFINITION. The step of the machine and the loading of one instruction word, under the fixed names (10_state.md R90; log 2). -/

namespace Sys2Proof.Machine

/-- `step()` (10_state.md R79(b), R90); State.result of the next state is the StepResult it returns (R91; log 7). -/
def step (s : State) : Host.Outcome State Fault Refusal := hartStep s

/-- The state in which the next fetch reads the word whose lowest `nbits` bits are `w` and whose bits above are 0 (log 2). -/
def State.withFetchWord (s : State) (nbits w : Nat) : State := placeWord s (BitVec.ofNat 32 (w % 2 ^ nbits))

end Sys2Proof.Machine
end

