-- ==== Sys2Proof/Machine/Assembly.lean ====
section
/-! DEFINITION. What the assembler writes: the register names (10_state.md R32), the text of an instruction (30_encoding.md R178)
and the pseudo-instructions with their expansions (R179). "The core does not enforce them" (R32): no step depends on this file.
R178 fixes the order of the operands and where commas and parentheses stand; decimal immediates and targets are the model's
(DESIGN CHOICE, log 20), and so is which of the spellings it allows the text has. -/

namespace Sys2Proof.Machine

/-! ### Names (10_state.md R32, R40) -/

/-- R32: the ABI names of x0 to x31. -/
def abiNames : List String :=
  ["zero", "ra", "sp", "gp", "tp", "t0", "t1", "t2", "s0", "s1", "a0", "a1", "a2", "a3", "a4", "a5"] ++
  ["a6", "a7", "s2", "s3", "s4", "s5", "s6", "s7", "s8", "s9", "s10", "s11", "t3", "t4", "t5", "t6"]

/-- R32: the ABI name of a register. -/
def abiName (r : Reg) : String := abiNames.getD r.toNat ""

/-- R32: the second ABI name of a register: x8 is `s0/fp`. -/
def abiAlias (r : Reg) : Option String := if r = 8 then some "fp" else none

/-- R178: a register operand, written `xN` (log 20). -/
def regText (r : Reg) : String := "x" ++ toString r.toNat

/-- R40: the name of a listed CSR. -/
def Csr.name : Csr → String
  | .sstatus => "sstatus" | .sie => "sie" | .stvec => "stvec" | .sscratch => "sscratch" | .sepc => "sepc"
  | .scause => "scause" | .stval => "stval" | .sip => "sip" | .satp => "satp" | .mstatus => "mstatus"
  | .medeleg => "medeleg" | .mideleg => "mideleg" | .mie => "mie" | .mtvec => "mtvec" | .mscratch => "mscratch"
  | .mepc => "mepc" | .mcause => "mcause" | .mtval => "mtval" | .mip => "mip" | .cycle => "cycle" | .time => "time"
  | .instret => "instret"

/-- R178: a CSR operand, "by name or number": the name where R40 gives one (log 20). -/
def csrText (a : CsrAddr) : String :=
  match csrAt a with
  | some c => c.name
  | none => toString a.toNat

/-! ### Operand orders (R178) -/

/-- R: `op rd, rs1, rs2`. -/
def asmR (op : String) (rd rs1 rs2 : Reg) : String :=
  op ++ " " ++ regText rd ++ ", " ++ regText rs1 ++ ", " ++ regText rs2
/-- I arithmetic and shifts: `op rd, rs1, imm`. -/
def asmI (op : String) (rd rs1 : Reg) (imm : Int) : String :=
  op ++ " " ++ regText rd ++ ", " ++ regText rs1 ++ ", " ++ toString imm
/-- Loads and JALR: `op rd, imm(rs1)`; stores: `op rs2, imm(rs1)`. -/
def asmLoad (op : String) (r rs1 : Reg) (imm : BitVec 12) : String :=
  op ++ " " ++ regText r ++ ", " ++ toString imm.toInt ++ "(" ++ regText rs1 ++ ")"
/-- Branches: `op rs1, rs2, target`. -/
def asmBranch (op : String) (rs1 rs2 : Reg) (target : Word) : String :=
  op ++ " " ++ regText rs1 ++ ", " ++ regText rs2 ++ ", " ++ toString target.toNat
/-- LUI and AUIPC: `op rd, imm20`. -/
def asmU (op : String) (rd : Reg) (imm : BitVec 20) : String :=
  op ++ " " ++ regText rd ++ ", " ++ toString imm.toNat
/-- JAL: `jal rd, target`. -/
def asmJump (op : String) (rd : Reg) (target : Word) : String :=
  op ++ " " ++ regText rd ++ ", " ++ toString target.toNat
/-- CSR: `csrrw rd, csr, rs1`, `csrrwi rd, csr, uimm`. -/
def asmCsr (op : String) (rd : Reg) (a : CsrAddr) (src : String) : String :=
  op ++ " " ++ regText rd ++ ", " ++ csrText a ++ ", " ++ src
/-- LR: `lr.w rd, (rs1)`. -/
def asmLr (op : String) (rd rs1 : Reg) : String :=
  op ++ " " ++ regText rd ++ ", (" ++ regText rs1 ++ ")"
/-- SC and AMO: `sc.w rd, rs2, (rs1)`. -/
def asmAmo (op : String) (rd rs2 rs1 : Reg) : String :=
  op ++ " " ++ regText rd ++ ", " ++ regText rs2 ++ ", (" ++ regText rs1 ++ ")"
/-- The optional `.aq`, `.rl`, `.aqrl` suffix. -/
def orderText (aq rl : Bool) : String :=
  if aq || rl then "." ++ (if aq then "aq" else "") ++ (if rl then "rl" else "") else ""
/-- FENCE: pred and succ "spelled from `i o r w`", bit 3 first. -/
def fenceSet (v : BitVec 4) : String :=
  (if v.getLsbD 3 then "i" else "") ++ (if v.getLsbD 2 then "o" else "") ++ (if v.getLsbD 1 then "r" else "")
    ++ (if v.getLsbD 0 then "w" else "")

/-- R178: the text of an instruction that lies at `pc`. -/
def asm (pc : Word) : Instr → String
  | .lui rd imm => asmU "lui" rd imm
  | .auipc rd imm => asmU "auipc" rd imm
  | .addi rd rs1 imm => asmI "addi" rd rs1 imm.toInt
  | .slti rd rs1 imm => asmI "slti" rd rs1 imm.toInt
  | .sltiu rd rs1 imm => asmI "sltiu" rd rs1 imm.toInt
  | .xori rd rs1 imm => asmI "xori" rd rs1 imm.toInt
  | .ori rd rs1 imm => asmI "ori" rd rs1 imm.toInt
  | .andi rd rs1 imm => asmI "andi" rd rs1 imm.toInt
  | .slli rd rs1 shamt => asmI "slli" rd rs1 shamt.toNat
  | .srli rd rs1 shamt => asmI "srli" rd rs1 shamt.toNat
  | .srai rd rs1 shamt => asmI "srai" rd rs1 shamt.toNat
  | .add rd rs1 rs2 => asmR "add" rd rs1 rs2
  | .sub rd rs1 rs2 => asmR "sub" rd rs1 rs2
  | .sll rd rs1 rs2 => asmR "sll" rd rs1 rs2
  | .slt rd rs1 rs2 => asmR "slt" rd rs1 rs2
  | .sltu rd rs1 rs2 => asmR "sltu" rd rs1 rs2
  | .xor rd rs1 rs2 => asmR "xor" rd rs1 rs2
  | .srl rd rs1 rs2 => asmR "srl" rd rs1 rs2
  | .sra rd rs1 rs2 => asmR "sra" rd rs1 rs2
  | .or rd rs1 rs2 => asmR "or" rd rs1 rs2
  | .and rd rs1 rs2 => asmR "and" rd rs1 rs2
  | .addiw rd rs1 imm => asmI "addiw" rd rs1 imm.toInt
  | .slliw rd rs1 shamt => asmI "slliw" rd rs1 shamt.toNat
  | .srliw rd rs1 shamt => asmI "srliw" rd rs1 shamt.toNat
  | .sraiw rd rs1 shamt => asmI "sraiw" rd rs1 shamt.toNat
  | .addw rd rs1 rs2 => asmR "addw" rd rs1 rs2
  | .subw rd rs1 rs2 => asmR "subw" rd rs1 rs2
  | .sllw rd rs1 rs2 => asmR "sllw" rd rs1 rs2
  | .srlw rd rs1 rs2 => asmR "srlw" rd rs1 rs2
  | .sraw rd rs1 rs2 => asmR "sraw" rd rs1 rs2
  | .lb rd rs1 imm => asmLoad "lb" rd rs1 imm
  | .lh rd rs1 imm => asmLoad "lh" rd rs1 imm
  | .lw rd rs1 imm => asmLoad "lw" rd rs1 imm
  | .ld rd rs1 imm => asmLoad "ld" rd rs1 imm
  | .lbu rd rs1 imm => asmLoad "lbu" rd rs1 imm
  | .lhu rd rs1 imm => asmLoad "lhu" rd rs1 imm
  | .lwu rd rs1 imm => asmLoad "lwu" rd rs1 imm
  | .sb rs1 rs2 imm => asmLoad "sb" rs2 rs1 imm
  | .sh rs1 rs2 imm => asmLoad "sh" rs2 rs1 imm
  | .sw rs1 rs2 imm => asmLoad "sw" rs2 rs1 imm
  | .sd rs1 rs2 imm => asmLoad "sd" rs2 rs1 imm
  | .fence _ pred succ _ _ => "fence " ++ fenceSet pred ++ ", " ++ fenceSet succ
  | .fenceI _ _ _ => "fence.i"
  | .beq rs1 rs2 imm => asmBranch "beq" rs1 rs2 (pc + immB imm)
  | .bne rs1 rs2 imm => asmBranch "bne" rs1 rs2 (pc + immB imm)
  | .blt rs1 rs2 imm => asmBranch "blt" rs1 rs2 (pc + immB imm)
  | .bge rs1 rs2 imm => asmBranch "bge" rs1 rs2 (pc + immB imm)
  | .bltu rs1 rs2 imm => asmBranch "bltu" rs1 rs2 (pc + immB imm)
  | .bgeu rs1 rs2 imm => asmBranch "bgeu" rs1 rs2 (pc + immB imm)
  | .jal rd imm => asmJump "jal" rd (pc + immJ imm)
  | .jalr rd rs1 imm => asmLoad "jalr" rd rs1 imm
  | .csrrw rd csr rs1 => asmCsr "csrrw" rd csr (regText rs1)
  | .csrrs rd csr rs1 => asmCsr "csrrs" rd csr (regText rs1)
  | .csrrc rd csr rs1 => asmCsr "csrrc" rd csr (regText rs1)
  | .csrrwi rd csr uimm => asmCsr "csrrwi" rd csr (toString uimm.toNat)
  | .csrrsi rd csr uimm => asmCsr "csrrsi" rd csr (toString uimm.toNat)
  | .csrrci rd csr uimm => asmCsr "csrrci" rd csr (toString uimm.toNat)
  | .mul rd rs1 rs2 => asmR "mul" rd rs1 rs2
  | .mulh rd rs1 rs2 => asmR "mulh" rd rs1 rs2
  | .mulhsu rd rs1 rs2 => asmR "mulhsu" rd rs1 rs2
  | .mulhu rd rs1 rs2 => asmR "mulhu" rd rs1 rs2
  | .div rd rs1 rs2 => asmR "div" rd rs1 rs2
  | .divu rd rs1 rs2 => asmR "divu" rd rs1 rs2
  | .rem rd rs1 rs2 => asmR "rem" rd rs1 rs2
  | .remu rd rs1 rs2 => asmR "remu" rd rs1 rs2
  | .mulw rd rs1 rs2 => asmR "mulw" rd rs1 rs2
  | .divw rd rs1 rs2 => asmR "divw" rd rs1 rs2
  | .divuw rd rs1 rs2 => asmR "divuw" rd rs1 rs2
  | .remw rd rs1 rs2 => asmR "remw" rd rs1 rs2
  | .remuw rd rs1 rs2 => asmR "remuw" rd rs1 rs2
  | .lrW rd rs1 aq rl => asmLr ("lr.w" ++ orderText aq rl) rd rs1
  | .lrD rd rs1 aq rl => asmLr ("lr.d" ++ orderText aq rl) rd rs1
  | .scW rd rs1 rs2 aq rl => asmAmo ("sc.w" ++ orderText aq rl) rd rs2 rs1
  | .scD rd rs1 rs2 aq rl => asmAmo ("sc.d" ++ orderText aq rl) rd rs2 rs1
  | .amoswapW rd rs1 rs2 aq rl => asmAmo ("amoswap.w" ++ orderText aq rl) rd rs2 rs1
  | .amoaddW rd rs1 rs2 aq rl => asmAmo ("amoadd.w" ++ orderText aq rl) rd rs2 rs1
  | .amoxorW rd rs1 rs2 aq rl => asmAmo ("amoxor.w" ++ orderText aq rl) rd rs2 rs1
  | .amoandW rd rs1 rs2 aq rl => asmAmo ("amoand.w" ++ orderText aq rl) rd rs2 rs1
  | .amoorW rd rs1 rs2 aq rl => asmAmo ("amoor.w" ++ orderText aq rl) rd rs2 rs1
  | .amominW rd rs1 rs2 aq rl => asmAmo ("amomin.w" ++ orderText aq rl) rd rs2 rs1
  | .amomaxW rd rs1 rs2 aq rl => asmAmo ("amomax.w" ++ orderText aq rl) rd rs2 rs1
  | .amominuW rd rs1 rs2 aq rl => asmAmo ("amominu.w" ++ orderText aq rl) rd rs2 rs1
  | .amomaxuW rd rs1 rs2 aq rl => asmAmo ("amomaxu.w" ++ orderText aq rl) rd rs2 rs1
  | .amoswapD rd rs1 rs2 aq rl => asmAmo ("amoswap.d" ++ orderText aq rl) rd rs2 rs1
  | .amoaddD rd rs1 rs2 aq rl => asmAmo ("amoadd.d" ++ orderText aq rl) rd rs2 rs1
  | .amoxorD rd rs1 rs2 aq rl => asmAmo ("amoxor.d" ++ orderText aq rl) rd rs2 rs1
  | .amoandD rd rs1 rs2 aq rl => asmAmo ("amoand.d" ++ orderText aq rl) rd rs2 rs1
  | .amoorD rd rs1 rs2 aq rl => asmAmo ("amoor.d" ++ orderText aq rl) rd rs2 rs1
  | .amominD rd rs1 rs2 aq rl => asmAmo ("amomin.d" ++ orderText aq rl) rd rs2 rs1
  | .amomaxD rd rs1 rs2 aq rl => asmAmo ("amomax.d" ++ orderText aq rl) rd rs2 rs1
  | .amominuD rd rs1 rs2 aq rl => asmAmo ("amominu.d" ++ orderText aq rl) rd rs2 rs1
  | .amomaxuD rd rs1 rs2 aq rl => asmAmo ("amomaxu.d" ++ orderText aq rl) rd rs2 rs1
  | .ecall => "ecall"
  | .ebreak => "ebreak"
  | .sret => "sret"
  | .mret => "mret"
  | .wfi => "wfi"
  | .sfenceVma rs1 rs2 => "sfence.vma " ++ regText rs1 ++ ", " ++ regText rs2

/-! ### Pseudo-instructions (R179) -/

/-- R179: `hi(v) = (v + 0x800) >> 12`, as the 20 bits of a U-immediate. -/
def hi20 (v : BitVec 32) : BitVec 20 := (v + 0x800#32).extractLsb' 12 20
/-- R179: `lo(v) = v - (hi(v) << 12)`, as the 12 bits of an I-immediate. -/
def lo12 (v : BitVec 32) : BitVec 12 := v.extractLsb' 0 12

/-- R179: the pseudo-instructions; a branch or jump target is given as its offset from the instruction, a symbol as the 32-bit
offset from the first instruction of its expansion. -/
inductive Pseudo where
  | nop
  | li (rd : Reg) (imm : BitVec 12)
  | liWide (rd : Reg) (imm : BitVec 32)
  | mv (rd rs : Reg)
  | not (rd rs : Reg)
  | neg (rd rs : Reg)
  | negw (rd rs : Reg)
  | sextW (rd rs : Reg)
  | seqz (rd rs : Reg)
  | snez (rd rs : Reg)
  | sltz (rd rs : Reg)
  | sgtz (rd rs : Reg)
  | beqz (rs : Reg) (t : BitVec 13)
  | bnez (rs : Reg) (t : BitVec 13)
  | blez (rs : Reg) (t : BitVec 13)
  | bgez (rs : Reg) (t : BitVec 13)
  | bltz (rs : Reg) (t : BitVec 13)
  | bgtz (rs : Reg) (t : BitVec 13)
  | bgt (a b : Reg) (t : BitVec 13)
  | ble (a b : Reg) (t : BitVec 13)
  | bgtu (a b : Reg) (t : BitVec 13)
  | bleu (a b : Reg) (t : BitVec 13)
  | j (t : BitVec 21)
  | jal (t : BitVec 21)
  | jr (rs : Reg)
  | jalr (rs : Reg)
  | ret
  | call (offset : BitVec 32)
  | tail (offset : BitVec 32)
  | la (rd : Reg) (offset : BitVec 32)
  | fence
  | csrr (rd : Reg) (csr : CsrAddr)
  | csrw (csr : CsrAddr) (rs : Reg)
  | csrs (csr : CsrAddr) (rs : Reg)
  | csrc (csr : CsrAddr) (rs : Reg)
  | csrwi (csr : CsrAddr) (u : BitVec 5)
  | csrsi (csr : CsrAddr) (u : BitVec 5)
  | csrci (csr : CsrAddr) (u : BitVec 5)
  | rdcycle (rd : Reg)
  | rdtime (rd : Reg)
  | rdinstret (rd : Reg)
  | sfenceVma
  deriving DecidableEq, Repr

/-- R179: the instructions a pseudo-instruction stands for. -/
def Pseudo.expand : Pseudo → List Instr
  | .nop => [.addi 0 0 0]
  | .li rd imm => [.addi rd 0 imm]
  | .liWide rd imm => [.lui rd (hi20 imm), .addiw rd rd (lo12 imm)]
  | .mv rd rs => [.addi rd rs 0]
  | .not rd rs => [.xori rd rs 0xFFF#12]
  | .neg rd rs => [.sub rd 0 rs]
  | .negw rd rs => [.subw rd 0 rs]
  | .sextW rd rs => [.addiw rd rs 0]
  | .seqz rd rs => [.sltiu rd rs 1]
  | .snez rd rs => [.sltu rd 0 rs]
  | .sltz rd rs => [.slt rd rs 0]
  | .sgtz rd rs => [.slt rd 0 rs]
  | .beqz rs t => [.beq rs 0 t]
  | .bnez rs t => [.bne rs 0 t]
  | .blez rs t => [.bge 0 rs t]
  | .bgez rs t => [.bge rs 0 t]
  | .bltz rs t => [.blt rs 0 t]
  | .bgtz rs t => [.blt 0 rs t]
  | .bgt a b t => [.blt b a t]
  | .ble a b t => [.bge b a t]
  | .bgtu a b t => [.bltu b a t]
  | .bleu a b t => [.bgeu b a t]
  | .j t => [.jal 0 t]
  | .jal t => [.jal 1 t]
  | .jr rs => [.jalr 0 rs 0]
  | .jalr rs => [.jalr 1 rs 0]
  | .ret => [.jalr 0 1 0]
  | .call offset => [.auipc 1 (hi20 offset), .jalr 1 1 (lo12 offset)]
  | .tail offset => [.auipc 6 (hi20 offset), .jalr 0 6 (lo12 offset)]
  | .la rd offset => [.auipc rd (hi20 offset), .addi rd rd (lo12 offset)]
  | .fence => [.fence 0 0xF 0xF 0 0]
  | .csrr rd csr => [.csrrs rd csr 0]
  | .csrw csr rs => [.csrrw 0 csr rs]
  | .csrs csr rs => [.csrrs 0 csr rs]
  | .csrc csr rs => [.csrrc 0 csr rs]
  | .csrwi csr u => [.csrrwi 0 csr u]
  | .csrsi csr u => [.csrrsi 0 csr u]
  | .csrci csr u => [.csrrci 0 csr u]
  | .rdcycle rd => [.csrrs rd 0xC00#12 0]
  | .rdtime rd => [.csrrs rd 0xC01#12 0]
  | .rdinstret rd => [.csrrs rd 0xC02#12 0]
  | .sfenceVma => [.sfenceVma 0 0]

end Sys2Proof.Machine
end

