-- ==== Sys2Proof/Machine/HostInterface.lean ====
section
/-! DEFINITION. The host interface beside step (10_state.md R79): reset with its setup checks (70_reset_and_hazards.md R480 to R483),
introspection, and posting an interrupt between two steps. -/

namespace Sys2Proof.Machine

/-! ### reset (R79(a)) -/

/-- Why a setup is refused before any step (R483). -/
inductive SetupError where
  /-- The parameters break a constraint of 92_eei_decisions.md D10, 20_memory.md R102 or 10_state.md R62, or one of the model's own:
  a window that is empty or leaves the 64-bit space (log 19, log 26). -/
  | badPlatform
  /-- "image exceeds memory bounds": the payload does not lie wholly inside RAM. -/
  | payloadOutsideRam
  /-- "invalid entry address": not 4-byte aligned, or its 4 bytes are not all in RAM. -/
  | invalidEntry
  deriving DecidableEq, Repr

/-- `reset(entry_pc)` after the loader has copied `payload` to physical address `base` (R79(a), R480, R481), refused as R483 says;
an empty payload counts as inside RAM when its base is in RAM or at its end (DESIGN CHOICE, log 19). -/
def hostReset (p : Platform) (entryPc : Word) (base : Nat) (payload : List Byte) : Except SetupError State :=
  if !p.wf then .error .badPlatform
  else if !inRam p base payload.length then .error .payloadOutsideRam
  else if entryPc.extractLsb' 0 2 ≠ 0#2 ∨ inRam p entryPc.toNat 4 = false then .error .invalidEntry
  else .ok (State.resetOn p entryPc (Memory.writeBytes [] base payload))

/-! ### Introspection (R79(c)): no privilege check, no change of the architectural state -/

/-- `readReg(i)`. -/
def hostReadReg (s : State) (r : Reg) : Word := s.reg r

/-- `readPc()`. -/
def hostReadPc (s : State) : Word := s.pc

/-- `readPriv()`, in the encoding of R36. -/
def hostReadPriv (s : State) : BitVec 2 := s.priv.code

/-- `readCsr(a)`: the value of an implemented address, and the state after it: as before, but for the draw a read of cycle or time
uses up (log 17). DESIGN CHOICE (log 27): none for an address that is not implemented, of which R79(c) says nothing. -/
def hostReadCsr (s : State) (a : CsrAddr) : Option (Word × State) :=
  if csrImplemented s a then some (csrRead s a, afterCsrRead s a) else none

/-! ### postInterrupt (R79(d)) -/

/-- The pending bits the host may set or clear: "MSIP, MTIP, MEIP or SEIP" (R79(d)). -/
inductive HostIrq where
  | msip
  | mtip
  | meip
  | seip
  deriving DecidableEq, Repr

/-- The bit of mip (R49). -/
def HostIrq.bit : HostIrq → Nat
  | .msip => 3
  | .mtip => 7
  | .meip => 11
  | .seip => 9

/-- `postInterrupt(bit, level)`: between two steps (R79(d); log 8). -/
def hostPostInterrupt (i : HostIrq) (level : Bool) (s : State) : State :=
  { s with csr := { s.csr with mip := setBit s.csr.mip i.bit level } }

end Sys2Proof.Machine
end

