-- ==== Sys2Proof/Safety.lean ====
section
/-! DEFINITION. What a run must keep, and the terms the statements use: the invariants of the state (10_state.md R34, R47 to R54,
R58; 20_memory.md R101; 45_atomics.md R360), the states a run reaches, and what it means that an instruction completed with one
register result, or trapped. -/

namespace Sys2Proof.Machine

/-! ### Invariants of the state -/

/-- R34: "PC is always aligned". -/
def pcAligned (s : State) : Bool := s.pc.extractLsb' 0 2 == 0#2

/-- R54: bits 1:0 of mepc and sepc read 0. -/
def epcAligned (s : State) : Bool := s.csr.mepc.extractLsb' 0 2 == 0#2 && s.csr.sepc.extractLsb' 0 2 == 0#2

/-- R53: bit 1 of mtvec and stvec is hard-wired 0. -/
def tvecLegal (s : State) : Bool := !getBit s.csr.mtvec 1 && !getBit s.csr.stvec 1

/-- R47: MPP is 0, 1 or 3. -/
def mppLegal (s : State) : Bool := getMpp s.csr.mstatus != 2#2

/-- R47: every bit of mstatus that no field holds reads 0, and UXL = SXL = 2. -/
def mstatusFixed (s : State) : Bool := s.csr.mstatus &&& ~~~mstatusMask == mstatusOnes

/-- R49, R51, R52: mie, mip, medeleg and mideleg hold 1 only in the bits the spec gives them. -/
def interruptBitsLegal (s : State) : Bool :=
  s.csr.mie &&& ~~~mieMask == 0 && s.csr.mip &&& ~~~mieMask == 0 && s.csr.medeleg &&& ~~~medelegMask == 0
    && s.csr.mideleg &&& ~~~midelegMask == 0

/-- R58: satp.MODE is 0 or 8. -/
def satpLegal (s : State) : Bool := satpMode s.csr.satp == 0#4 || satpMode s.csr.satp == 8#4

/-- R101: every listed byte of memory lies in RAM. -/
def memoryInRam (s : State) : Bool := s.mem.all fun c => inRam s.platform c.1 1

/-- R360 (b), (d): a reservation is on a 4-byte aligned address whose 4 bytes are in RAM. -/
def reservationLegal (s : State) : Bool :=
  match s.resv with
  | none => true
  | some a => a.toNat % 4 == 0 && inRam s.platform a.toNat 4

/-- The invariant of every run: each of the above, the canonical form of memory, and well-formed parameters (Platform.wf). -/
def State.inv (s : State) : Bool :=
  s.platform.wf && Memory.wf s.mem && memoryInRam s && pcAligned s && epcAligned s && tvecLegal s && mppLegal s
    && mstatusFixed s && interruptBitsLegal s && satpLegal s && reservationLegal s

/-! ### Runs -/

/-- The states the host can bring the hart to (10_state.md R79): a successful reset, a step, an interrupt bit posted. -/
inductive Reachable : State → Prop where
  | reset (p : Platform) (entryPc : Word) (base : Nat) (payload : List Byte) (s : State) :
      hostReset p entryPc base payload = .ok s → Reachable s
  | step (s t : State) : Reachable s → Machine.step s = .next t → Reachable t
  | post (s : State) (i : HostIrq) (level : Bool) : Reachable s → Reachable (hostPostInterrupt i level s)

/-! ### Terms of the statements -/

/-- x[rd] holds `v` (x0 holds 0, R31) and every other general register is as before. -/
def WritesReg (s t : State) (rd : Reg) (v : Word) : Prop :=
  t.reg rd = (if rd = 0 then 0 else v) ∧ ∀ r, r ≠ rd → t.reg r = s.reg r

/-- Every general register is as before. -/
def KeepsRegs (s t : State) : Prop := ∀ r, t.reg r = s.reg r

/-- Every byte of memory, at every address, reads as before. -/
def KeepsMem (s t : State) : Prop := ∀ a, Memory.read t.mem a = Memory.read s.mem a

/-- The parameters, the draws and the device events are as before: the instruction met neither the host nor a device. -/
def NoHost (s t : State) : Prop := t.platform = s.platform ∧ t.draws = s.draws ∧ t.events = s.events

/-- An instruction retired at `npc` (10_state.md R91; R61): of the CSRs only instret changed, and the mode is as before. -/
def Retired (s t : State) (npc : Word) : Prop :=
  t.pc = npc ∧ t.result = some .ok ∧ t.priv = s.priv ∧ t.csr = { s.csr with instret := s.csr.instret + 1 }

/-- The instruction completed, and all it did besides retiring at `npc` is to write `v` to x[rd]. -/
def CompletesReg (o : Result) (s : State) (rd : Reg) (v npc : Word) : Prop :=
  ∃ t, o = .next t ∧ Retired s t npc ∧ WritesReg s t rd v ∧ KeepsMem s t ∧ t.resv = s.resv ∧ NoHost s t

/-- The instruction completed, and all it did is to retire at `npc`. -/
def CompletesOnlyPc (o : Result) (s : State) (npc : Word) : Prop :=
  ∃ t, o = .next t ∧ Retired s t npc ∧ KeepsRegs s t ∧ KeepsMem s t ∧ t.resv = s.resv ∧ NoHost s t

/-- The instruction wrote nothing: the exception was taken, with the instruction's own pc as epc (60_exceptions.md R440, R444). -/
def Traps (o : Result) (s : State) (c : ExcCause) (tval : Word) : Prop :=
  o = .next (takeTrap (.exception c) tval s.pc s)

/-- The `n` bytes of an access of kind `K` at virtual address `va` translate to the physical addresses `pa 0, pa 1, …`. -/
def BytesAt (s : State) (K : Access) (va : Word) (n : Nat) (pa : Nat → Word) : Prop :=
  ∀ k, k < n → translate s K (va + BitVec.ofNat 64 k) = .ok (pa k)

/-- The first `n` of the physical addresses lie in RAM (20_memory.md R101). -/
def AllInRam (s : State) (n : Nat) (pa : Nat → Word) : Prop :=
  ∀ k, k < n → s.platform.ramBase ≤ (pa k).toNat ∧ (pa k).toNat < s.platform.ramBase + s.platform.ramSize

/-- The first `n` of the physical addresses lie in one device window (20_memory.md R102, R110), which does not meet RAM. -/
def AllInWindow (s : State) (w : Window) (n : Nat) (pa : Nat → Word) : Prop :=
  s.platform.wf = true ∧ w ∈ s.platform.windows ∧
    ∀ k, k < n → w.base ≤ (pa k).toNat ∧ (pa k).toNat < w.base + w.size

/-- R103: bit `j` of the value of the `n` bytes of RAM at the given addresses, the bits above filled with `fill`. -/
def leBit (s : State) (n : Nat) (pa : Nat → Word) (fill : Bool) (j : Nat) : Bool :=
  if j < 8 * n then (Memory.read s.mem (pa (j / 8)).toNat).getLsbD (j % 8) else fill

/-- The value a load of `n` bytes of RAM gives, sign-extended or zero-extended to 64 bits (41_loads_stores.md R251 to R257). -/
def IsLoaded (s : State) (n : Nat) (signed : Bool) (pa : Nat → Word) (v : Word) : Prop :=
  ∀ j, j < 64 → v.getLsbD j =
    leBit s n pa (signed && (Memory.read s.mem (pa (n - 1)).toNat).getLsbD 7) j

/-- The bytes at the physical addresses `pa 0, pa 1, …` are the low `n` bytes of `v` (20_memory.md R103, R111), and every other
address reads as before. -/
def StoresBytes (s t : State) (n : Nat) (pa : Nat → Word) (v : Word) : Prop :=
  (∀ k, k < n → Memory.read t.mem (pa k).toNat = v.extractLsb' (8 * k) 8) ∧
    ∀ a, (∀ k, k < n → a ≠ (pa k).toNat) → Memory.read t.mem a = Memory.read s.mem a

/-- The address has the reserved 8-byte granule (45_atomics.md R360 (e)). -/
def InReservedGranule (s : State) (p : Word) : Prop := ∃ a, s.resv = some a ∧ a.toNat / 8 = p.toNat / 8

/-- R360 (e) 1: the reservation is lost iff one of the `n` bytes written has its granule. -/
def ResvAfterStore (s t : State) (n : Nat) (pa : Nat → Word) : Prop :=
  ((∃ k, k < n ∧ InReservedGranule s (pa k)) → t.resv = none) ∧
    ((∀ k, k < n → ¬ InReservedGranule s (pa k)) → t.resv = s.resv)

/-- The first byte of an access that fails, the `k`-th, and the exception it raises (20_memory.md R110, R111): the bytes before it
translate to addresses of one region, and it does not translate, or it is outside that region (for `k = 0`: in no region). -/
def FailsAtByte (s : State) (K : Access) (va : Word) (k : Nat) (e : Exc) : Prop :=
  ∃ (pa : Nat → Word) (r : Region), BytesAt s K va k pa ∧
    (0 < k → regionOf s.platform (pa 0).toNat = some r) ∧ (∀ j, j < k → inRegion s.platform r (pa j).toNat = true) ∧
    (translate s K (va + BitVec.ofNat 64 k) = .error e ∨
      ∃ p, translate s K (va + BitVec.ofNat 64 k) = .ok p ∧ e = accessFault K (va + BitVec.ofNat 64 k) ∧
        (if k = 0 then regionOf s.platform p.toNat = none else inRegion s.platform r p.toNat = false))

/-- The conditions of an atomic access (45_atomics.md R360 (a) to (d)): `va` is aligned, translates to `pa`, and its `n` bytes are in
RAM, where they hold the low `n` bytes of `old`. -/
def AtomicAt (s : State) (K : Access) (va : Word) (n : Nat) (pa old : Word) : Prop :=
  va.toNat % n = 0 ∧ translate s K va = .ok pa ∧
    s.platform.ramBase ≤ pa.toNat ∧ pa.toNat + n ≤ s.platform.ramBase + s.platform.ramSize ∧
    ∀ k, k < n → Memory.read s.mem (pa.toNat + k) = old.extractLsb' (8 * k) 8

/-- An AMO or a successful SC completed: `v` in x[rd], the low `n` bytes of `new` at `pa`, the reservation as R360 (e) says. -/
def CompletesAtomic (o : Result) (s : State) (rd : Reg) (v pa : Word) (n : Nat) (new : Word) : Prop :=
  ∃ t, o = .next t ∧ Retired s t (s.pc + 4) ∧ WritesReg s t rd v ∧
    StoresBytes s t n (fun k => pa + BitVec.ofNat 64 k) new ∧ NoHost s t ∧
    (InReservedGranule s pa → t.resv = none) ∧ (¬ InReservedGranule s pa → t.resv = s.resv)

/-! ### Sv39 as a relation (20_memory.md R122, R123, R125) -/

/-- R122, R103: the 8 bytes of RAM at a physical address hold this entry. -/
def PteAt (s : State) (a : Nat) (pte : Word) : Prop :=
  s.platform.ramBase ≤ a ∧ a + 8 ≤ s.platform.ramBase + s.platform.ramSize ∧
    ∀ k, k < 8 → Memory.read s.mem (a + k) = pte.extractLsb' (8 * k) 8

/-- R123: V = 1, not (R = 0 and W = 1), bits 63:54 = 0. -/
def PteOk (pte : Word) : Prop :=
  pte.getLsbD 0 = true ∧ ¬ (pte.getLsbD 1 = false ∧ pte.getLsbD 2 = true) ∧ pte.toNat < 2 ^ 54

/-- R122: R = 1 or X = 1. -/
def PteLeaf (pte : Word) : Prop := pte.getLsbD 1 = true ∨ pte.getLsbD 3 = true

/-- R123: the address of the level-`i` entry for `va` in the table at `a`: `a + VPN[i] * 8`, with R121's `VPN[i]`. -/
def pteAddress (va : Word) (i a : Nat) : Nat := a + va.toNat / 2 ^ (12 + 9 * i) % 512 * 8

/-- R123: the walk for `va` comes to level `i` with the table at physical address `a`. -/
inductive WalkReaches (s : State) (va : Word) : (i a : Nat) → Prop where
  | root : WalkReaches s va 2 (s.csr.satp.toNat % 2 ^ 44 * 4096)
  | down (i a : Nat) (pte : Word) : WalkReaches s va (i + 1) a → PteAt s (pteAddress va (i + 1) a) pte → PteOk pte →
      ¬ PteLeaf pte → WalkReaches s va i (pte.toNat / 2 ^ 10 % 2 ^ 44 * 4096)

/-- R125: the access of this kind is allowed through this leaf in the current mode. -/
def MayAccess (s : State) (K : Access) (pte : Word) : Prop :=
  (K = .fetch → pte.getLsbD 3 = true) ∧
  (K = .load → pte.getLsbD 1 = true ∨ (s.csr.mstatus.getLsbD 19 = true ∧ pte.getLsbD 3 = true)) ∧
  (K = .store → pte.getLsbD 2 = true) ∧
  (s.priv = .user → pte.getLsbD 4 = true) ∧
  (s.priv = .supervisor → pte.getLsbD 4 = true → K ≠ .fetch ∧ s.csr.mstatus.getLsbD 18 = true)

/-- R120: translation is active. -/
def TranslationOn (s : State) : Prop := s.csr.satp.toNat / 2 ^ 60 = 8 ∧ s.priv ≠ .machine

/-- R121: bits 63:39 all equal bit 38, that is, `va` is the sign extension of its low 39 bits. -/
def Canonical (va : Word) : Prop := -2 ^ 38 ≤ va.toInt ∧ va.toInt < 2 ^ 38

/-! ### The writable CSRs (10_state.md R47 to R58) -/

/-- A writable CSR: its address, what a read of it gives, and the CSR storage after a write to it. -/
structure WritableCsr where
  addr : CsrAddr
  view : CsrFile → Word
  after : CsrFile → Word → CsrFile

/-- R45: a write through a mask, bit by bit: the bits of the mask come from `v`, the others stay. -/
def throughMask (mask : Nat) (old v : Word) : Word :=
  (old &&& ~~~(BitVec.ofNat 64 mask)) ||| (v &&& BitVec.ofNat 64 mask)

/-- The 19 CSRs of R40 that are not read-only, with the read and write rules of R47 to R58. -/
def writableCsrs : List WritableCsr := [
  ⟨0x300#12, fun f => f.mstatus, fun f v => { f with mstatus := throughMask (if v.toNat / 2 ^ 11 % 4 = 2 then 0xC01AA else 0xC19AA) f.mstatus v }⟩,
  ⟨0x100#12, fun f => f.mstatus &&& 0x3000C0122#64, fun f v => { f with mstatus := throughMask 0xC0122 f.mstatus v }⟩,
  ⟨0x304#12, fun f => f.mie, fun f v => { f with mie := v &&& 0xAAA#64 }⟩,
  ⟨0x104#12, fun f => f.mie &&& 0x222#64, fun f v => { f with mie := throughMask 0x222 f.mie v }⟩,
  ⟨0x344#12, fun f => f.mip, fun f v => { f with mip := throughMask 0x222 f.mip v }⟩,
  ⟨0x144#12, fun f => f.mip &&& 0x222#64, fun f v => { f with mip := throughMask 0x002 f.mip v }⟩,
  ⟨0x302#12, fun f => f.medeleg, fun f v => { f with medeleg := v &&& 0xB3FF#64 }⟩,
  ⟨0x303#12, fun f => f.mideleg, fun f v => { f with mideleg := v &&& 0x222#64 }⟩,
  ⟨0x305#12, fun f => f.mtvec, fun f v => { f with mtvec := v &&& ~~~2#64 }⟩,
  ⟨0x105#12, fun f => f.stvec, fun f v => { f with stvec := v &&& ~~~2#64 }⟩,
  ⟨0x341#12, fun f => f.mepc, fun f v => { f with mepc := v &&& ~~~3#64 }⟩,
  ⟨0x141#12, fun f => f.sepc, fun f v => { f with sepc := v &&& ~~~3#64 }⟩,
  ⟨0x340#12, fun f => f.mscratch, fun f v => { f with mscratch := v }⟩,
  ⟨0x140#12, fun f => f.sscratch, fun f v => { f with sscratch := v }⟩,
  ⟨0x342#12, fun f => f.mcause, fun f v => { f with mcause := v }⟩,
  ⟨0x142#12, fun f => f.scause, fun f v => { f with scause := v }⟩,
  ⟨0x343#12, fun f => f.mtval, fun f v => { f with mtval := v }⟩,
  ⟨0x143#12, fun f => f.stval, fun f v => { f with stval := v }⟩,
  ⟨0x180#12, fun f => f.satp, fun f v => if v.toNat / 2 ^ 60 = 0 ∨ v.toNat / 2 ^ 60 = 8 then { f with satp := v } else f⟩]

/-- R41: the minimum privilege of an address, bits 9:8. -/
def minPrivOf (a : CsrAddr) : Nat := a.toNat / 2 ^ 8 % 4

/-- A Zicsr instruction completed: `v` in x[rd], the CSR storage `f` but for instret, which counts the instruction. -/
def CompletesCsr (o : Result) (s : State) (rd : Reg) (v : Word) (f : CsrFile) : Prop :=
  ∃ t, o = .next t ∧ t.pc = s.pc + 4 ∧ t.result = some .ok ∧ t.priv = s.priv ∧ t.csr = { f with instret := s.csr.instret + 1 } ∧
    WritesReg s t rd v ∧ KeepsMem s t ∧ t.resv = s.resv ∧ NoHost s t

/-- The bits of a register that are not in a list are as before. -/
def KeepsOtherBits (old new : Word) (changed : List Nat) : Prop :=
  ∀ j, j ∉ changed → new.getLsbD j = old.getLsbD j

end Sys2Proof.Machine
end

