-- ==== Sys2Proof/Certificates/Slice0/Obligations.lean ====
section
/-! DEFINITION. The statements for the provers, from the numbered rules of spec/. The terms they use (CompletesReg, Traps, BytesAt, …)
are defined in Sys2Proof/Safety.lean. -/

open Sys2Proof Sys2Proof.Machine

/-! ### Encoding -/

/-- R171, R176. The decoder gives back every well-formed instruction from the word the encoder writes, whatever its operands. -/
def Obligations.DecodeOfEncode : Prop :=
  ∀ i : Instr, i.wellFormed = true → decode (encode i) = .ok i

/-- R171, R173. No bit of a word is dropped: the word of a decoded instruction is the word it was decoded from. -/
def Obligations.EncodeOfDecode : Prop :=
  ∀ (w : InstrWord) (i : Instr), decode w = .ok i → i.wellFormed = true ∧ encode i = w

/-- R171: "A word is an instruction iff (word & mask) = match for exactly one row; the table has no overlapping rows". -/
def Obligations.TableRowsDisjoint : Prop :=
  ∀ w : InstrWord, (opcodeTable.filter (rowMatches w)).length ≤ 1 ∧
    ((∃ i, decode w = .ok i) ↔ (opcodeTable.filter (rowMatches w)).length = 1)

/-- R160, R175 and R172: a word of another length, of a custom opcode or of a floating-point opcode is Illegal. -/
def Obligations.AbsentEncodingsAreIllegal : Prop :=
  ∀ w : InstrWord,
    w.extractLsb' 0 2 ≠ 0b11#2 ∨ w.extractLsb' 2 3 = 0b111#3 ∨
      w.extractLsb' 0 7 ∈ [0b0001011#7, 0b0101011#7, 0b1011011#7, 0b1111011#7, 0b0000111#7, 0b0100111#7, 0b1000011#7,
        0b1000111#7, 0b1001011#7, 0b1001111#7, 0b1010011#7] →
    ∃ e, decode w = .error e

/-- The 14 words of the spec's decoder table test (95_test_vectors.md S2) and the two it calls Illegal. -/
def Obligations.WrittenWordsDecode : Prop :=
  decode 0xFFF30293#32 = .ok (.addi 5 6 0xFFF#12) ∧ decode 0x7FF30293#32 = .ok (.addi 5 6 0x7FF#12) ∧
  decode 0x43C35293#32 = .ok (.srai 5 6 60) ∧ decode 0xFE732E23#32 = .ok (.sw 6 7 0xFFC#12) ∧
  decode 0x007310A3#32 = .ok (.sh 6 7 1) ∧ decode 0x00730863#32 = .ok (.beq 6 7 16) ∧
  decode 0xFE731EE3#32 = .ok (.bne 6 7 0x1FFC#13) ∧ decode 0x800002B7#32 = .ok (.lui 5 0x80000#20) ∧
  decode 0xFFFFF297#32 = .ok (.auipc 5 0xFFFFF#20) ∧ decode 0x001000EF#32 = .ok (.jal 1 2048) ∧
  decode 0xFF9FF06F#32 = .ok (.jal 0 0x1FFFF8#21) ∧ decode 0x340312F3#32 = .ok (.csrrw 5 0x340#12 6) ∧
  decode 0x187322AF#32 = .ok (.scW 5 6 7 false false) ∧ decode 0x0E73202F#32 = .ok (.amoswapW 0 6 7 true true) ∧
  (∃ e, decode 0x00000000#32 = .error e) ∧ (∃ e, decode 0x04001293#32 = .error e)

/-! ### The hart step -/

/-- R90, R81, R103. When no interrupt is deliverable, pc is aligned and translates to four bytes of RAM that hold the word of a
decoded instruction, step is exec of it; exec itself moves pc. -/
def Obligations.StepRunsDecodedInstruction : Prop :=
  ∀ (s : State) (pa : Word) (w : InstrWord) (i : Instr),
    selectInterrupt s = none → s.pc.toNat % 4 = 0 → translate s .fetch s.pc = .ok pa →
    s.platform.ramBase ≤ pa.toNat → pa.toNat + 4 ≤ s.platform.ramBase + s.platform.ramSize →
    (∀ k, k < 4 → Memory.read s.mem (pa.toNat + k) = w.extractLsb' (8 * k) 8) →
    decode w = .ok i → step s = exec i s

/-- R81, R90 (2), (3); R420 codes 0, 1, 2, 12. What a step does when the fetch or the decode raises. -/
def Obligations.FetchAndDecodeExceptions : Prop :=
  ∀ s : State, selectInterrupt s = none →
    (s.pc.toNat % 4 ≠ 0 → Traps (step s) s .instrAddrMisaligned s.pc) ∧
    (s.pc.toNat % 4 = 0 →
      (∀ e, translate s .fetch s.pc = .error e → Traps (step s) s e.cause e.tval) ∧
      (∀ pa, translate s .fetch s.pc = .ok pa →
        (¬ (s.platform.ramBase ≤ pa.toNat ∧ pa.toNat + 4 ≤ s.platform.ramBase + s.platform.ramSize) →
          Traps (step s) s .instrAccessFault s.pc) ∧
        (s.platform.ramBase ≤ pa.toNat → pa.toNat + 4 ≤ s.platform.ramBase + s.platform.ramSize →
          ∀ (w : InstrWord) (e : Illegal), (∀ k, k < 4 → Memory.read s.mem (pa.toNat + k) = w.extractLsb' (8 * k) 8) →
            decode w = .error e → Traps (step s) s .illegalInstr (w.setWidth 64))))

/-- R431, R433, R434. Which interrupt a step takes, and when it takes none. -/
def Obligations.InterruptSelection : Prop :=
  ∀ s : State,
    let deliver : Irq → Prop := fun i =>
      s.csr.mip.getLsbD i.code = true ∧ s.csr.mie.getLsbD i.code = true ∧
      (s.csr.mideleg.getLsbD i.code = false → s.priv ≠ .machine ∨ s.csr.mstatus.getLsbD 3 = true) ∧
      (s.csr.mideleg.getLsbD i.code = true → s.priv = .user ∨ (s.priv = .supervisor ∧ s.csr.mstatus.getLsbD 1 = true))
    let rank : Irq → Nat := fun i =>
      match i with
      | .machineExternal => 0 | .supervisorExternal => 1 | .machineSoftware => 2
      | .supervisorSoftware => 3 | .machineTimer => 4 | .supervisorTimer => 5
    (∀ i, deliver i → (∀ j, deliver j → rank i ≤ rank j) → step s = .next (takeTrap (.interrupt i) 0 s.pc s)) ∧
      ((∀ i, ¬ deliver i) → selectInterrupt s = none)

/-! ### Integer computational instructions (40_integer_alu.md) -/

/-- R200, R201, R166, R230. LUI and AUIPC, the U-immediate read as a signed number of 4096s. -/
def Obligations.UpperImmediateResults : Prop :=
  ∀ (s : State) (rd : Reg) (imm : BitVec 20),
    CompletesReg (exec (.lui rd imm) s) s rd (BitVec.ofInt 64 (imm.toInt * 4096)) (s.pc + 4) ∧
    CompletesReg (exec (.auipc rd imm) s) s rd (BitVec.ofInt 64 (s.pc.toInt + imm.toInt * 4096)) (s.pc + 4)

/-- R202 to R210, R163, R168, R230. The register-immediate instructions, with the immediate and the operand read as integers. -/
def Obligations.ImmediateArithmeticResults : Prop :=
  ∀ (s : State) (rd rs1 : Reg) (imm : BitVec 12) (shamt : BitVec 6),
    let a := s.reg rs1
    let gives := fun (i : Instr) (v : Word) => CompletesReg (exec i s) s rd v (s.pc + 4)
    gives (.addi rd rs1 imm) (BitVec.ofInt 64 (a.toInt + imm.toInt)) ∧
    gives (.slti rd rs1 imm) (if a.toInt < imm.toInt then 1 else 0) ∧
    gives (.sltiu rd rs1 imm) (if (a.toNat : Int) < imm.toInt % 2 ^ 64 then 1 else 0) ∧
    gives (.xori rd rs1 imm) (a ^^^ BitVec.ofInt 64 imm.toInt) ∧
    gives (.ori rd rs1 imm) (a ||| BitVec.ofInt 64 imm.toInt) ∧
    gives (.andi rd rs1 imm) (a &&& BitVec.ofInt 64 imm.toInt) ∧
    gives (.slli rd rs1 shamt) (BitVec.ofNat 64 (a.toNat * 2 ^ shamt.toNat)) ∧
    gives (.srli rd rs1 shamt) (BitVec.ofNat 64 (a.toNat / 2 ^ shamt.toNat)) ∧
    gives (.srai rd rs1 shamt) (BitVec.ofInt 64 (a.toInt / 2 ^ shamt.toNat))

/-- R211 to R220, R231, R230. The register-register instructions, on integers modulo 2^64, shift amounts modulo 64. -/
def Obligations.RegisterArithmeticResults : Prop :=
  ∀ (s : State) (rd rs1 rs2 : Reg),
    let a := s.reg rs1
    let b := s.reg rs2
    let gives := fun (i : Instr) (v : Word) => CompletesReg (exec i s) s rd v (s.pc + 4)
    gives (.add rd rs1 rs2) (BitVec.ofNat 64 (a.toNat + b.toNat)) ∧
    gives (.sub rd rs1 rs2) (BitVec.ofInt 64 (a.toInt - b.toInt)) ∧
    gives (.sll rd rs1 rs2) (BitVec.ofNat 64 (a.toNat * 2 ^ (b.toNat % 64))) ∧
    gives (.slt rd rs1 rs2) (if a.toInt < b.toInt then 1 else 0) ∧
    gives (.sltu rd rs1 rs2) (if a.toNat < b.toNat then 1 else 0) ∧
    gives (.xor rd rs1 rs2) (a ^^^ b) ∧
    gives (.srl rd rs1 rs2) (BitVec.ofNat 64 (a.toNat / 2 ^ (b.toNat % 64))) ∧
    gives (.sra rd rs1 rs2) (BitVec.ofInt 64 (a.toInt / 2 ^ (b.toNat % 64))) ∧
    gives (.or rd rs1 rs2) (a ||| b) ∧
    gives (.and rd rs1 rs2) (a &&& b)

/-- R221 to R229, R231, R230. The word instructions: the 32-bit result, read as a signed 32-bit integer (bmod), sign-extended. -/
def Obligations.WordArithmeticResults : Prop :=
  ∀ (s : State) (rd rs1 rs2 : Reg) (imm : BitVec 12) (shamt : BitVec 5),
    let a := s.reg rs1
    let b := s.reg rs2
    let gives := fun (i : Instr) (v : Int) => CompletesReg (exec i s) s rd (BitVec.ofInt 64 (Int.bmod v (2 ^ 32))) (s.pc + 4)
    gives (.addiw rd rs1 imm) (a.toInt + imm.toInt) ∧
    gives (.slliw rd rs1 shamt) (a.toNat * 2 ^ shamt.toNat) ∧
    gives (.srliw rd rs1 shamt) (a.toNat % 2 ^ 32 / 2 ^ shamt.toNat) ∧
    gives (.sraiw rd rs1 shamt) (Int.bmod a.toNat (2 ^ 32) / 2 ^ shamt.toNat) ∧
    gives (.addw rd rs1 rs2) (a.toInt + b.toInt) ∧
    gives (.subw rd rs1 rs2) (a.toInt - b.toInt) ∧
    gives (.sllw rd rs1 rs2) (a.toNat * 2 ^ (b.toNat % 32)) ∧
    gives (.srlw rd rs1 rs2) (a.toNat % 2 ^ 32 / 2 ^ (b.toNat % 32)) ∧
    gives (.sraw rd rs1 rs2) (Int.bmod a.toNat (2 ^ 32) / 2 ^ (b.toNat % 32))

/-! ### Multiply and divide (44_muldiv.md) -/

/-- R330 to R333, R338. The products, computed exactly on integers and then narrowed; the high half is a floor division. -/
def Obligations.MultiplyResults : Prop :=
  ∀ (s : State) (rd rs1 rs2 : Reg),
    let a := s.reg rs1
    let b := s.reg rs2
    let gives := fun (i : Instr) (v : Word) => CompletesReg (exec i s) s rd v (s.pc + 4)
    gives (.mul rd rs1 rs2) (BitVec.ofInt 64 (a.toInt * b.toInt)) ∧
    gives (.mulh rd rs1 rs2) (BitVec.ofInt 64 (a.toInt * b.toInt / 2 ^ 64)) ∧
    gives (.mulhsu rd rs1 rs2) (BitVec.ofInt 64 (a.toInt * b.toNat / 2 ^ 64)) ∧
    gives (.mulhu rd rs1 rs2) (BitVec.ofNat 64 (a.toNat * b.toNat / 2 ^ 64)) ∧
    gives (.mulw rd rs1 rs2) (BitVec.ofInt 64 (Int.bmod (a.toInt * b.toInt) (2 ^ 32)))

/-- R334 to R337, R343. The 64-bit divisions, truncated toward zero: no trap on any operands; a zero divisor gives all ones and the
dividend; the overflowing quotient 2^63 wraps to the dividend. -/
def Obligations.DivideResults : Prop :=
  ∀ (s : State) (rd rs1 rs2 : Reg),
    let a := s.reg rs1
    let b := s.reg rs2
    let gives := fun (i : Instr) (v : Word) => CompletesReg (exec i s) s rd v (s.pc + 4)
    gives (.div rd rs1 rs2) (if b = 0 then BitVec.allOnes 64 else BitVec.ofInt 64 (a.toInt.tdiv b.toInt)) ∧
    gives (.divu rd rs1 rs2) (if b = 0 then BitVec.allOnes 64 else BitVec.ofNat 64 (a.toNat / b.toNat)) ∧
    gives (.rem rd rs1 rs2) (if b = 0 then a else BitVec.ofInt 64 (a.toInt.tmod b.toInt)) ∧
    gives (.remu rd rs1 rs2) (if b = 0 then a else BitVec.ofNat 64 (a.toNat % b.toNat))

/-- R339 to R342, R343. The word divisions, on the signed (bmod) or unsigned low 32 bits, the 32-bit result sign-extended. -/
def Obligations.WordDivideResults : Prop :=
  ∀ (s : State) (rd rs1 rs2 : Reg),
    let a : Nat := (s.reg rs1).toNat % 2 ^ 32
    let b : Nat := (s.reg rs2).toNat % 2 ^ 32
    let sa : Int := Int.bmod a (2 ^ 32)
    let sb : Int := Int.bmod b (2 ^ 32)
    let gives := fun (i : Instr) (v : Int) => CompletesReg (exec i s) s rd (BitVec.ofInt 64 (Int.bmod v (2 ^ 32))) (s.pc + 4)
    gives (.divw rd rs1 rs2) (if b = 0 then -1 else sa.tdiv sb) ∧
    gives (.divuw rd rs1 rs2) (if b = 0 then -1 else (a / b : Nat)) ∧
    gives (.remw rd rs1 rs2) (if b = 0 then sa else sa.tmod sb) ∧
    gives (.remuw rd rs1 rs2) (if b = 0 then a else (a % b : Nat))

/-! ### Loads, stores and fences (41_loads_stores.md, 20_memory.md) -/

/-- R250 to R257, R110, R103. The seven loads from RAM, at any alignment and across pages. -/
def Obligations.LoadsFromRam : Prop :=
  ∀ (s : State) (rd rs1 : Reg) (imm : BitVec 12) (pa : Nat → Word),
    let ea := s.reg rs1 + imm.signExtend 64
    let gives := fun (i : Instr) (n : Nat) (signed : Bool) =>
      BytesAt s .load ea n pa → AllInRam s n pa → ∃ v, IsLoaded s n signed pa v ∧ CompletesReg (exec i s) s rd v (s.pc + 4)
    gives (.lb rd rs1 imm) 1 true ∧ gives (.lh rd rs1 imm) 2 true ∧ gives (.lw rd rs1 imm) 4 true ∧
    gives (.ld rd rs1 imm) 8 true ∧ gives (.lbu rd rs1 imm) 1 false ∧ gives (.lhu rd rs1 imm) 2 false ∧
    gives (.lwu rd rs1 imm) 4 false

/-- R107, R110. The seven loads from a device window: an aligned one is one device read of the whole width, a misaligned one reads
the bytes one by one in ascending order; the values are the host's draws, which nothing constrains (log 4). -/
def Obligations.LoadsFromDevices : Prop :=
  ∀ (s : State) (rd rs1 : Reg) (imm : BitVec 12) (win : Window) (pa : Nat → Word),
    let ea := s.reg rs1 + imm.signExtend 64
    let gives := fun (i : Instr) (n : Nat) (signed : Bool) =>
      BytesAt s .load ea n pa → AllInWindow s win n pa →
      ∃ t v, exec i s = .next t ∧ Retired s t (s.pc + 4) ∧ WritesReg s t rd v ∧ KeepsMem s t ∧ t.resv = s.resv ∧
        t.platform = s.platform ∧
        (ea.toNat % n = 0 →
          v = (if signed then (Config.devRead s.draws (pa 0) n).signExtend 64 else (Config.devRead s.draws (pa 0) n).setWidth 64) ∧
          t.draws = s.draws + 1 ∧ t.events = s.events ++ [.read (pa 0) n]) ∧
        (ea.toNat % n ≠ 0 →
          (∀ k, k < n → v.extractLsb' (8 * k) 8 = Config.devRead (s.draws + k) (pa k) 1) ∧
          (∀ j, 8 * n ≤ j → j < 64 → v.getLsbD j = (signed && v.getLsbD (8 * n - 1))) ∧
          t.draws = s.draws + n ∧ t.events = s.events ++ (List.range n).map (fun k => .read (pa k) 1))
    gives (.lb rd rs1 imm) 1 true ∧ gives (.lh rd rs1 imm) 2 true ∧ gives (.lw rd rs1 imm) 4 true ∧
    gives (.ld rd rs1 imm) 8 true ∧ gives (.lbu rd rs1 imm) 1 false ∧ gives (.lhu rd rs1 imm) 2 false ∧
    gives (.lwu rd rs1 imm) 4 false

/-- R258 to R261, R111, R103, R360 (e). The four stores to RAM: the bytes at the translated addresses, every other byte as before. -/
def Obligations.StoresToRam : Prop :=
  ∀ (s : State) (rs1 rs2 : Reg) (imm : BitVec 12) (pa : Nat → Word),
    let ea := s.reg rs1 + imm.signExtend 64
    let gives := fun (i : Instr) (n : Nat) =>
      BytesAt s .store ea n pa → AllInRam s n pa → Memory.wf s.mem = true →
      ∃ t, exec i s = .next t ∧ Retired s t (s.pc + 4) ∧ KeepsRegs s t ∧ StoresBytes s t n pa (s.reg rs2) ∧
        ResvAfterStore s t n pa ∧ NoHost s t
    gives (.sb rs1 rs2 imm) 1 ∧ gives (.sh rs1 rs2 imm) 2 ∧ gives (.sw rs1 rs2 imm) 4 ∧ gives (.sd rs1 rs2 imm) 8

/-- R107, R111. The four stores to a device window: one event when aligned, else one event a byte; RAM and the reservation stay. -/
def Obligations.StoresToDevices : Prop :=
  ∀ (s : State) (rs1 rs2 : Reg) (imm : BitVec 12) (win : Window) (pa : Nat → Word),
    let ea := s.reg rs1 + imm.signExtend 64
    let gives := fun (i : Instr) (n : Nat) =>
      BytesAt s .store ea n pa → AllInWindow s win n pa → reservationLegal s = true →
      ∃ t, exec i s = .next t ∧ Retired s t (s.pc + 4) ∧ KeepsRegs s t ∧ KeepsMem s t ∧ t.resv = s.resv ∧
        t.platform = s.platform ∧ t.draws = s.draws ∧
        (ea.toNat % n = 0 → t.events = s.events ++ [.write (pa 0) n (BitVec.ofNat 64 ((s.reg rs2).toNat % 2 ^ (8 * n)))]) ∧
        (ea.toNat % n ≠ 0 → t.events = s.events ++
          (List.range n).map fun k => .write (pa k) 1 (BitVec.ofNat 64 ((s.reg rs2).toNat / 2 ^ (8 * k) % 256)))
    gives (.sb rs1 rs2 imm) 1 ∧ gives (.sh rs1 rs2 imm) 2 ∧ gives (.sw rs1 rs2 imm) 4 ∧ gives (.sd rs1 rs2 imm) 8

/-- R110, R111, R112, R264. A load or store whose byte `k` is the first to fail takes that byte's exception and does nothing else:
no register, no memory byte, no device access. -/
def Obligations.FirstFailingByteTraps : Prop :=
  ∀ (s : State) (r1 r2 : Reg) (imm : BitVec 12) (k : Nat) (e : Exc),
    let ea := s.reg r1 + imm.signExtend 64
    let trapsWith := fun (i : Instr) (K : Access) (n : Nat) => k < n → FailsAtByte s K ea k e → Traps (exec i s) s e.cause e.tval
    trapsWith (.lb r2 r1 imm) .load 1 ∧ trapsWith (.lh r2 r1 imm) .load 2 ∧ trapsWith (.lw r2 r1 imm) .load 4 ∧
    trapsWith (.ld r2 r1 imm) .load 8 ∧ trapsWith (.lbu r2 r1 imm) .load 1 ∧ trapsWith (.lhu r2 r1 imm) .load 2 ∧
    trapsWith (.lwu r2 r1 imm) .load 4 ∧ trapsWith (.sb r1 r2 imm) .store 1 ∧ trapsWith (.sh r1 r2 imm) .store 2 ∧
    trapsWith (.sw r1 r2 imm) .store 4 ∧ trapsWith (.sd r1 r2 imm) .store 8

/-- R262, R263, R141: FENCE and FENCE.I, with any fields, advance pc by 4 and do nothing else. -/
def Obligations.FencesOnlyAdvance : Prop :=
  ∀ (s : State) (fm pred succ : BitVec 4) (imm : BitVec 12) (rs1 rd : Reg),
    CompletesOnlyPc (exec (.fence fm pred succ rs1 rd) s) s (s.pc + 4) ∧
    CompletesOnlyPc (exec (.fenceI imm rs1 rd) s) s (s.pc + 4)

/-! ### Branches and jumps (42_control_transfer.md) -/

/-- R281 to R286, R290, R280. Each conditional branch: where it goes when taken and when not, and that a taken branch to a target
that is not a multiple of 4 traps with cause 0 and the target as trap value. -/
def Obligations.ConditionalBranches : Prop :=
  ∀ (s : State) (rs1 rs2 : Reg) (imm : BitVec 13),
    let a := s.reg rs1
    let b := s.reg rs2
    let target : Word := BitVec.ofInt 64 (s.pc.toInt + imm.toInt)
    let branches := fun (i : Instr) (taken : Prop) =>
      (taken → target.toNat % 4 = 0 → CompletesOnlyPc (exec i s) s target) ∧
      (taken → target.toNat % 4 ≠ 0 → Traps (exec i s) s .instrAddrMisaligned target) ∧
      (¬ taken → CompletesOnlyPc (exec i s) s (s.pc + 4))
    branches (.beq rs1 rs2 imm) (a = b) ∧ branches (.bne rs1 rs2 imm) (a ≠ b) ∧
    branches (.blt rs1 rs2 imm) (a.toInt < b.toInt) ∧ branches (.bge rs1 rs2 imm) (a.toInt ≥ b.toInt) ∧
    branches (.bltu rs1 rs2 imm) (a.toNat < b.toNat) ∧ branches (.bgeu rs1 rs2 imm) (a.toNat ≥ b.toNat)

/-- R287, R288, R280. JAL and JALR: the link and the target, and the trap of a target that is not a multiple of 4; JALR clears bit 0
of the sum and reads x[rs1] before rd is written. -/
def Obligations.JumpsAndLinks : Prop :=
  ∀ (s : State) (rd rs1 : Reg) (imm : BitVec 12) (off : BitVec 21),
    let jumps := fun (i : Instr) (target : Word) =>
      (target.toNat % 4 = 0 → CompletesReg (exec i s) s rd (s.pc + 4) target) ∧
      (target.toNat % 4 ≠ 0 → Traps (exec i s) s .instrAddrMisaligned target)
    jumps (.jal rd off) (BitVec.ofInt 64 (s.pc.toInt + off.toInt)) ∧
    jumps (.jalr rd rs1 imm) (BitVec.ofInt 64 (((s.reg rs1).toInt + imm.toInt) / 2 * 2))

/-! ### Atomics (45_atomics.md) -/

/-- R361, R362. LR reads, sign-extends (.W) and arms the reservation at the physical address; memory stays. -/
def Obligations.LoadReservedResults : Prop :=
  ∀ (s : State) (rd rs1 : Reg) (aq rl : Bool) (pa old : Word),
    let gives := fun (i : Instr) (n : Nat) (v : Word) =>
      s.platform.wf = true → AtomicAt s .load (s.reg rs1) n pa old →
      ∃ t a, exec i s = .next t ∧ Retired s t (s.pc + 4) ∧ WritesReg s t rd v ∧ KeepsMem s t ∧
        t.resv = some a ∧ a.toNat = pa.toNat ∧ NoHost s t
    gives (.lrW rd rs1 aq rl) 4 (BitVec.ofInt 64 (Int.bmod old.toNat (2 ^ 32))) ∧ gives (.lrD rd rs1 aq rl) 8 old

/-- R363, R364, R383. SC succeeds iff the reservation holds its physical address: it stores and writes 0, or stores nothing and
writes 1; either way the reservation is gone. -/
def Obligations.StoreConditionalResults : Prop :=
  ∀ (s : State) (rd rs1 rs2 : Reg) (aq rl : Bool) (pa old : Word),
    let gives := fun (i : Instr) (n : Nat) =>
      Memory.wf s.mem = true → AtomicAt s .store (s.reg rs1) n pa old →
      ∃ t, exec i s = .next t ∧ Retired s t (s.pc + 4) ∧ t.resv = none ∧ NoHost s t ∧
        ((∃ a, s.resv = some a ∧ a.toNat = pa.toNat) →
          WritesReg s t rd 0 ∧ StoresBytes s t n (fun k => pa + BitVec.ofNat 64 k) (s.reg rs2)) ∧
        (¬ (∃ a, s.resv = some a ∧ a.toNat = pa.toNat) → WritesReg s t rd 1 ∧ KeepsMem s t)
    gives (.scW rd rs1 rs2 aq rl) 4 ∧ gives (.scD rd rs1 rs2 aq rl) 8

/-- R365 to R373, R384, R385. The .W AMOs: the operation on the 32-bit memory word `m` and the low word `r` of x[rs2]. -/
def Obligations.WordAtomicResults : Prop :=
  ∀ (s : State) (rd rs1 rs2 : Reg) (aq rl : Bool) (pa old : Word),
    let m : BitVec 32 := old.setWidth 32
    let r : BitVec 32 := (s.reg rs2).setWidth 32
    let gives := fun (i : Instr) (new : BitVec 32) =>
      Memory.wf s.mem = true → AtomicAt s .store (s.reg rs1) 4 pa old →
      CompletesAtomic (exec i s) s rd (m.signExtend 64) pa 4 (new.setWidth 64)
    gives (.amoswapW rd rs1 rs2 aq rl) r ∧ gives (.amoaddW rd rs1 rs2 aq rl) (BitVec.ofNat 32 (m.toNat + r.toNat)) ∧
    gives (.amoxorW rd rs1 rs2 aq rl) (m ^^^ r) ∧ gives (.amoandW rd rs1 rs2 aq rl) (m &&& r) ∧
    gives (.amoorW rd rs1 rs2 aq rl) (m ||| r) ∧ gives (.amominW rd rs1 rs2 aq rl) (if m.slt r then m else r) ∧
    gives (.amomaxW rd rs1 rs2 aq rl) (if r.slt m then m else r) ∧ gives (.amominuW rd rs1 rs2 aq rl) (if m.ult r then m else r) ∧
    gives (.amomaxuW rd rs1 rs2 aq rl) (if r.ult m then m else r)

/-- R374 to R382, R384, R386. The .D AMOs: the operation on the 64-bit memory value and x[rs2]. -/
def Obligations.DoublewordAtomicResults : Prop :=
  ∀ (s : State) (rd rs1 rs2 : Reg) (aq rl : Bool) (pa m : Word),
    let r := s.reg rs2
    let gives := fun (i : Instr) (new : Word) =>
      Memory.wf s.mem = true → AtomicAt s .store (s.reg rs1) 8 pa m → CompletesAtomic (exec i s) s rd m pa 8 new
    gives (.amoswapD rd rs1 rs2 aq rl) r ∧ gives (.amoaddD rd rs1 rs2 aq rl) (BitVec.ofNat 64 (m.toNat + r.toNat)) ∧
    gives (.amoxorD rd rs1 rs2 aq rl) (m ^^^ r) ∧ gives (.amoandD rd rs1 rs2 aq rl) (m &&& r) ∧
    gives (.amoorD rd rs1 rs2 aq rl) (m ||| r) ∧ gives (.amominD rd rs1 rs2 aq rl) (if m.slt r then m else r) ∧
    gives (.amomaxD rd rs1 rs2 aq rl) (if r.slt m then m else r) ∧ gives (.amominuD rd rs1 rs2 aq rl) (if m.ult r then m else r) ∧
    gives (.amomaxuD rd rs1 rs2 aq rl) (if r.ult m then m else r)

/-- R360 (b), (c), (d), R432 item 5. Every atomic instruction traps on a misaligned address before translation, then on a failed
translation, then on bytes that are not all in RAM. -/
def Obligations.AtomicAddressFaults : Prop :=
  ∀ (s : State) (rd rs1 rs2 : Reg) (aq rl : Bool) (x : Instr × Access × Nat),
    x ∈ [(Instr.lrW rd rs1 aq rl, Access.load, 4), (.lrD rd rs1 aq rl, .load, 8), (.scW rd rs1 rs2 aq rl, .store, 4),
      (.scD rd rs1 rs2 aq rl, .store, 8), (.amoswapW rd rs1 rs2 aq rl, .store, 4), (.amoaddW rd rs1 rs2 aq rl, .store, 4),
      (.amoxorW rd rs1 rs2 aq rl, .store, 4), (.amoandW rd rs1 rs2 aq rl, .store, 4), (.amoorW rd rs1 rs2 aq rl, .store, 4),
      (.amominW rd rs1 rs2 aq rl, .store, 4), (.amomaxW rd rs1 rs2 aq rl, .store, 4), (.amominuW rd rs1 rs2 aq rl, .store, 4),
      (.amomaxuW rd rs1 rs2 aq rl, .store, 4)] ++
      [(Instr.amoswapD rd rs1 rs2 aq rl, Access.store, 8), (.amoaddD rd rs1 rs2 aq rl, .store, 8),
      (.amoxorD rd rs1 rs2 aq rl, .store, 8), (.amoandD rd rs1 rs2 aq rl, .store, 8), (.amoorD rd rs1 rs2 aq rl, .store, 8),
      (.amominD rd rs1 rs2 aq rl, .store, 8), (.amomaxD rd rs1 rs2 aq rl, .store, 8), (.amominuD rd rs1 rs2 aq rl, .store, 8),
      (.amomaxuD rd rs1 rs2 aq rl, .store, 8)] →
    let va := s.reg rs1
    let af : ExcCause := if x.2.1 = .load then .loadAccessFault else .storeAccessFault
    (va.toNat % x.2.2 ≠ 0 → Traps (exec x.1 s) s af va) ∧
    (va.toNat % x.2.2 = 0 →
      (∀ e, translate s x.2.1 va = .error e → Traps (exec x.1 s) s e.cause e.tval) ∧
      (∀ pa, translate s x.2.1 va = .ok pa →
        ¬ (s.platform.ramBase ≤ pa.toNat ∧ pa.toNat + x.2.2 ≤ s.platform.ramBase + s.platform.ramSize) →
        Traps (exec x.1 s) s af va))

/-! ### Zicsr and the CSRs (43_zicsr.md, 10_state.md) -/

/-- R300, R307, R308, R41 to R44, R46. When a Zicsr instruction traps: exactly when a check it makes fails, with cause 2 and its own
word as trap value. -/
def Obligations.CsrAccessChecks : Prop :=
  ∀ (s : State) (rd rs1 : Reg) (a : CsrAddr) (x : Instr × Bool × Bool),
    x ∈ [(Instr.csrrw rd a rs1, decide (rd ≠ 0), true), (.csrrs rd a rs1, true, decide (rs1 ≠ 0)),
      (.csrrc rd a rs1, true, decide (rs1 ≠ 0)), (.csrrwi rd a rs1, decide (rd ≠ 0), true),
      (.csrrsi rd a rs1, true, decide (rs1 ≠ 0)), (.csrrci rd a rs1, true, decide (rs1 ≠ 0))] →
    let implemented : Prop := a ∈ [0x100#12, 0x104#12, 0x105#12, 0x140#12, 0x141#12, 0x142#12, 0x143#12, 0x144#12, 0x180#12,
        0x300#12, 0x302#12, 0x303#12, 0x304#12, 0x305#12, 0x340#12, 0x341#12, 0x342#12, 0x343#12, 0x344#12,
        0xC00#12, 0xC01#12, 0xC02#12] ∨ (∃ c, (a, c) ∈ s.platform.extraRoCsrs) ∧ minPrivOf a ≠ 2
    let readLegal : Prop := implemented ∧ minPrivOf a ≤ s.priv.code.toNat
    let writeLegal : Prop := readLegal ∧ a.toNat / 2 ^ 10 ≠ 3
    let legal : Prop := (x.2.1 = true → readLegal) ∧ (x.2.2 = true → writeLegal)
    (¬ legal → Traps (exec x.1 s) s .illegalInstr ((encode x.1).setWidth 64)) ∧
    (legal → ∃ t, exec x.1 s = .next t ∧ t.result = some .ok ∧ t.pc = s.pc + 4 ∧ t.priv = s.priv ∧ KeepsMem s t)

/-- R300 to R306, with the read and write rules of R45 and R47 to R58 (the table writableCsrs): each of the six instructions on each
of the 19 writable CSRs, in a mode that may access it. -/
def Obligations.CsrReadWriteForms : Prop :=
  ∀ (s : State) (rd rs1 uimm : BitVec 5) (c : WritableCsr), c ∈ writableCsrs → minPrivOf c.addr ≤ s.priv.code.toNat →
    let old := c.view s.csr
    let x := s.reg rs1
    let u : Word := BitVec.ofNat 64 uimm.toNat
    let gives := fun (i : Instr) (f : CsrFile) => CompletesCsr (exec i s) s rd old f
    gives (.csrrw rd c.addr rs1) (c.after s.csr x) ∧
    gives (.csrrs rd c.addr rs1) (if rs1 = 0 then s.csr else c.after s.csr (old ||| x)) ∧
    gives (.csrrc rd c.addr rs1) (if rs1 = 0 then s.csr else c.after s.csr (old &&& ~~~x)) ∧
    gives (.csrrwi rd c.addr uimm) (c.after s.csr u) ∧
    gives (.csrrsi rd c.addr uimm) (if uimm = 0 then s.csr else c.after s.csr (old ||| u)) ∧
    gives (.csrrci rd c.addr uimm) (if uimm = 0 then s.csr else c.after s.csr (old &&& ~~~u))

/-- R59 to R62, R309. Reading a read-only CSR in any mode that may: instret gives the count before this instruction, an extra CSR its
constant, cycle and time a draw that nothing constrains (log 3) and that is then used up. -/
def Obligations.ReadOnlyCsrReads : Prop :=
  ∀ (s : State) (rd : Reg) (a : CsrAddr) (i : Instr),
    i ∈ [Instr.csrrs rd a 0, .csrrc rd a 0, .csrrsi rd a 0, .csrrci rd a 0] →
    (a = 0xC02#12 → CompletesReg (exec i s) s rd s.csr.instret (s.pc + 4)) ∧
    (∀ c, s.platform.wf = true → (a, c) ∈ s.platform.extraRoCsrs → minPrivOf a ≤ s.priv.code.toNat →
      CompletesReg (exec i s) s rd c (s.pc + 4)) ∧
    (a = 0xC00#12 ∨ a = 0xC01#12 →
      ∃ t, exec i s = .next t ∧ Retired s t (s.pc + 4) ∧ KeepsMem s t ∧ t.resv = s.resv ∧ t.platform = s.platform ∧
        t.events = s.events ∧ t.draws = s.draws + 1 ∧
        WritesReg s t rd (if a = 0xC00#12 then Config.cycleRead s.draws else Config.timeRead s.draws))

/-- R47. A write of mstatus in M-mode, bit by bit: the writable fields take the written bits, but for an MPP of 2, which changes
nothing; every other bit keeps its value. -/
def Obligations.MstatusWriteRule : Prop :=
  ∀ (s : State) (rd rs1 : Reg), s.priv = .machine →
    ∃ t, exec (.csrrw rd 0x300#12 rs1) s = .next t ∧ WritesReg s t rd s.csr.mstatus ∧
      (∀ j, j ∈ [1, 3, 5, 7, 8, 18, 19] → t.csr.mstatus.getLsbD j = (s.reg rs1).getLsbD j) ∧
      (∀ j, j ∈ [11, 12] → t.csr.mstatus.getLsbD j =
        if (s.reg rs1).getLsbD 12 = true ∧ (s.reg rs1).getLsbD 11 = false then s.csr.mstatus.getLsbD j
        else (s.reg rs1).getLsbD j) ∧
      KeepsOtherBits s.csr.mstatus t.csr.mstatus [1, 3, 5, 7, 8, 11, 12, 18, 19]

/-! ### Traps, returns and system instructions (60_exceptions.md, 46_system.md) -/

/-- R440, R441, R443, R445, R422. Entry to M-mode, for every cause: what is saved, what mstatus, priv, pc and the reservation become,
and that nothing else changes. -/
def Obligations.TrapEntryMachine : Prop :=
  ∀ (s : State) (c : Cause) (tval epc : Word),
    let deleg : Bool := match c with
      | .exception e => s.csr.medeleg.getLsbD e.code
      | .interrupt i => s.csr.mideleg.getLsbD i.code
    deleg = false ∨ s.priv = .machine →
    let t := takeTrap c tval epc s
    let base := s.csr.mtvec.toNat / 4 * 4
    t.csr.mepc = epc ∧ t.csr.mtval = tval ∧
    t.csr.mcause = BitVec.ofNat 64 ((if c.isInterrupt then 2 ^ 63 else 0) + c.code) ∧
    t.csr.mstatus.getLsbD 7 = s.csr.mstatus.getLsbD 3 ∧ t.csr.mstatus.getLsbD 3 = false ∧
    t.csr.mstatus.toNat / 2 ^ 11 % 4 = s.priv.code.toNat ∧ KeepsOtherBits s.csr.mstatus t.csr.mstatus [3, 7, 11, 12] ∧
    t.priv = .machine ∧
    t.pc = BitVec.ofNat 64 (if s.csr.mtvec.getLsbD 0 ∧ c.isInterrupt then base + 4 * c.code else base) ∧
    t.resv = none ∧ t.result = some (.trapped c.code c.isInterrupt tval) ∧
    t.csr = { s.csr with mepc := t.csr.mepc, mcause := t.csr.mcause, mtval := t.csr.mtval, mstatus := t.csr.mstatus } ∧
    KeepsRegs s t ∧ KeepsMem s t ∧ NoHost s t

/-- R440, R442, R443, R445, R422. Entry to S-mode, for every cause delegated while the mode is S or U. -/
def Obligations.TrapEntrySupervisor : Prop :=
  ∀ (s : State) (c : Cause) (tval epc : Word),
    let deleg : Bool := match c with
      | .exception e => s.csr.medeleg.getLsbD e.code
      | .interrupt i => s.csr.mideleg.getLsbD i.code
    deleg = true → s.priv ≠ .machine →
    let t := takeTrap c tval epc s
    let base := s.csr.stvec.toNat / 4 * 4
    t.csr.sepc = epc ∧ t.csr.stval = tval ∧
    t.csr.scause = BitVec.ofNat 64 ((if c.isInterrupt then 2 ^ 63 else 0) + c.code) ∧
    t.csr.mstatus.getLsbD 5 = s.csr.mstatus.getLsbD 1 ∧ t.csr.mstatus.getLsbD 1 = false ∧
    t.csr.mstatus.getLsbD 8 = (if s.priv = .user then false else true) ∧
    KeepsOtherBits s.csr.mstatus t.csr.mstatus [1, 5, 8] ∧ t.priv = .supervisor ∧
    t.pc = BitVec.ofNat 64 (if s.csr.stvec.getLsbD 0 ∧ c.isInterrupt then base + 4 * c.code else base) ∧
    t.resv = none ∧ t.result = some (.trapped c.code c.isInterrupt tval) ∧
    t.csr = { s.csr with sepc := t.csr.sepc, scause := t.csr.scause, stval := t.csr.stval, mstatus := t.csr.mstatus } ∧
    KeepsRegs s t ∧ KeepsMem s t ∧ NoHost s t

/-- R390, R391, R420. ECALL takes cause 8, 9 or 11 by the mode with trap value 0, EBREAK cause 3 with its own pc: that trap and nothing
else, and the code as a number, in the value step returns and in the cause register of the mode entered. -/
def Obligations.CallsAndBreakpoints : Prop :=
  ∀ s : State,
    let trapsWith := fun (i : Instr) (c : ExcCause) (code : Nat) (tval : Word) =>
      Traps (exec i s) s c tval ∧
      ∃ t, exec i s = .next t ∧ t.result = some (.trapped code false tval) ∧
        ((t.priv = .machine ∧ t.csr.mcause = BitVec.ofNat 64 code ∧ t.csr.mtval = tval) ∨
         (t.priv = .supervisor ∧ t.csr.scause = BitVec.ofNat 64 code ∧ t.csr.stval = tval))
    (s.priv = .user → trapsWith .ecall .ecallFromU 8 0) ∧
    (s.priv = .supervisor → trapsWith .ecall .ecallFromS 9 0) ∧
    (s.priv = .machine → trapsWith .ecall .ecallFromM 11 0) ∧
    trapsWith .ebreak .breakpoint 3 s.pc

/-- R393, R392, R450. MRET: from M-mode it returns to the mode in MPP (0, 1 or 3), restores MIE, and changes nothing but what the rule
names; in S and U it is illegal. -/
def Obligations.MretReturns : Prop :=
  ∀ s : State,
    (s.priv ≠ .machine → Traps (exec .mret s) s .illegalInstr 0x30200073#64) ∧
    (s.priv = .machine → mppLegal s = true →
      ∃ t, exec .mret s = .next t ∧ t.pc = s.csr.mepc ∧ t.priv.code.toNat = s.csr.mstatus.toNat / 2 ^ 11 % 4 ∧
        t.csr.mstatus.getLsbD 3 = s.csr.mstatus.getLsbD 7 ∧ t.csr.mstatus.getLsbD 7 = true ∧
        t.csr.mstatus.getLsbD 11 = false ∧ t.csr.mstatus.getLsbD 12 = false ∧
        KeepsOtherBits s.csr.mstatus t.csr.mstatus [3, 7, 11, 12] ∧
        t.csr = { s.csr with mstatus := t.csr.mstatus, instret := s.csr.instret + 1 } ∧ t.result = some .ok ∧
        KeepsRegs s t ∧ KeepsMem s t ∧ t.resv = s.resv ∧ NoHost s t)

/-- R394, R392, R450. SRET: from M-mode or S-mode it returns to the mode in SPP, restores SIE, and changes nothing but what the rule
names; in U it is illegal. -/
def Obligations.SretReturns : Prop :=
  ∀ s : State,
    (s.priv = .user → Traps (exec .sret s) s .illegalInstr 0x10200073#64) ∧
    (s.priv ≠ .user →
      ∃ t, exec .sret s = .next t ∧ t.pc = s.csr.sepc ∧
        t.priv = (if s.csr.mstatus.getLsbD 8 then .supervisor else .user) ∧
        t.csr.mstatus.getLsbD 1 = s.csr.mstatus.getLsbD 5 ∧ t.csr.mstatus.getLsbD 5 = true ∧
        t.csr.mstatus.getLsbD 8 = false ∧ KeepsOtherBits s.csr.mstatus t.csr.mstatus [1, 5, 8] ∧
        t.csr = { s.csr with mstatus := t.csr.mstatus, instret := s.csr.instret + 1 } ∧ t.result = some .ok ∧
        KeepsRegs s t ∧ KeepsMem s t ∧ t.resv = s.resv ∧ NoHost s t)

/-- THE MODEL'S CHOICE (log 10): MRET in M-mode with MPP = 2, which R47 lets no write store, stops with reservedPrivilege; no other
instruction and no other state stops, a step stops only where it has fetched that MRET, and nothing is ever refused. -/
def Obligations.ReservedPrivilegeStops : Prop :=
  ∀ s : State,
    let reserved : Prop := s.priv = .machine ∧ s.csr.mstatus.getLsbD 12 = true ∧ s.csr.mstatus.getLsbD 11 = false
    (reserved → exec .mret s = .fault .reservedPrivilege) ∧
    (∀ (i : Instr) (r : Fault), exec i s = .fault r → i = .mret ∧ reserved) ∧
    (∀ r : Fault, step s = .fault r → reserved ∧ exec .mret s = .fault r ∧ ∃ w, fetch s = .ok w ∧ decode w = .ok .mret) ∧
    (∀ (i : Instr) (r : Refusal), exec i s ≠ .refused r) ∧ (∀ r : Refusal, step s ≠ .refused r)

/-- R395, R396, R392. WFI and SFENCE.VMA advance pc by 4 and do nothing else in S and M; in U they are illegal. -/
def Obligations.WaitAndFenceVma : Prop :=
  ∀ (s : State) (rs1 rs2 : Reg),
    (s.priv = .user → Traps (exec .wfi s) s .illegalInstr 0x10500073#64 ∧
      Traps (exec (.sfenceVma rs1 rs2) s) s .illegalInstr ((encode (.sfenceVma rs1 rs2)).setWidth 64)) ∧
    (s.priv ≠ .user → CompletesOnlyPc (exec .wfi s) s (s.pc + 4) ∧
      CompletesOnlyPc (exec (.sfenceVma rs1 rs2) s) s (s.pc + 4))

/-! ### Sv39 (20_memory.md) -/

/-- R120. When translation is not active, an address is its own physical address and nothing faults. -/
def Obligations.TranslationInactive : Prop :=
  ∀ (s : State) (K : Access) (va : Word), ¬ TranslationOn s → translate s K va = .ok va

/-- R121. When translation is active, an address whose bits 63:39 do not all equal bit 38 raises the page fault of its kind. -/
def Obligations.NonCanonicalAddressFaults : Prop :=
  ∀ (s : State) (K : Access) (va : Word), TranslationOn s → ¬ Canonical va → translate s K va = .error (pageFault K va)

/-- R121 to R129. What translation answers at whatever level its walk ends, against the walk written as a relation. -/
def Obligations.WalkFollowsTables : Prop :=
  ∀ (s : State) (K : Access) (va : Word) (i a : Nat), TranslationOn s → Canonical va → WalkReaches s va i a →
    (¬ (s.platform.ramBase ≤ pteAddress va i a ∧ pteAddress va i a + 8 ≤ s.platform.ramBase + s.platform.ramSize) →
      translate s K va = .error (accessFault K va)) ∧
    ∀ pte, PteAt s (pteAddress va i a) pte →
      (¬ PteOk pte → translate s K va = .error (pageFault K va)) ∧
      (PteOk pte → ¬ PteLeaf pte → i = 0 → translate s K va = .error (pageFault K va)) ∧
      (PteOk pte → PteLeaf pte →
        ¬ (MayAccess s K pte ∧ pte.toNat / 2 ^ 10 % 2 ^ (9 * i) = 0) → translate s K va = .error (pageFault K va)) ∧
      (PteOk pte → PteLeaf pte → MayAccess s K pte → pte.toNat / 2 ^ 10 % 2 ^ (9 * i) = 0 →
        translate s K va =
          .ok (BitVec.ofNat 64 (pte.toNat / 2 ^ 10 % 2 ^ 44 * 4096 + va.toNat % 2 ^ (12 + 9 * i))))

/-- R112, R128, R129. Translation raises only the page fault or the access fault of its kind, with the address as trap value, and its
answers lie in the 56-bit physical space when it is active; and what those faults are: R112's table, kind by kind, the causes by name
(their numbers: ModeAndCauseCodes) and by number. -/
def Obligations.TranslationFaultKinds : Prop :=
  ∀ (s : State) (K : Access) (va : Word),
    (pageFault .fetch va = ⟨.instrPageFault, va⟩ ∧ accessFault .fetch va = ⟨.instrAccessFault, va⟩ ∧
      pageFault .load va = ⟨.loadPageFault, va⟩ ∧ accessFault .load va = ⟨.loadAccessFault, va⟩ ∧
      pageFault .store va = ⟨.storePageFault, va⟩ ∧ accessFault .store va = ⟨.storeAccessFault, va⟩) ∧
    (∀ e, translate s K va = .error e → e.tval = va ∧
      e.cause.code ∈ (match K with | .fetch => [12, 1] | .load => [13, 5] | .store => [15, 7])) ∧
    (∀ e, translate s K va = .error e → e = pageFault K va ∨ e = accessFault K va) ∧
    (∀ pa, translate s K va = .ok pa → pa.toNat % 4096 = va.toNat % 4096 ∧ (TranslationOn s → pa.toNat < 2 ^ 56))

/-! ### Reset (70_reset_and_hazards.md) -/

/-- R480, R481. Every piece of state after a successful reset. -/
def Obligations.ResetState : Prop :=
  ∀ (p : Platform) (entryPc : Word) (base : Nat) (payload : List Byte) (s : State),
    hostReset p entryPc base payload = .ok s →
    s.pc = entryPc ∧ s.priv = .machine ∧ s.resv = none ∧ s.platform = p ∧
    (s.reg 2).toNat = (p.ramBase + p.ramSize) / 16 * 16 ∧ (∀ r, r ≠ 2 → s.reg r = 0) ∧
    s.csr =
      { mstatus := 0x0000000A00000000#64, medeleg := 0, mideleg := 0, mie := 0, mip := 0, mtvec := 0, mscratch := 0,
        mepc := 0, mcause := 0, mtval := 0, stvec := 0, sscratch := 0, sepc := 0, scause := 0, stval := 0, satp := 0,
        instret := 0 } ∧
    (∀ k, k < payload.length → Memory.read s.mem (base + k) = payload.getD k 0) ∧
    (∀ a, a < base ∨ base + payload.length ≤ a → Memory.read s.mem a = 0)

/-- R483, with two choices of THE MODEL: on well-formed parameters (Platform.wf: what the spec asks, no empty window, log 26), reset is
refused exactly when the payload is not wholly inside RAM, the entry pc is not a multiple of 4, or its 4 bytes are not all in RAM; an
EMPTY payload counts as inside RAM when its base is in RAM or at its end (log 19), of which R483 says nothing. -/
def Obligations.ResetRefusals : Prop :=
  ∀ (p : Platform) (entryPc : Word) (base : Nat) (payload : List Byte), p.wf = true →
    ((∃ e, hostReset p entryPc base payload = .error e) ↔
      ¬ (p.ramBase ≤ base ∧ base + payload.length ≤ p.ramBase + p.ramSize) ∨ entryPc.toNat % 4 ≠ 0 ∨
      ¬ (p.ramBase ≤ entryPc.toNat ∧ entryPc.toNat + 4 ≤ p.ramBase + p.ramSize))

/-- 95_test_vectors.md section 2; THE MODEL'S CHOICE of parameters and entry (log 1, log 2): State.reset is the reset of the test
parameters with an empty payload, and it meets the invariant. -/
def Obligations.ModelResetMeetsInvariant : Prop :=
  hostReset { ramBase := 0x80000000, ramSize := 0x100000, windows := [], extraRoCsrs := [] } 0x80000000#64 0x80000000 [] =
    .ok State.reset ∧ State.reset.inv = true

/-! ### Whole-machine rules -/

/-- R34, R47 to R54, R58, R101, R360. Every step keeps the invariant: pc, mepc and sepc aligned, every CSR field legal, memory in
canonical form and in RAM, the reservation on an aligned address in RAM. -/
def Obligations.InvariantKeptByStep : Prop :=
  ∀ s t : State, s.inv = true → step s = .next t → t.inv = true

/-- D43 of 92_eei_decisions.md, R34, R79, R483. The machine never stops: every state that a successful reset, steps and posted
interrupts lead to meets the invariant, and its step answers a next state. -/
def Obligations.ReachableStatesNeverStop : Prop :=
  ∀ s : State, Reachable s → s.inv = true ∧ ∃ t, step s = .next t

/-- R61, R91, R397. A step either retires one instruction and counts it, or takes one trap and counts nothing. -/
def Obligations.InstretCountsRetirements : Prop :=
  ∀ s t : State, step s = .next t →
    (t.result = some .ok ∧ t.csr.instret = s.csr.instret + 1) ∨
    (∃ code intr tval, t.result = some (.trapped code intr tval) ∧ t.csr.instret = s.csr.instret)

/-- R92, R444, R445. A step that traps writes no register and no memory, meets no device, drops the reservation, enters M or S, and
changes no CSR but mstatus and one level's epc, cause and tval. -/
def Obligations.TrappedStepsWriteNothing : Prop :=
  ∀ (s t : State) (code : Nat) (intr : Bool) (tval : Word),
    step s = .next t → t.result = some (.trapped code intr tval) →
    t.regs = s.regs ∧ t.mem = s.mem ∧ NoHost s t ∧ t.resv = none ∧
    ((t.priv = .machine ∧ t.csr.mepc = s.pc ∧ t.csr.mtval = tval ∧
      t.csr = { s.csr with mepc := t.csr.mepc, mcause := t.csr.mcause, mtval := t.csr.mtval, mstatus := t.csr.mstatus }) ∨
     (t.priv = .supervisor ∧ s.priv ≠ .machine ∧ t.csr.sepc = s.pc ∧ t.csr.stval = tval ∧
      t.csr = { s.csr with sepc := t.csr.sepc, scause := t.csr.scause, stval := t.csr.stval, mstatus := t.csr.mstatus }))

/-- R36, R461. The mode changes only by a trap, which enters M or S, or by MRET or SRET; and the parameters never change. -/
def Obligations.ModeChanges : Prop :=
  ∀ s t : State, step s = .next t →
    t.platform = s.platform ∧
    (t.priv = s.priv ∨
      ((∃ code intr tval, t.result = some (.trapped code intr tval)) ∧ t.priv ≠ .user) ∨
      exec .mret s = .next t ∨ exec .sret s = .next t)

/-- R460, R41 to R43. An instruction that retires in U-mode changes no CSR but instret, and leaves the mode at U. -/
def Obligations.UserStepsKeepCsrs : Prop :=
  ∀ s t : State, s.priv = .user → step s = .next t → t.result = some .ok →
    t.priv = .user ∧ t.csr = { s.csr with instret := s.csr.instret + 1 }

/-- R462, R48, R50, R41 to R43. An instruction that retires in S-mode changes none of the M-level state: the M-level CSRs, MIE, MPIE
and MPP of mstatus, the enables of the M-level interrupts, and every pending bit but SSIP. -/
def Obligations.SupervisorStepsKeepMachineState : Prop :=
  ∀ s t : State, s.priv = .supervisor → step s = .next t → t.result = some .ok →
    t.priv ≠ .machine ∧ t.csr.mtvec = s.csr.mtvec ∧ t.csr.mscratch = s.csr.mscratch ∧ t.csr.mepc = s.csr.mepc ∧
    t.csr.mcause = s.csr.mcause ∧ t.csr.mtval = s.csr.mtval ∧ t.csr.medeleg = s.csr.medeleg ∧ t.csr.mideleg = s.csr.mideleg ∧
    KeepsOtherBits s.csr.mstatus t.csr.mstatus [1, 5, 8, 18, 19] ∧ KeepsOtherBits s.csr.mie t.csr.mie [1, 5, 9] ∧
    KeepsOtherBits s.csr.mip t.csr.mip [1]

/-- R360 (e), R445, R39. Only LR arms a reservation; a trap and an SC drop it; an instruction that retires and whose opcode is
neither STORE (0100011) nor AMO (0101111) leaves it. -/
def Obligations.ReservationChanges : Prop :=
  ∀ (i : Instr) (s t : State), exec i s = .next t →
    (t.resv = s.resv ∨ t.resv = none ∨ (∃ rd rs1 aq rl, i = .lrW rd rs1 aq rl ∨ i = .lrD rd rs1 aq rl)) ∧
    ((∃ rd rs1 rs2 aq rl, i = .scW rd rs1 rs2 aq rl ∨ i = .scD rd rs1 rs2 aq rl) → t.resv = none) ∧
    (t.result ≠ some .ok → t.resv = none) ∧
    (t.result = some .ok → (encode i).extractLsb' 0 7 ≠ 0b0100011#7 → (encode i).extractLsb' 0 7 ≠ 0b0101111#7 →
      t.resv = s.resv)

/-- R101, R140. A byte of memory reads as it was last written, writing one byte leaves every other byte, the canonical form is kept,
and two memories in canonical form that read alike are equal. -/
def Obligations.MemoryReadsLastWrite : Prop :=
  ∀ (m n : Memory) (k : Nat) (v : Byte), Memory.wf m = true →
    (∀ a, Memory.read (Memory.write m k v) a = if a = k then v else Memory.read m a) ∧
    Memory.wf (Memory.write m k v) = true ∧
    (Memory.wf n = true → (∀ a, Memory.read m a = Memory.read n a) → m = n)

/-- R31, R83. Reading a register after a write: x0 reads 0 whatever is written, any other register reads what was last written. -/
def Obligations.RegisterReadsLastWrite : Prop :=
  ∀ (s : State) (r q : Reg) (v : Word),
    s.reg 0 = 0 ∧ s.setReg 0 v = s ∧ (s.setReg r v).reg q = (if q = 0 then 0 else if q = r then v else s.reg q)

/-- R79 (c), (d), R49. Posting sets or clears exactly the one bit of mip. Introspection answers, in every mode, each register, pc, the
mode, each of the 19 writable CSRs, instret, an extra CSR and a draw for cycle and time, and changes no architectural state; that a
draw is a constant applied to the draw counter, which it uses up, is THE MODEL'S form of it (log 3, log 17). -/
def Obligations.HostInterfaceEffects : Prop :=
  ∀ (s : State) (i : HostIrq) (level : Bool) (a : CsrAddr) (r : Reg),
    (hostReadReg s r = (if h : r = 0 then 0 else s.regs[r.toNat - 1]'(by omega)) ∧ hostReadPc s = s.pc ∧
      hostReadPriv s = (match s.priv with | .user => 0 | .supervisor => 1 | .machine => 3)) ∧
    (∀ c ∈ writableCsrs, hostReadCsr s c.addr = some (c.view s.csr, s)) ∧
    hostReadCsr s 0xC02#12 = some (s.csr.instret, s) ∧
    (∀ c, s.platform.wf = true → (a, c) ∈ s.platform.extraRoCsrs → hostReadCsr s a = some (c, s)) ∧
    hostReadCsr s 0xC00#12 = some (Config.cycleRead s.draws, { s with draws := s.draws + 1 }) ∧
    hostReadCsr s 0xC01#12 = some (Config.timeRead s.draws, { s with draws := s.draws + 1 }) ∧
    (hostPostInterrupt i level s).csr.mip.getLsbD i.bit = level ∧
    KeepsOtherBits s.csr.mip (hostPostInterrupt i level s).csr.mip [i.bit] ∧
    hostPostInterrupt i level s = { s with csr := { s.csr with mip := (hostPostInterrupt i level s).csr.mip } } ∧
    (∀ v t, hostReadCsr s a = some (v, t) → t = { s with draws := t.draws })

/-- R179, R200, R221. The two-instruction expansion of `li rd, imm` with a 32-bit immediate leaves the sign-extended immediate. -/
def Obligations.LoadImmediateExpansion : Prop :=
  ∀ (s : State) (rd : Reg) (imm : BitVec 32), rd ≠ 0 →
    ∃ i j t u, (Pseudo.liWide rd imm).expand = [i, j] ∧ exec i s = .next t ∧ exec j t = .next u ∧ u.reg rd = imm.signExtend 64 ∧
      u.pc = s.pc + 8 ∧ ∀ r, r ≠ rd → u.reg r = s.reg r

/-- R36, R49, R420, R421. The numbers behind the names the other statements use: the modes, the exception codes, the interrupt codes
(which are the bits of mip and mie), and the bits of mip that the host posts. -/
def Obligations.ModeAndCauseCodes : Prop :=
  (Priv.user.code = 0 ∧ Priv.supervisor.code = 1 ∧ Priv.machine.code = 3) ∧
  (ExcCause.instrAddrMisaligned.code = 0 ∧ ExcCause.instrAccessFault.code = 1 ∧ ExcCause.illegalInstr.code = 2 ∧
    ExcCause.breakpoint.code = 3 ∧ ExcCause.loadAccessFault.code = 5 ∧ ExcCause.storeAccessFault.code = 7 ∧
    ExcCause.ecallFromU.code = 8 ∧ ExcCause.ecallFromS.code = 9 ∧ ExcCause.ecallFromM.code = 11 ∧
    ExcCause.instrPageFault.code = 12 ∧ ExcCause.loadPageFault.code = 13 ∧ ExcCause.storePageFault.code = 15) ∧
  (Irq.supervisorSoftware.code = 1 ∧ Irq.machineSoftware.code = 3 ∧ Irq.supervisorTimer.code = 5 ∧ Irq.machineTimer.code = 7 ∧
    Irq.supervisorExternal.code = 9 ∧ Irq.machineExternal.code = 11) ∧
  (HostIrq.msip.bit = 3 ∧ HostIrq.mtip.bit = 7 ∧ HostIrq.meip.bit = 11 ∧ HostIrq.seip.bit = 9)
end

