-- ==== Sys2Proof/Laws/State.lean ====
section
/-! SUPPORT. For each named update of the state, what each field holds after it, so that no later proof unfolds a record update. -/

namespace Sys2Proof.Machine

/-! ### setReg -/

@[simp] theorem State.setReg_pc (s : State) (r : Reg) (v : Word) : (s.setReg r v).pc = s.pc := by
  unfold State.setReg; split <;> rfl
@[simp] theorem State.setReg_priv (s : State) (r : Reg) (v : Word) : (s.setReg r v).priv = s.priv := by
  unfold State.setReg; split <;> rfl
@[simp] theorem State.setReg_resv (s : State) (r : Reg) (v : Word) : (s.setReg r v).resv = s.resv := by
  unfold State.setReg; split <;> rfl
@[simp] theorem State.setReg_csr (s : State) (r : Reg) (v : Word) : (s.setReg r v).csr = s.csr := by
  unfold State.setReg; split <;> rfl
@[simp] theorem State.setReg_mem (s : State) (r : Reg) (v : Word) : (s.setReg r v).mem = s.mem := by
  unfold State.setReg; split <;> rfl
@[simp] theorem State.setReg_platform (s : State) (r : Reg) (v : Word) : (s.setReg r v).platform = s.platform := by
  unfold State.setReg; split <;> rfl
@[simp] theorem State.setReg_draws (s : State) (r : Reg) (v : Word) : (s.setReg r v).draws = s.draws := by
  unfold State.setReg; split <;> rfl
@[simp] theorem State.setReg_events (s : State) (r : Reg) (v : Word) : (s.setReg r v).events = s.events := by
  unfold State.setReg; split <;> rfl
@[simp] theorem State.setReg_result (s : State) (r : Reg) (v : Word) : (s.setReg r v).result = s.result := by
  unfold State.setReg; split <;> rfl

/-! ### retire -/

@[simp] theorem retire_regs (p : Word) (s : State) : (retire p s).regs = s.regs := rfl
@[simp] theorem retire_pc (p : Word) (s : State) : (retire p s).pc = p := rfl
@[simp] theorem retire_priv (p : Word) (s : State) : (retire p s).priv = s.priv := rfl
@[simp] theorem retire_resv (p : Word) (s : State) : (retire p s).resv = s.resv := rfl
@[simp] theorem retire_csr (p : Word) (s : State) : (retire p s).csr = { s.csr with instret := s.csr.instret + 1 } := rfl
@[simp] theorem retire_mem (p : Word) (s : State) : (retire p s).mem = s.mem := rfl
@[simp] theorem retire_platform (p : Word) (s : State) : (retire p s).platform = s.platform := rfl
@[simp] theorem retire_draws (p : Word) (s : State) : (retire p s).draws = s.draws := rfl
@[simp] theorem retire_events (p : Word) (s : State) : (retire p s).events = s.events := rfl
@[simp] theorem retire_result (p : Word) (s : State) : (retire p s).result = some .ok := rfl

/-! ### enterM -/

@[simp] theorem enterM_regs (c : Cause) (tval epc : Word) (s : State) : (enterM c tval epc s).regs = s.regs := rfl
@[simp] theorem enterM_pc (c : Cause) (tval epc : Word) (s : State) : (enterM c tval epc s).pc = trapVector s.csr.mtvec c := rfl
@[simp] theorem enterM_priv (c : Cause) (tval epc : Word) (s : State) : (enterM c tval epc s).priv = .machine := rfl
@[simp] theorem enterM_resv (c : Cause) (tval epc : Word) (s : State) : (enterM c tval epc s).resv = none := rfl
@[simp] theorem enterM_csr (c : Cause) (tval epc : Word) (s : State) : (enterM c tval epc s).csr = { s.csr with mepc := epc, mcause := causeWord c, mtval := tval, mstatus := mstatusEnterM s.csr.mstatus s.priv } := rfl
@[simp] theorem enterM_mem (c : Cause) (tval epc : Word) (s : State) : (enterM c tval epc s).mem = s.mem := rfl
@[simp] theorem enterM_platform (c : Cause) (tval epc : Word) (s : State) : (enterM c tval epc s).platform = s.platform := rfl
@[simp] theorem enterM_draws (c : Cause) (tval epc : Word) (s : State) : (enterM c tval epc s).draws = s.draws := rfl
@[simp] theorem enterM_events (c : Cause) (tval epc : Word) (s : State) : (enterM c tval epc s).events = s.events := rfl
@[simp] theorem enterM_result (c : Cause) (tval epc : Word) (s : State) : (enterM c tval epc s).result = some (trapResult c tval) := rfl

/-! ### enterS -/

@[simp] theorem enterS_regs (c : Cause) (tval epc : Word) (s : State) : (enterS c tval epc s).regs = s.regs := rfl
@[simp] theorem enterS_pc (c : Cause) (tval epc : Word) (s : State) : (enterS c tval epc s).pc = trapVector s.csr.stvec c := rfl
@[simp] theorem enterS_priv (c : Cause) (tval epc : Word) (s : State) : (enterS c tval epc s).priv = .supervisor := rfl
@[simp] theorem enterS_resv (c : Cause) (tval epc : Word) (s : State) : (enterS c tval epc s).resv = none := rfl
@[simp] theorem enterS_csr (c : Cause) (tval epc : Word) (s : State) : (enterS c tval epc s).csr = { s.csr with sepc := epc, scause := causeWord c, stval := tval, mstatus := mstatusEnterS s.csr.mstatus s.priv } := rfl
@[simp] theorem enterS_mem (c : Cause) (tval epc : Word) (s : State) : (enterS c tval epc s).mem = s.mem := rfl
@[simp] theorem enterS_platform (c : Cause) (tval epc : Word) (s : State) : (enterS c tval epc s).platform = s.platform := rfl
@[simp] theorem enterS_draws (c : Cause) (tval epc : Word) (s : State) : (enterS c tval epc s).draws = s.draws := rfl
@[simp] theorem enterS_events (c : Cause) (tval epc : Word) (s : State) : (enterS c tval epc s).events = s.events := rfl
@[simp] theorem enterS_result (c : Cause) (tval epc : Word) (s : State) : (enterS c tval epc s).result = some (trapResult c tval) := rfl

/-! ### takeTrap -/

@[simp] theorem takeTrap_regs (c : Cause) (tval epc : Word) (s : State) : (takeTrap c tval epc s).regs = s.regs := by
  unfold takeTrap; split <;> rfl
@[simp] theorem takeTrap_mem (c : Cause) (tval epc : Word) (s : State) : (takeTrap c tval epc s).mem = s.mem := by
  unfold takeTrap; split <;> rfl
@[simp] theorem takeTrap_platform (c : Cause) (tval epc : Word) (s : State) : (takeTrap c tval epc s).platform = s.platform := by
  unfold takeTrap; split <;> rfl
@[simp] theorem takeTrap_draws (c : Cause) (tval epc : Word) (s : State) : (takeTrap c tval epc s).draws = s.draws := by
  unfold takeTrap; split <;> rfl
@[simp] theorem takeTrap_events (c : Cause) (tval epc : Word) (s : State) : (takeTrap c tval epc s).events = s.events := by
  unfold takeTrap; split <;> rfl
@[simp] theorem takeTrap_resv (c : Cause) (tval epc : Word) (s : State) : (takeTrap c tval epc s).resv = none := by
  unfold takeTrap; split <;> rfl
@[simp] theorem takeTrap_result (c : Cause) (tval epc : Word) (s : State) : (takeTrap c tval epc s).result = some (trapResult c tval) := by
  unfold takeTrap; split <;> rfl
@[simp] theorem takeTrap_medeleg (c : Cause) (tval epc : Word) (s : State) : (takeTrap c tval epc s).csr.medeleg = s.csr.medeleg := by
  unfold takeTrap; split <;> rfl
@[simp] theorem takeTrap_mideleg (c : Cause) (tval epc : Word) (s : State) : (takeTrap c tval epc s).csr.mideleg = s.csr.mideleg := by
  unfold takeTrap; split <;> rfl
@[simp] theorem takeTrap_mie (c : Cause) (tval epc : Word) (s : State) : (takeTrap c tval epc s).csr.mie = s.csr.mie := by
  unfold takeTrap; split <;> rfl
@[simp] theorem takeTrap_mip (c : Cause) (tval epc : Word) (s : State) : (takeTrap c tval epc s).csr.mip = s.csr.mip := by
  unfold takeTrap; split <;> rfl
@[simp] theorem takeTrap_mtvec (c : Cause) (tval epc : Word) (s : State) : (takeTrap c tval epc s).csr.mtvec = s.csr.mtvec := by
  unfold takeTrap; split <;> rfl
@[simp] theorem takeTrap_mscratch (c : Cause) (tval epc : Word) (s : State) : (takeTrap c tval epc s).csr.mscratch = s.csr.mscratch := by
  unfold takeTrap; split <;> rfl
@[simp] theorem takeTrap_stvec (c : Cause) (tval epc : Word) (s : State) : (takeTrap c tval epc s).csr.stvec = s.csr.stvec := by
  unfold takeTrap; split <;> rfl
@[simp] theorem takeTrap_sscratch (c : Cause) (tval epc : Word) (s : State) : (takeTrap c tval epc s).csr.sscratch = s.csr.sscratch := by
  unfold takeTrap; split <;> rfl
@[simp] theorem takeTrap_satp (c : Cause) (tval epc : Word) (s : State) : (takeTrap c tval epc s).csr.satp = s.csr.satp := by
  unfold takeTrap; split <;> rfl
@[simp] theorem takeTrap_instret (c : Cause) (tval epc : Word) (s : State) : (takeTrap c tval epc s).csr.instret = s.csr.instret := by
  unfold takeTrap; split <;> rfl

/-! ### Device accesses -/

@[simp] theorem devReadOne_regs (s : State) (p : Word) (n : Nat) : (devReadOne s p n).2.regs = s.regs := rfl
@[simp] theorem devReadOne_pc (s : State) (p : Word) (n : Nat) : (devReadOne s p n).2.pc = s.pc := rfl
@[simp] theorem devReadOne_priv (s : State) (p : Word) (n : Nat) : (devReadOne s p n).2.priv = s.priv := rfl
@[simp] theorem devReadOne_resv (s : State) (p : Word) (n : Nat) : (devReadOne s p n).2.resv = s.resv := rfl
@[simp] theorem devReadOne_csr (s : State) (p : Word) (n : Nat) : (devReadOne s p n).2.csr = s.csr := rfl
@[simp] theorem devReadOne_mem (s : State) (p : Word) (n : Nat) : (devReadOne s p n).2.mem = s.mem := rfl
@[simp] theorem devReadOne_platform (s : State) (p : Word) (n : Nat) : (devReadOne s p n).2.platform = s.platform := rfl
@[simp] theorem devReadOne_draws (s : State) (p : Word) (n : Nat) : (devReadOne s p n).2.draws = s.draws + 1 := rfl
@[simp] theorem devReadOne_events (s : State) (p : Word) (n : Nat) : (devReadOne s p n).2.events = s.events ++ [.read p n] := rfl
@[simp] theorem devReadOne_result (s : State) (p : Word) (n : Nat) : (devReadOne s p n).2.result = s.result := rfl
@[simp] theorem devWriteOne_regs (s : State) (p : Word) (n : Nat) (v : Word) : (devWriteOne s p n v).regs = s.regs := rfl
@[simp] theorem devWriteOne_pc (s : State) (p : Word) (n : Nat) (v : Word) : (devWriteOne s p n v).pc = s.pc := rfl
@[simp] theorem devWriteOne_priv (s : State) (p : Word) (n : Nat) (v : Word) : (devWriteOne s p n v).priv = s.priv := rfl
@[simp] theorem devWriteOne_resv (s : State) (p : Word) (n : Nat) (v : Word) : (devWriteOne s p n v).resv = s.resv := rfl
@[simp] theorem devWriteOne_csr (s : State) (p : Word) (n : Nat) (v : Word) : (devWriteOne s p n v).csr = s.csr := rfl
@[simp] theorem devWriteOne_mem (s : State) (p : Word) (n : Nat) (v : Word) : (devWriteOne s p n v).mem = s.mem := rfl
@[simp] theorem devWriteOne_platform (s : State) (p : Word) (n : Nat) (v : Word) : (devWriteOne s p n v).platform = s.platform := rfl
@[simp] theorem devWriteOne_draws (s : State) (p : Word) (n : Nat) (v : Word) : (devWriteOne s p n v).draws = s.draws := rfl
@[simp] theorem devWriteOne_events (s : State) (p : Word) (n : Nat) (v : Word) : (devWriteOne s p n v).events = s.events ++ [.write p n v] := rfl
@[simp] theorem devWriteOne_result (s : State) (p : Word) (n : Nat) (v : Word) : (devWriteOne s p n v).result = s.result := rfl
@[simp] theorem devReadBytes_regs (s : State) (ps : List Word) : (devReadBytes s ps).2.regs = s.regs := by
  induction ps generalizing s with
  | nil => rfl
  | cons p ps ih => simp [devReadBytes, ih]
@[simp] theorem devReadBytes_pc (s : State) (ps : List Word) : (devReadBytes s ps).2.pc = s.pc := by
  induction ps generalizing s with
  | nil => rfl
  | cons p ps ih => simp [devReadBytes, ih]
@[simp] theorem devReadBytes_priv (s : State) (ps : List Word) : (devReadBytes s ps).2.priv = s.priv := by
  induction ps generalizing s with
  | nil => rfl
  | cons p ps ih => simp [devReadBytes, ih]
@[simp] theorem devReadBytes_resv (s : State) (ps : List Word) : (devReadBytes s ps).2.resv = s.resv := by
  induction ps generalizing s with
  | nil => rfl
  | cons p ps ih => simp [devReadBytes, ih]
@[simp] theorem devReadBytes_csr (s : State) (ps : List Word) : (devReadBytes s ps).2.csr = s.csr := by
  induction ps generalizing s with
  | nil => rfl
  | cons p ps ih => simp [devReadBytes, ih]
@[simp] theorem devReadBytes_mem (s : State) (ps : List Word) : (devReadBytes s ps).2.mem = s.mem := by
  induction ps generalizing s with
  | nil => rfl
  | cons p ps ih => simp [devReadBytes, ih]
@[simp] theorem devReadBytes_platform (s : State) (ps : List Word) : (devReadBytes s ps).2.platform = s.platform := by
  induction ps generalizing s with
  | nil => rfl
  | cons p ps ih => simp [devReadBytes, ih]
@[simp] theorem devReadBytes_result (s : State) (ps : List Word) : (devReadBytes s ps).2.result = s.result := by
  induction ps generalizing s with
  | nil => rfl
  | cons p ps ih => simp [devReadBytes, ih]
@[simp] theorem devWriteBytes_regs (s : State) (ps : List Word) (bs : List Byte) : (devWriteBytes s ps bs).regs = s.regs := by
  induction ps generalizing s bs with
  | nil => rfl
  | cons p ps ih => cases bs with
    | nil => rfl
    | cons b bs => simp [devWriteBytes, ih]
@[simp] theorem devWriteBytes_pc (s : State) (ps : List Word) (bs : List Byte) : (devWriteBytes s ps bs).pc = s.pc := by
  induction ps generalizing s bs with
  | nil => rfl
  | cons p ps ih => cases bs with
    | nil => rfl
    | cons b bs => simp [devWriteBytes, ih]
@[simp] theorem devWriteBytes_priv (s : State) (ps : List Word) (bs : List Byte) : (devWriteBytes s ps bs).priv = s.priv := by
  induction ps generalizing s bs with
  | nil => rfl
  | cons p ps ih => cases bs with
    | nil => rfl
    | cons b bs => simp [devWriteBytes, ih]
@[simp] theorem devWriteBytes_resv (s : State) (ps : List Word) (bs : List Byte) : (devWriteBytes s ps bs).resv = s.resv := by
  induction ps generalizing s bs with
  | nil => rfl
  | cons p ps ih => cases bs with
    | nil => rfl
    | cons b bs => simp [devWriteBytes, ih]
@[simp] theorem devWriteBytes_csr (s : State) (ps : List Word) (bs : List Byte) : (devWriteBytes s ps bs).csr = s.csr := by
  induction ps generalizing s bs with
  | nil => rfl
  | cons p ps ih => cases bs with
    | nil => rfl
    | cons b bs => simp [devWriteBytes, ih]
@[simp] theorem devWriteBytes_mem (s : State) (ps : List Word) (bs : List Byte) : (devWriteBytes s ps bs).mem = s.mem := by
  induction ps generalizing s bs with
  | nil => rfl
  | cons p ps ih => cases bs with
    | nil => rfl
    | cons b bs => simp [devWriteBytes, ih]
@[simp] theorem devWriteBytes_platform (s : State) (ps : List Word) (bs : List Byte) : (devWriteBytes s ps bs).platform = s.platform := by
  induction ps generalizing s bs with
  | nil => rfl
  | cons p ps ih => cases bs with
    | nil => rfl
    | cons b bs => simp [devWriteBytes, ih]
@[simp] theorem devWriteBytes_draws (s : State) (ps : List Word) (bs : List Byte) : (devWriteBytes s ps bs).draws = s.draws := by
  induction ps generalizing s bs with
  | nil => rfl
  | cons p ps ih => cases bs with
    | nil => rfl
    | cons b bs => simp [devWriteBytes, ih]
@[simp] theorem devWriteBytes_result (s : State) (ps : List Word) (bs : List Byte) : (devWriteBytes s ps bs).result = s.result := by
  induction ps generalizing s bs with
  | nil => rfl
  | cons p ps ih => cases bs with
    | nil => rfl
    | cons b bs => simp [devWriteBytes, ih]

/-! ### CSR accesses -/

@[simp] theorem afterCsrRead_regs (s : State) (a : CsrAddr) : (afterCsrRead s a).regs = s.regs := by
  unfold afterCsrRead; split <;> rfl
@[simp] theorem afterCsrRead_pc (s : State) (a : CsrAddr) : (afterCsrRead s a).pc = s.pc := by
  unfold afterCsrRead; split <;> rfl
@[simp] theorem afterCsrRead_priv (s : State) (a : CsrAddr) : (afterCsrRead s a).priv = s.priv := by
  unfold afterCsrRead; split <;> rfl
@[simp] theorem afterCsrRead_resv (s : State) (a : CsrAddr) : (afterCsrRead s a).resv = s.resv := by
  unfold afterCsrRead; split <;> rfl
@[simp] theorem afterCsrRead_csr (s : State) (a : CsrAddr) : (afterCsrRead s a).csr = s.csr := by
  unfold afterCsrRead; split <;> rfl
@[simp] theorem afterCsrRead_mem (s : State) (a : CsrAddr) : (afterCsrRead s a).mem = s.mem := by
  unfold afterCsrRead; split <;> rfl
@[simp] theorem afterCsrRead_platform (s : State) (a : CsrAddr) : (afterCsrRead s a).platform = s.platform := by
  unfold afterCsrRead; split <;> rfl
@[simp] theorem afterCsrRead_events (s : State) (a : CsrAddr) : (afterCsrRead s a).events = s.events := by
  unfold afterCsrRead; split <;> rfl
@[simp] theorem afterCsrRead_result (s : State) (a : CsrAddr) : (afterCsrRead s a).result = s.result := by
  unfold afterCsrRead; split <;> rfl
@[simp] theorem csrWrite_regs (s : State) (a : CsrAddr) (v : Word) : (csrWrite s a v).regs = s.regs := by
  unfold csrWrite; split <;> rfl
@[simp] theorem csrWrite_pc (s : State) (a : CsrAddr) (v : Word) : (csrWrite s a v).pc = s.pc := by
  unfold csrWrite; split <;> rfl
@[simp] theorem csrWrite_priv (s : State) (a : CsrAddr) (v : Word) : (csrWrite s a v).priv = s.priv := by
  unfold csrWrite; split <;> rfl
@[simp] theorem csrWrite_resv (s : State) (a : CsrAddr) (v : Word) : (csrWrite s a v).resv = s.resv := by
  unfold csrWrite; split <;> rfl
@[simp] theorem csrWrite_mem (s : State) (a : CsrAddr) (v : Word) : (csrWrite s a v).mem = s.mem := by
  unfold csrWrite; split <;> rfl
@[simp] theorem csrWrite_platform (s : State) (a : CsrAddr) (v : Word) : (csrWrite s a v).platform = s.platform := by
  unfold csrWrite; split <;> rfl
@[simp] theorem csrWrite_draws (s : State) (a : CsrAddr) (v : Word) : (csrWrite s a v).draws = s.draws := by
  unfold csrWrite; split <;> rfl
@[simp] theorem csrWrite_events (s : State) (a : CsrAddr) (v : Word) : (csrWrite s a v).events = s.events := by
  unfold csrWrite; split <;> rfl
@[simp] theorem csrWrite_result (s : State) (a : CsrAddr) (v : Word) : (csrWrite s a v).result = s.result := by
  unfold csrWrite; split <;> rfl
@[simp] theorem csrStore_instret (f : CsrFile) (c : Csr) (v : Word) : (csrStore f c v).instret = f.instret := by
  cases c <;> rfl
@[simp] theorem csrWrite_instret (s : State) (a : CsrAddr) (v : Word) : (csrWrite s a v).csr.instret = s.csr.instret := by
  unfold csrWrite; split <;> simp

/-! ### The host -/

@[simp] theorem hostPostInterrupt_regs (i : HostIrq) (l : Bool) (s : State) : (hostPostInterrupt i l s).regs = s.regs := rfl
@[simp] theorem hostPostInterrupt_pc (i : HostIrq) (l : Bool) (s : State) : (hostPostInterrupt i l s).pc = s.pc := rfl
@[simp] theorem hostPostInterrupt_priv (i : HostIrq) (l : Bool) (s : State) : (hostPostInterrupt i l s).priv = s.priv := rfl
@[simp] theorem hostPostInterrupt_resv (i : HostIrq) (l : Bool) (s : State) : (hostPostInterrupt i l s).resv = s.resv := rfl
@[simp] theorem hostPostInterrupt_mem (i : HostIrq) (l : Bool) (s : State) : (hostPostInterrupt i l s).mem = s.mem := rfl
@[simp] theorem hostPostInterrupt_platform (i : HostIrq) (l : Bool) (s : State) : (hostPostInterrupt i l s).platform = s.platform := rfl
@[simp] theorem hostPostInterrupt_draws (i : HostIrq) (l : Bool) (s : State) : (hostPostInterrupt i l s).draws = s.draws := rfl
@[simp] theorem hostPostInterrupt_events (i : HostIrq) (l : Bool) (s : State) : (hostPostInterrupt i l s).events = s.events := rfl
@[simp] theorem hostPostInterrupt_result (i : HostIrq) (l : Bool) (s : State) : (hostPostInterrupt i l s).result = s.result := rfl
@[simp] theorem hostPostInterrupt_mstatus (i : HostIrq) (l : Bool) (s : State) : (hostPostInterrupt i l s).csr.mstatus = s.csr.mstatus := rfl
@[simp] theorem hostPostInterrupt_medeleg (i : HostIrq) (l : Bool) (s : State) : (hostPostInterrupt i l s).csr.medeleg = s.csr.medeleg := rfl
@[simp] theorem hostPostInterrupt_mideleg (i : HostIrq) (l : Bool) (s : State) : (hostPostInterrupt i l s).csr.mideleg = s.csr.mideleg := rfl
@[simp] theorem hostPostInterrupt_mie (i : HostIrq) (l : Bool) (s : State) : (hostPostInterrupt i l s).csr.mie = s.csr.mie := rfl
@[simp] theorem hostPostInterrupt_mtvec (i : HostIrq) (l : Bool) (s : State) : (hostPostInterrupt i l s).csr.mtvec = s.csr.mtvec := rfl
@[simp] theorem hostPostInterrupt_mscratch (i : HostIrq) (l : Bool) (s : State) : (hostPostInterrupt i l s).csr.mscratch = s.csr.mscratch := rfl
@[simp] theorem hostPostInterrupt_mepc (i : HostIrq) (l : Bool) (s : State) : (hostPostInterrupt i l s).csr.mepc = s.csr.mepc := rfl
@[simp] theorem hostPostInterrupt_mcause (i : HostIrq) (l : Bool) (s : State) : (hostPostInterrupt i l s).csr.mcause = s.csr.mcause := rfl
@[simp] theorem hostPostInterrupt_mtval (i : HostIrq) (l : Bool) (s : State) : (hostPostInterrupt i l s).csr.mtval = s.csr.mtval := rfl
@[simp] theorem hostPostInterrupt_stvec (i : HostIrq) (l : Bool) (s : State) : (hostPostInterrupt i l s).csr.stvec = s.csr.stvec := rfl
@[simp] theorem hostPostInterrupt_sscratch (i : HostIrq) (l : Bool) (s : State) : (hostPostInterrupt i l s).csr.sscratch = s.csr.sscratch := rfl
@[simp] theorem hostPostInterrupt_sepc (i : HostIrq) (l : Bool) (s : State) : (hostPostInterrupt i l s).csr.sepc = s.csr.sepc := rfl
@[simp] theorem hostPostInterrupt_scause (i : HostIrq) (l : Bool) (s : State) : (hostPostInterrupt i l s).csr.scause = s.csr.scause := rfl
@[simp] theorem hostPostInterrupt_stval (i : HostIrq) (l : Bool) (s : State) : (hostPostInterrupt i l s).csr.stval = s.csr.stval := rfl
@[simp] theorem hostPostInterrupt_satp (i : HostIrq) (l : Bool) (s : State) : (hostPostInterrupt i l s).csr.satp = s.csr.satp := rfl
@[simp] theorem hostPostInterrupt_instret (i : HostIrq) (l : Bool) (s : State) : (hostPostInterrupt i l s).csr.instret = s.csr.instret := rfl

end Sys2Proof.Machine
end

