-- ==== Sys2Proof/Laws/Registers.lean ====
section
/-! SUPPORT. Reading and writing the general registers (10_state.md R31, R83). -/

namespace Sys2Proof.Machine

@[simp] theorem State.reg_zero (s : State) : s.reg 0 = 0 := rfl

@[simp] theorem State.setReg_zero (s : State) (v : Word) : s.setReg 0 v = s := rfl

theorem State.reg_congr {s t : State} (h : t.regs = s.regs) (r : Reg) : t.reg r = s.reg r := by
  unfold State.reg; rw [h]

theorem regIndex_inj {r q : Reg} (hr : r ≠ 0) (hq : q ≠ 0) (h : r.toNat - 1 = q.toNat - 1) : r = q := by
  have h1 : r.toNat ≠ 0 := fun h0 => hr (BitVec.eq_of_toNat_eq (by simpa using h0))
  have h2 : q.toNat ≠ 0 := fun h0 => hq (BitVec.eq_of_toNat_eq (by simpa using h0))
  exact BitVec.eq_of_toNat_eq (by omega)

/-- Reading a register after a write. -/
theorem State.reg_setReg (s : State) (r q : Reg) (v : Word) :
    (s.setReg r v).reg q = if q = 0 then 0 else if q = r then v else s.reg q := by
  by_cases hq : q = 0
  · rw [if_pos hq, hq]; rfl
  rw [if_neg hq]
  by_cases hr : r = 0
  · rw [hr, if_neg hq]; rfl
  · unfold State.reg State.setReg
    rw [if_neg hr, if_neg hq, if_neg hq]
    by_cases hqr : q = r
    · subst hqr
      rw [if_pos rfl]
      exact Vector.getElem_set_self _
    · rw [if_neg hqr]
      exact Vector.getElem_set_ne (regIndex_lt r) (regIndex_lt q) fun h => hqr (regIndex_inj hr hq h).symm

@[simp] theorem reg_retire (p : Word) (s : State) (r : Reg) : (retire p s).reg r = s.reg r := rfl

@[simp] theorem reg_takeTrap (c : Cause) (tval epc : Word) (s : State) (r : Reg) :
    (takeTrap c tval epc s).reg r = s.reg r := State.reg_congr (takeTrap_regs ..) r

@[simp] theorem reg_csrWrite (s : State) (a : CsrAddr) (v : Word) (r : Reg) : (csrWrite s a v).reg r = s.reg r :=
  State.reg_congr (csrWrite_regs ..) r

@[simp] theorem reg_afterCsrRead (s : State) (a : CsrAddr) (r : Reg) : (afterCsrRead s a).reg r = s.reg r :=
  State.reg_congr (afterCsrRead_regs ..) r

@[simp] theorem reg_devReadBytes (s : State) (ps : List Word) (r : Reg) : (devReadBytes s ps).2.reg r = s.reg r :=
  State.reg_congr (devReadBytes_regs ..) r

@[simp] theorem reg_devWriteBytes (s : State) (ps : List Word) (bs : List Byte) (r : Reg) :
    (devWriteBytes s ps bs).reg r = s.reg r := State.reg_congr (devWriteBytes_regs ..) r

end Sys2Proof.Machine
end

