-- ==== Sys2Proof/Laws/Bits.lean ====
section
/-! SUPPORT. The fields of the status registers, bit by bit (10_state.md R47; 60_exceptions.md R441, R442; 46_system.md R393, R394). -/

namespace Sys2Proof.Machine

theorem getBit_eq (w : Word) (i : Nat) : getBit w i = w.getLsbD i := rfl

/-- Bit `j` after setting bit `i`. -/
theorem setBit_getLsbD (w : Word) (i : Nat) (b : Bool) (j : Nat) (hi : i < 64) :
    (setBit w i b).getLsbD j = if j = i then b else w.getLsbD j := by
  by_cases hj : j < 64
  · have hb : (1#64 <<< i).getLsbD j = decide (j = i) := by
      rw [BitVec.getLsbD_shiftLeft, BitVec.getLsbD_one]
      by_cases h : j = i
      · simp [h, hi]
      · by_cases hl : j < i
        · simp [h, hl]
        · simp [h, show j - i ≠ 0 by omega]
    have h0 : ∀ k, (0 : Word).getLsbD k = false := fun k => BitVec.getLsbD_zero
    unfold setBit
    rw [BitVec.getLsbD_or, BitVec.getLsbD_and, BitVec.getLsbD_not, hb]
    cases b
    · rw [if_neg (by decide), h0]
      by_cases h : j = i <;> simp [h, hj]
    · rw [if_pos rfl, hb]
      by_cases h : j = i <;> simp [h, hj]
  · have : j ≠ i := by omega
    simp [BitVec.getLsbD_of_ge _ j (Nat.le_of_not_lt hj), this]

/-- Bit `j` after replacing MPP. -/
theorem setMpp_getLsbD (w : Word) (v : BitVec 2) (j : Nat) :
    (setMpp w v).getLsbD j = if j = 11 then v.getLsbD 0 else if j = 12 then v.getLsbD 1 else w.getLsbD j := by
  by_cases hj : j < 64
  · have hm : (0x1800#64).getLsbD j = (decide (j = 11) || decide (j = 12)) := by
      have : ∀ k : Fin 64, (0x1800#64).getLsbD k.val = (decide (k.val = 11) || decide (k.val = 12)) := by decide
      exact this ⟨j, hj⟩
    simp only [setMpp, BitVec.getLsbD_or, BitVec.getLsbD_and, BitVec.getLsbD_not, BitVec.getLsbD_shiftLeft, BitVec.getLsbD_setWidth, hm]
    by_cases h11 : j = 11
    · subst h11; simp
    · by_cases h12 : j = 12
      · subst h12; simp
      · have hz : j < 11 ∨ v.getLsbD (j - 11) = false := by
          by_cases h : j < 11
          · exact .inl h
          · exact .inr (BitVec.getLsbD_of_ge _ _ (by omega))
        rcases hz with hz | hz <;> simp [hj, h11, h12, hz]
  · have h11 : j ≠ 11 := by omega
    have h12 : j ≠ 12 := by omega
    simp [BitVec.getLsbD_of_ge _ j (Nat.le_of_not_lt hj), h11, h12]

theorem getMpp_eq (w : Word) : (getMpp w).toNat = w.toNat / 2 ^ 11 % 4 := by
  simp [getMpp, BitVec.extractLsb'_toNat, Nat.shiftRight_eq_div_pow]

theorem getMpp_ext {v w : Word} (h1 : v.getLsbD 11 = w.getLsbD 11) (h2 : v.getLsbD 12 = w.getLsbD 12) :
    getMpp v = getMpp w := by
  apply BitVec.eq_of_getLsbD_eq
  intro i hi
  have : i = 0 ∨ i = 1 := by omega
  rcases this with rfl | rfl <;> simp only [getMpp, BitVec.getLsbD_extractLsb', h1, h2, Nat.add_zero, Nat.reduceAdd]

@[simp] theorem getMpp_setMpp (w : Word) (v : BitVec 2) : getMpp (setMpp w v) = v := by
  apply BitVec.eq_of_getLsbD_eq
  intro i hi
  have : i = 0 ∨ i = 1 := by omega
  rcases this with rfl | rfl <;>
    simp only [getMpp, BitVec.getLsbD_extractLsb', setMpp_getLsbD, Nat.add_zero, Nat.reduceAdd] <;> rfl

@[simp] theorem getMpp_setBit (w : Word) (i : Nat) (b : Bool) (hi : i < 11) : getMpp (setBit w i b) = getMpp w :=
  getMpp_ext (by rw [setBit_getLsbD _ _ _ _ (by omega), if_neg (by omega)])
    (by rw [setBit_getLsbD _ _ _ _ (by omega), if_neg (by omega)])

/-- R45: a write through a mask, bit by bit. -/
theorem mergeMasked_getLsbD (old mask v : Word) (j : Nat) :
    (mergeMasked old mask v).getLsbD j = if mask.getLsbD j then v.getLsbD j else old.getLsbD j := by
  by_cases hj : j < 64
  · rw [mergeMasked, BitVec.getLsbD_or, BitVec.getLsbD_and, BitVec.getLsbD_and, BitVec.getLsbD_not]
    cases h : mask.getLsbD j <;> simp [-BitVec.getLsbD_eq_getElem, hj]
  · simp [BitVec.getLsbD_of_ge _ j (Nat.le_of_not_lt hj)]

/-! ### mstatus on trap entry and return -/

/-- R441: MPIE takes MIE, MIE is 0, MPP is the mode, every other bit stays. -/
theorem mstatusEnterM_getLsbD (m : Word) (p : Priv) (j : Nat) :
    (mstatusEnterM m p).getLsbD j =
      if j = 11 then p.code.getLsbD 0 else if j = 12 then p.code.getLsbD 1 else if j = 3 then false
      else if j = 7 then m.getLsbD 3 else m.getLsbD j := by
  simp only [mstatusEnterM, setMpp_getLsbD, getBit, bitMIE, bitMPIE]
  rw [setBit_getLsbD _ _ _ _ (by decide), setBit_getLsbD _ _ _ _ (by decide)]

/-- R442: SPIE takes SIE, SIE is 0, SPP tells S from U, every other bit stays. -/
theorem mstatusEnterS_getLsbD (m : Word) (p : Priv) (j : Nat) :
    (mstatusEnterS m p).getLsbD j =
      if j = 8 then p != .user else if j = 1 then false else if j = 5 then m.getLsbD 1 else m.getLsbD j := by
  simp only [mstatusEnterS, getBit, bitSIE, bitSPIE, bitSPP]
  rw [setBit_getLsbD _ _ _ _ (by decide), setBit_getLsbD _ _ _ _ (by decide), setBit_getLsbD _ _ _ _ (by decide)]

/-- R393: MIE takes MPIE, MPIE is 1, MPP is U, every other bit stays. -/
theorem mstatusMret_getLsbD (m : Word) (j : Nat) :
    (mstatusMret m).getLsbD j =
      if j = 11 then false else if j = 12 then false else if j = 7 then true else if j = 3 then m.getLsbD 7 else m.getLsbD j := by
  simp only [mstatusMret, setMpp_getLsbD, getBit, bitMIE, bitMPIE]
  rw [setBit_getLsbD _ _ _ _ (by decide), setBit_getLsbD _ _ _ _ (by decide)]
  simp

/-- R394: SIE takes SPIE, SPIE is 1, SPP is U, every other bit stays. -/
theorem mstatusSret_getLsbD (m : Word) (j : Nat) :
    (mstatusSret m).getLsbD j =
      if j = 8 then false else if j = 5 then true else if j = 1 then m.getLsbD 5 else m.getLsbD j := by
  simp only [mstatusSret, getBit, bitSIE, bitSPIE, bitSPP]
  rw [setBit_getLsbD _ _ _ _ (by decide), setBit_getLsbD _ _ _ _ (by decide), setBit_getLsbD _ _ _ _ (by decide)]

end Sys2Proof.Machine
end

