-- ==== Sys2Proof/Laws/Memory.lean ====
section
/-! SUPPORT. Memory: every operation keeps the canonical form, a byte reads as it was last written, and a memory in canonical form
is determined by what it reads as (20_memory.md R101, R140). -/

namespace Sys2Proof.Machine

/-- Every listed address is above `k`. -/
def Memory.above (k : Nat) (m : Memory) : Prop := ∀ c ∈ m, k < c.1

theorem Memory.wf_cons {a : Nat} {b : Byte} {m : Memory} :
    Memory.wf ((a, b) :: m) = true ↔ b ≠ unlistedByte ∧ Memory.above a m ∧ Memory.wf m = true := by
  simp [Memory.wf, Memory.above, and_assoc]

theorem Memory.read_above {k : Nat} {m : Memory} (h : Memory.above k m) : Memory.read m k = unlistedByte := by
  cases m with
  | nil => rfl
  | cons c m =>
    obtain ⟨a, b⟩ := c
    have : k < a := h (a, b) (by simp)
    simp [Memory.read, this, Nat.ne_of_lt this]

theorem Memory.read_of_lt {k a : Nat} {m : Memory} (h : Memory.above a m) (hk : k ≤ a) : Memory.read m k = unlistedByte :=
  Memory.read_above fun c hc => Nat.lt_of_le_of_lt hk (h c hc)

theorem consCell_above {j k : Nat} {v : Byte} {m : Memory} (hk : j < k) (h : Memory.above j m) :
    Memory.above j (consCell k v m) := by
  unfold consCell
  split
  · exact h
  · intro c hc
    rcases List.mem_cons.1 hc with rfl | hc
    · exact hk
    · exact h c hc

theorem Memory.write_above {j k : Nat} {v : Byte} {m : Memory} (hk : j < k) (h : Memory.above j m) :
    Memory.above j (Memory.write m k v) := by
  induction m with
  | nil => exact consCell_above hk h
  | cons c m ih =>
    obtain ⟨a, b⟩ := c
    have hm : Memory.above j m := fun c hc => h c (List.mem_cons_of_mem _ hc)
    have ha : j < a := h (a, b) (by simp)
    simp only [Memory.write]
    split
    · exact consCell_above hk h
    · split
      · exact consCell_above hk hm
      · intro c hc
        rcases List.mem_cons.1 hc with rfl | hc
        · exact ha
        · exact ih hm c hc

theorem consCell_wf {k : Nat} {v : Byte} {m : Memory} (h : Memory.above k m) (hm : Memory.wf m = true) :
    Memory.wf (consCell k v m) = true := by
  unfold consCell
  split
  · exact hm
  · exact Memory.wf_cons.2 ⟨‹_›, h, hm⟩

/-- Writing a byte keeps the canonical form. -/
theorem Memory.write_wf {m : Memory} (hm : Memory.wf m = true) (k : Nat) (v : Byte) :
    Memory.wf (Memory.write m k v) = true := by
  induction m with
  | nil => exact consCell_wf (fun c hc => by cases hc) hm
  | cons c m ih =>
    obtain ⟨a, b⟩ := c
    obtain ⟨hb, ha, hw⟩ := Memory.wf_cons.1 hm
    simp only [Memory.write]
    split
    · rename_i hlt
      refine consCell_wf (fun c hc => ?_) hm
      rcases List.mem_cons.1 hc with rfl | hc
      · exact hlt
      · exact Nat.lt_trans hlt (ha c hc)
    · split
      · rename_i hkl hka
        subst hka
        exact consCell_wf ha hw
      · rename_i hkl hka
        exact Memory.wf_cons.2 ⟨hb, Memory.write_above (by omega) ha, ih hw⟩

theorem read_consCell {k j : Nat} {v : Byte} {m : Memory} (h : Memory.above k m) :
    Memory.read (consCell k v m) j = if j = k then v else Memory.read m j := by
  unfold consCell
  split
  · rename_i hv
    split
    · rename_i hj
      rw [hj, Memory.read_above h, hv]
    · rfl
  · simp only [Memory.read]
    split
    · rfl
    · split
      · rename_i hjk
        exact (Memory.read_of_lt h (Nat.le_of_lt hjk)).symm
      · rfl

/-- A byte reads as it was last written. -/
theorem Memory.read_write {m : Memory} (hm : Memory.wf m = true) (k j : Nat) (v : Byte) :
    Memory.read (Memory.write m k v) j = if j = k then v else Memory.read m j := by
  induction m with
  | nil => exact read_consCell (fun c hc => by cases hc)
  | cons c m ih =>
    obtain ⟨a, b⟩ := c
    obtain ⟨hb, ha, hw⟩ := Memory.wf_cons.1 hm
    simp only [Memory.write]
    split
    · rename_i hlt
      refine read_consCell (fun c hc => ?_)
      rcases List.mem_cons.1 hc with rfl | hc
      · exact hlt
      · exact Nat.lt_trans hlt (ha c hc)
    · split
      · rename_i hkl hka
        subst hka
        rw [read_consCell ha]
        simp only [Memory.read]
        split
        · rfl
        · split
          · rename_i hj
            exact Memory.read_of_lt ha (Nat.le_of_lt hj)
          · rfl
      · rename_i hkl hka
        simp only [Memory.read, ih hw]
        split
        · rename_i hja
          rw [if_neg (by omega)]
        · split
          · rw [if_neg (by omega)]
          · rfl

/-- Memories in canonical form that read alike are equal. -/
theorem Memory.ext_read {m n : Memory} (hm : Memory.wf m = true) (hn : Memory.wf n = true)
    (h : ∀ a, Memory.read m a = Memory.read n a) : m = n := by
  induction m generalizing n with
  | nil =>
    cases n with
    | nil => rfl
    | cons d n =>
      obtain ⟨a, b⟩ := d
      have := h a
      simp [Memory.read] at this
      exact absurd this.symm (Memory.wf_cons.1 hn).1
  | cons c m ih =>
    obtain ⟨a, b⟩ := c
    obtain ⟨hb, ha, hw⟩ := Memory.wf_cons.1 hm
    cases n with
    | nil =>
      have := h a
      simp [Memory.read] at this
      exact absurd this hb
    | cons d n =>
      obtain ⟨a', b'⟩ := d
      obtain ⟨hb', ha', hw'⟩ := Memory.wf_cons.1 hn
      have haa : a = a' := by
        rcases Nat.lt_trichotomy a a' with hl | he | hg
        · have := h a
          rw [Memory.read, if_pos rfl, Memory.read, if_neg (by omega), if_pos hl] at this
          exact absurd this hb
        · exact he
        · have := h a'
          rw [Memory.read, if_neg (by omega), if_pos hg, Memory.read, if_pos rfl] at this
          exact absurd this.symm hb'
      subst haa
      have hbb : b = b' := by
        have := h a
        simpa [Memory.read] using this
      subst hbb
      congr 1
      refine ih hw hw' fun j => ?_
      rcases Nat.lt_or_ge a j with hj | hj
      · have := h j
        simpa [Memory.read, Nat.ne_of_gt hj, Nat.not_lt_of_lt hj] using this
      · rw [Memory.read_of_lt ha hj, Memory.read_of_lt ha' hj]

/-! ### Runs of bytes -/

theorem Memory.writeBytes_wf {m : Memory} (hm : Memory.wf m = true) (p : Nat) (bs : List Byte) :
    Memory.wf (Memory.writeBytes m p bs) = true := by
  induction bs generalizing m p with
  | nil => exact hm
  | cons b bs ih => exact ih (Memory.write_wf hm p b) (p + 1)

theorem Memory.writeAll_wf {m : Memory} (hm : Memory.wf m = true) (ps : List Word) (bs : List Byte) :
    Memory.wf (Memory.writeAll m ps bs) = true := by
  induction ps generalizing m bs with
  | nil => simpa [Memory.writeAll] using hm
  | cons p ps ih =>
    cases bs with
    | nil => simpa [Memory.writeAll] using hm
    | cons b bs => exact ih (Memory.write_wf hm p.toNat b) bs

theorem physWrite_wf {m : Memory} (hm : Memory.wf m = true) (p n : Nat) (v : Word) :
    Memory.wf (physWrite m p n v) = true := Memory.writeBytes_wf hm p _

/-- What a run of written bytes reads as. -/
theorem Memory.read_writeBytes {m : Memory} (hm : Memory.wf m = true) (p : Nat) (bs : List Byte) (j : Nat) :
    Memory.read (Memory.writeBytes m p bs) j =
      if p ≤ j ∧ j < p + bs.length then bs.getD (j - p) 0 else Memory.read m j := by
  induction bs generalizing m p with
  | nil => simp [Memory.writeBytes]
  | cons b bs ih =>
    rw [Memory.writeBytes, ih (Memory.write_wf hm p b), Memory.read_write hm]
    by_cases hj : j = p
    · subst hj
      simp
    · by_cases hr : p ≤ j ∧ j < p + (b :: bs).length
      · have h1 : p + 1 ≤ j ∧ j < p + 1 + bs.length := by simp at hr; omega
        rw [if_pos h1, if_pos hr]
        obtain ⟨d, hd⟩ : ∃ d, j - p = d + 1 := ⟨j - p - 1, by omega⟩
        have hd' : j - (p + 1) = d := by omega
        rw [hd, hd']
        rfl
      · have h1 : ¬ (p + 1 ≤ j ∧ j < p + 1 + bs.length) := by simp at hr; omega
        rw [if_neg h1, if_neg hr, if_neg hj]

@[simp] theorem leBytes_length (n : Nat) (v : Word) : (leBytes n v).length = n := by
  induction n generalizing v with
  | zero => rfl
  | succ n ih => simp [leBytes, ih]

/-- Byte `k` of the bytes of a value is bits `8k+7` to `8k` (R103). -/
theorem leBytes_getD (n : Nat) (v : Word) (k : Nat) (h : k < n) : (leBytes n v).getD k 0 = v.extractLsb' (8 * k) 8 := by
  induction n generalizing v k with
  | zero => omega
  | succ n ih =>
    cases k with
    | zero => ext i hi; simp [leBytes]
    | succ k =>
      have := ih (v >>> 8) k (by omega)
      simp only [leBytes, List.getD_cons_succ, this]
      ext i hi
      simp [show 8 + (8 * k + i) = 8 * (k + 1) + i by omega]

/-- Bit `j` of the value of a list of bytes (R103). -/
theorem leWord_getLsbD (bs : List Byte) (j : Nat) :
    (leWord bs).getLsbD j = (decide (j < 64) && (bs.getD (j / 8) 0).getLsbD (j % 8)) := by
  induction bs generalizing j with
  | nil => simp [leWord]
  | cons b bs ih =>
    rw [leWord, BitVec.getLsbD_or, BitVec.getLsbD_setWidth, BitVec.getLsbD_shiftLeft, ih]
    by_cases hj : j < 64
    · by_cases h8 : j < 8
      · have h1 : j / 8 = 0 := by omega
        have h2 : j % 8 = j := by omega
        simp [hj, h8, h1, h2]
      · obtain ⟨d, hd⟩ : ∃ d, j / 8 = d + 1 := ⟨j / 8 - 1, by omega⟩
        have hd' : (j - 8) / 8 = d := by omega
        have hm : (j - 8) % 8 = j % 8 := by omega
        have hb : b.getLsbD j = false := BitVec.getLsbD_of_ge b j (by omega)
        simp [hj, h8, hd, hd', hm, hb, show j - 8 < 64 by omega]
    · simp [hj]

@[simp] theorem Memory.readBytes_length (m : Memory) (p n : Nat) : (Memory.readBytes m p n).length = n := by
  induction n generalizing p with
  | zero => rfl
  | succ n ih => simp [Memory.readBytes, ih]

theorem Memory.readBytes_getD (m : Memory) (p n k : Nat) :
    (Memory.readBytes m p n).getD k 0 = if k < n then Memory.read m (p + k) else 0 := by
  induction n generalizing p k with
  | zero => simp [Memory.readBytes]
  | succ n ih =>
    cases k with
    | zero => simp [Memory.readBytes]
    | succ k =>
      rw [Memory.readBytes, List.getD_cons_succ, ih, show p + 1 + k = p + (k + 1) by omega]
      simp only [Nat.add_lt_add_iff_right]

/-- Bit `j` of `PhysRead(p, n)` (R103, R106). -/
theorem physRead_getLsbD (m : Memory) (p n j : Nat) :
    (physRead m p n).getLsbD j =
      (decide (j < 64) && decide (j / 8 < n) && (Memory.read m (p + j / 8)).getLsbD (j % 8)) := by
  rw [physRead, leWord_getLsbD, Memory.readBytes_getD]
  by_cases h : j / 8 < n <;> simp [h]

/-- The value whose low `n` bytes are the bytes at `p` (R103, R106). -/
theorem physRead_eq {m : Memory} {p n : Nat} {v : Word}
    (h : ∀ k, k < n → Memory.read m (p + k) = v.extractLsb' (8 * k) 8) :
    physRead m p n = BitVec.ofNat 64 (v.toNat % 2 ^ (8 * n)) := by
  ext j hj
  rw [← BitVec.getLsbD_eq_getElem, physRead_getLsbD, ← BitVec.getLsbD_eq_getElem, BitVec.getLsbD_ofNat, Nat.testBit_mod_two_pow,
    BitVec.testBit_toNat]
  by_cases hk : j / 8 < n
  · rw [h _ hk]
    simp [hj, hk, show j < 8 * n by omega, show j % 8 < 8 by omega, show 8 * (j / 8) + j % 8 = j by omega]
  · simp [hk, show ¬ j < 8 * n by omega]

/-- What a stored value reads as (R103, R106). -/
theorem read_physWrite {m : Memory} (hm : Memory.wf m = true) (p n : Nat) (v : Word) (j : Nat) :
    Memory.read (physWrite m p n v) j =
      if p ≤ j ∧ j < p + n then v.extractLsb' (8 * (j - p)) 8 else Memory.read m j := by
  rw [physWrite, Memory.read_writeBytes hm, leBytes_length]
  split
  · rename_i h
    exact leBytes_getD n v (j - p) (by omega)
  · rfl

end Sys2Proof.Machine
end

