-- ==== Sys2Proof/Laws/Translate.lean ====
section
/-! SUPPORT. Sv39 (20_memory.md R120 to R129): what translate can answer, its agreement with the walk as a relation, and that the
addresses of one page translate together. -/

namespace Sys2Proof.Machine

/-! ### When translation is active, and which addresses it takes (R120, R121) -/

theorem translationActive_iff (s : State) : translationActive s = true ↔ TranslationOn s := by
  have h : satpMode s.csr.satp = 8#4 ↔ s.csr.satp.toNat / 2 ^ 60 = 8 := by
    have hlt : s.csr.satp.toNat / 2 ^ 60 < 16 := by have := s.csr.satp.isLt; omega
    have he : (satpMode s.csr.satp).toNat = s.csr.satp.toNat / 2 ^ 60 := by
      rw [satpMode, BitVec.extractLsb'_toNat, Nat.shiftRight_eq_div_pow]; omega
    constructor
    · intro h; rw [← he, h]; rfl
    · intro h; apply BitVec.eq_of_toNat_eq; rw [he, h]; rfl
  simp [translationActive, TranslationOn, h]

theorem canonical_iff (va : Word) : canonical va = true ↔ Canonical va := by
  have hb : getBit va 38 = decide (va.toNat / 2 ^ 38 % 2 = 1) := by
    rw [getBit, ← BitVec.testBit_toNat, Nat.testBit_eq_decide_div_mod_eq]
  have he : (va.extractLsb' 39 25).toNat = va.toNat / 2 ^ 39 := by
    rw [BitVec.extractLsb'_toNat, Nat.shiftRight_eq_div_pow]
    have := va.isLt
    omega
  have hx : ∀ x : BitVec 25, va.extractLsb' 39 25 = x ↔ va.toNat / 2 ^ 39 = x.toNat := by
    intro x
    rw [← he]
    exact ⟨fun h => by rw [h], BitVec.eq_of_toNat_eq⟩
  have hlt := va.isLt
  rw [canonical, hb, beq_iff_eq, hx, Canonical, BitVec.toInt_eq_toNat_cond]
  have ha : (BitVec.allOnes 25).toNat = 2 ^ 25 - 1 := rfl
  by_cases h : va.toNat / 2 ^ 38 % 2 = 1
  · simp only [h, decide_true, if_true, ha]
    split <;> omega
  · simp only [h, decide_false, Bool.false_eq_true, if_false, BitVec.toNat_ofNat, Nat.zero_mod]
    split <;> omega

theorem translate_inactive {s : State} (h : translationActive s = false) (K : Access) (va : Word) :
    translate s K va = .ok va := by
  simp [translate, h]

/-! ### Entries (R122, R123, R125 to R127) -/

theorem vpn_toNat (va : Word) (i : Nat) : (vpn va i).toNat = va.toNat / 2 ^ (12 + 9 * i) % 512 := by
  simp [vpn, BitVec.extractLsb'_toNat, Nat.shiftRight_eq_div_pow]

theorem satpPpn_toNat (w : Word) : (satpPpn w).toNat = w.toNat % 2 ^ 44 := by
  simp [satpPpn, BitVec.extractLsb'_toNat]

theorem ptePpn_toNat (pte : Word) : (ptePpn pte).toNat = pte.toNat / 2 ^ 10 % 2 ^ 44 := by
  simp [ptePpn, BitVec.extractLsb'_toNat, Nat.shiftRight_eq_div_pow]

theorem pteValid_iff (pte : Word) : pteValid pte = true ↔ PteOk pte := by
  have h : pteReservedClear pte = true ↔ pte.toNat < 2 ^ 54 := by
    have he : (pte.extractLsb' 54 10).toNat = pte.toNat / 2 ^ 54 := by
      rw [BitVec.extractLsb'_toNat, Nat.shiftRight_eq_div_pow]
      have := pte.isLt
      omega
    rw [pteReservedClear, beq_iff_eq]
    constructor
    · intro h
      have := congrArg BitVec.toNat h
      rw [he] at this
      simp at this
      omega
    · intro h
      apply BitVec.eq_of_toNat_eq
      rw [he]
      simp
      omega
  simp [pteValid, PteOk, h, pteV, pteR, pteW, getBit, and_assoc]
  intro _ _
  cases pte[1] <;> simp

theorem pteLeaf_iff (pte : Word) : pteLeaf pte = true ↔ PteLeaf pte := by
  simp [pteLeaf, PteLeaf, pteR, pteX, getBit]

theorem checkPermission_iff (s : State) (K : Access) (pte : Word) : checkPermission s K pte = true ↔ MayAccess s K pte := by
  unfold checkPermission MayAccess
  cases K <;> cases h : s.priv <;> simp [pteX, pteR, pteW, pteU, getBit, bitMXR, bitSUM, ← Bool.not_eq_true] <;> tauto

theorem superpageAligned_iff {i : Nat} (hi : i ≤ 2) (pte : Word) :
    superpageAligned i pte = true ↔ pte.toNat / 2 ^ 10 % 2 ^ (9 * i) = 0 := by
  have hx : ∀ n, pte.extractLsb' 10 n = 0#n ↔ pte.toNat / 2 ^ 10 % 2 ^ n = 0 := by
    intro n
    have he : (pte.extractLsb' 10 n).toNat = pte.toNat / 2 ^ 10 % 2 ^ n := by
      rw [BitVec.extractLsb'_toNat, Nat.shiftRight_eq_div_pow]
    constructor
    · intro h; rw [← he, h]; simp
    · intro h; apply BitVec.eq_of_toNat_eq; rw [he, h]; simp
  have : i = 0 ∨ i = 1 ∨ i = 2 := by omega
  rcases this with rfl | rfl | rfl
  · simp [superpageAligned, Nat.mod_one]
  · simp [superpageAligned, hx]
  · simp [superpageAligned, hx]

/-- R127: the page of an aligned leaf, and the offset in it. -/
theorem physAddr_eq {i : Nat} (hi : i ≤ 2) {pte : Word} (ha : pte.toNat / 2 ^ 10 % 2 ^ (9 * i) = 0) (va : Word) :
    physAddr i pte va = BitVec.ofNat 64 (pte.toNat / 2 ^ 10 % 2 ^ 44 * 4096 + va.toNat % 2 ^ (12 + 9 * i)) := by
  have hp := pte.isLt
  have hv := va.isLt
  have happ : ∀ {a b : Nat} (x : BitVec a) (y : BitVec b), (x ++ y).toNat = x.toNat * 2 ^ b + y.toNat := by
    intro a b x y
    rw [BitVec.toNat_append, ← Nat.shiftLeft_add_eq_or_of_lt y.isLt, Nat.shiftLeft_eq]
  have : i = 0 ∨ i = 1 ∨ i = 2 := by omega
  rcases this with rfl | rfl | rfl
  all_goals
    apply BitVec.eq_of_toNat_eq
    simp only [physAddr, BitVec.toNat_setWidth, BitVec.toNat_ofNat, happ, ptePpn_toNat, BitVec.extractLsb'_toNat,
      Nat.shiftRight_eq_div_pow]
    simp only [Nat.reducePow, Nat.reduceMul, Nat.reduceAdd] at *
    omega

/-! ### The walk (R123) -/

theorem pteAt_physRead {s : State} {a : Nat} {pte : Word} (h : PteAt s a pte) : physRead s.mem a 8 = pte := by
  rw [physRead_eq h.2.2, Nat.mod_eq_of_lt pte.isLt, BitVec.ofNat_toNat, BitVec.setWidth_eq]

theorem pteAt_inRam {s : State} {a : Nat} {pte : Word} (h : PteAt s a pte) : inRam s.platform a 8 = true := by
  simp [inRam, h.1, h.2.1]

theorem readPte_of_pteAt {s : State} {a : Nat} {pte : Word} (h : PteAt s a pte) (K : Access) (va : Word) :
    readPte s K va a = if pteValid pte then .ok pte else .error (pageFault K va) := by
  rw [readPte, if_pos (pteAt_inRam h), pteAt_physRead h]

theorem walkReaches_le {s : State} {va : Word} {i a : Nat} (h : WalkReaches s va i a) : i ≤ 2 := by
  induction h with
  | root => exact Nat.le_refl 2
  | down i a pte _ _ _ _ ih => omega

theorem pteAddress_eq (va : Word) (i a : Nat) : a + (vpn va i).toNat * 8 = pteAddress va i a := by
  rw [vpn_toNat, pteAddress]

/-- Where the relation reaches, translate goes on from there. -/
theorem translate_of_reaches {s : State} {va : Word} {i a : Nat} (hon : TranslationOn s) (hc : Canonical va)
    (h : WalkReaches s va i a) (K : Access) : translate s K va = walk s K va i a := by
  induction h with
  | root => rw [translate, if_pos ((translationActive_iff s).2 hon), if_pos ((canonical_iff va).2 hc), satpPpn_toNat]
  | down i a pte _ hp hok hl ih =>
    rw [ih, walk, pteAddress_eq, readPte_of_pteAt hp, if_pos ((pteValid_iff pte).2 hok)]
    have : pteLeaf pte = false := by simpa using fun h => hl ((pteLeaf_iff pte).1 h)
    simp [this, ptePpn_toNat]

/-- The walk at a level, in terms of the entry there. -/
theorem walk_of_pteAt {s : State} {va : Word} {i a : Nat} {pte : Word} (h : PteAt s (pteAddress va i a) pte) (K : Access) :
    walk s K va i a =
      if pteValid pte then
        if pteLeaf pte then leafResult s K va i pte
        else match i with
          | 0 => .error (pageFault K va)
          | i + 1 => walk s K va i ((ptePpn pte).toNat * 4096)
      else .error (pageFault K va) := by
  cases i with
  | zero => rw [walk, pteAddress_eq, readPte_of_pteAt h]; cases pteValid pte <;> rfl
  | succ i => rw [walk, pteAddress_eq, readPte_of_pteAt h]; cases pteValid pte <;> rfl

theorem walk_outside {s : State} {va : Word} {i a : Nat} (h : inRam s.platform (pteAddress va i a) 8 = false) (K : Access) :
    walk s K va i a = .error (accessFault K va) := by
  cases i <;> simp [walk, pteAddress_eq, readPte, h]

/-! ### What translate can answer -/

theorem readPte_error {s : State} {K : Access} {va : Word} {a : Nat} {e : Exc} (h : readPte s K va a = .error e) :
    e = pageFault K va ∨ e = accessFault K va := by
  unfold readPte at h
  split at h
  · split at h
    · cases h
    · cases h; exact .inl rfl
  · cases h; exact .inr rfl

theorem leafResult_error {s : State} {K : Access} {va : Word} {i : Nat} {pte : Word} {e : Exc}
    (h : leafResult s K va i pte = .error e) : e = pageFault K va := by
  unfold leafResult at h
  split at h <;> cases h
  rfl

/-- R112, R128, R129: translation raises only the page fault or the access fault of its kind. -/
theorem walk_error {s : State} {K : Access} {va : Word} {i a : Nat} {e : Exc} (h : walk s K va i a = .error e) :
    e = pageFault K va ∨ e = accessFault K va := by
  induction i generalizing a with
  | zero =>
    rw [walk] at h
    split at h
    · cases h; exact readPte_error ‹_›
    · split at h
      · exact .inl (leafResult_error h)
      · cases h; exact .inl rfl
  | succ i ih =>
    rw [walk] at h
    split at h
    · cases h; exact readPte_error ‹_›
    · split at h
      · exact .inl (leafResult_error h)
      · exact ih h

theorem translate_error {s : State} {K : Access} {va : Word} {e : Exc} (h : translate s K va = .error e) :
    e = pageFault K va ∨ e = accessFault K va := by
  unfold translate at h
  split at h
  · split at h
    · exact walk_error h
    · cases h; exact .inl rfl
  · cases h

/-- A successful walk ends in an aligned leaf, which then serves every address of the same page. -/
theorem walk_ok {s : State} {K : Access} {va pa : Word} {i a : Nat} (hi : i ≤ 2) (h : walk s K va i a = .ok pa) :
    ∃ base : Nat, base % 4096 = 0 ∧ base + 4096 ≤ 2 ^ 56 ∧ pa = BitVec.ofNat 64 (base + va.toNat % 4096) ∧
      ∀ vb : Word, vb.toNat / 4096 = va.toNat / 4096 → walk s K vb i a = .ok (BitVec.ofNat 64 (base + vb.toNat % 4096)) := by
  have leaf : ∀ (j : Nat) (pte : Word), j ≤ 2 → leafResult s K va j pte = .ok pa →
      ∃ base : Nat, base % 4096 = 0 ∧ base + 4096 ≤ 2 ^ 56 ∧ pa = BitVec.ofNat 64 (base + va.toNat % 4096) ∧
        ∀ vb : Word, vb.toNat / 4096 = va.toNat / 4096 →
          leafResult s K vb j pte = .ok (BitVec.ofNat 64 (base + vb.toNat % 4096)) := by
    intro j pte hj h
    unfold leafResult at h
    split at h
    · rename_i hc
      have hal := (superpageAligned_iff hj pte).1 (Bool.and_eq_true_iff.1 hc).2
      have hpa := (Except.ok.inj h).symm
      rw [physAddr_eq hj hal] at hpa
      have page : ∀ vb vc : Word, vb.toNat / 4096 = vc.toNat / 4096 →
          vb.toNat % 2 ^ (12 + 9 * j) = vc.toNat % 2 ^ (12 + 9 * j) / 4096 * 4096 + vb.toNat % 4096 := by
        intro vb vc hvb
        have : j = 0 ∨ j = 1 ∨ j = 2 := by omega
        rcases this with rfl | rfl | rfl
        all_goals
          simp only [Nat.reducePow, Nat.reduceMul, Nat.reduceAdd] at *
          omega
      refine ⟨pte.toNat / 2 ^ 10 % 2 ^ 44 * 4096 + va.toNat % 2 ^ (12 + 9 * j) / 4096 * 4096, ?_, ?_, ?_, ?_⟩
      · omega
      · have hp := pte.isLt
        have : j = 0 ∨ j = 1 ∨ j = 2 := by omega
        rcases this with rfl | rfl | rfl
        all_goals
          simp only [Nat.reducePow, Nat.reduceMul, Nat.reduceAdd] at *
          omega
      · exact hpa.trans (congrArg (BitVec.ofNat 64) (by have := page va va rfl; omega))
      · intro vb hvb
        unfold leafResult
        rw [if_pos hc, physAddr_eq hj hal, page vb va hvb, ← Nat.add_assoc]
    · cases h
  have hvpn : ∀ (vb : Word) (j : Nat), vb.toNat / 4096 = va.toNat / 4096 → vpn vb j = vpn va j := by
    intro vb j hvb
    apply BitVec.eq_of_toNat_eq
    rw [vpn_toNat, vpn_toNat, Nat.pow_add, ← Nat.div_div_eq_div_mul, ← Nat.div_div_eq_div_mul]
    exact congrArg (fun x => x / 2 ^ (9 * j) % 512) hvb
  have hread : ∀ (vb : Word) (x : Nat) (pte : Word), readPte s K va x = .ok pte → readPte s K vb x = .ok pte := by
    intro vb x pte h
    unfold readPte at h ⊢
    split at h
    · split at h
      · rename_i h1 h2; rw [if_pos h1, if_pos h2]; exact h
      · cases h
    · cases h
  induction i generalizing a with
  | zero =>
    rw [walk] at h
    split at h
    · cases h
    · rename_i pte hr
      split at h
      · rename_i hl
        obtain ⟨base, h1, h2, h3, h4⟩ := leaf 0 pte (by omega) h
        refine ⟨base, h1, h2, h3, fun vb hvb => ?_⟩
        rw [walk, hvpn vb 0 hvb, hread vb _ _ hr]
        simp only [hl, if_true]
        exact h4 vb hvb
      · cases h
  | succ i ih =>
    rw [walk] at h
    split at h
    · cases h
    · rename_i pte hr
      split at h
      · rename_i hl
        obtain ⟨base, h1, h2, h3, h4⟩ := leaf (i + 1) pte hi h
        refine ⟨base, h1, h2, h3, fun vb hvb => ?_⟩
        rw [walk, hvpn vb (i + 1) hvb, hread vb _ _ hr]
        simp only [hl, if_true]
        exact h4 vb hvb
      · rename_i hl
        obtain ⟨base, h1, h2, h3, h4⟩ := ih (by omega) h
        refine ⟨base, h1, h2, h3, fun vb hvb => ?_⟩
        rw [walk, hvpn vb (i + 1) hvb, hread vb _ _ hr]
        simp only [hl]
        exact h4 vb hvb

/-- Addresses of one page translate together (R110: "For an aligned access all n bytes lie in one page"). -/
theorem translate_page {s : State} {K : Access} {va pa : Word} (h : translate s K va = .ok pa) (vb : Word)
    (hvb : vb.toNat / 4096 = va.toNat / 4096) :
    ∃ pb, translate s K vb = .ok pb ∧ pb.toNat = pa.toNat / 4096 * 4096 + vb.toNat % 4096 := by
  have hb := vb.isLt
  have hv := va.isLt
  unfold translate at h ⊢
  split at h
  · rename_i hact
    split at h
    · rename_i hcan
      obtain ⟨base, h1, h2, h3, h4⟩ := walk_ok (by omega) h
      have hcb : canonical vb = true := by
        rw [canonical_iff, Canonical, BitVec.toInt_eq_toNat_cond]
        rw [canonical_iff, Canonical, BitVec.toInt_eq_toNat_cond] at hcan
        split at hcan <;> split <;> omega
      refine ⟨_, by rw [if_pos hact, if_pos hcb]; exact h4 vb hvb, ?_⟩
      rw [h3]
      simp only [BitVec.toNat_ofNat]
      omega
    · cases h
  · rename_i hact
    cases h
    exact ⟨vb, by rw [if_neg hact], by omega⟩

/-- The offset in the page is kept, and an active translation answers in the 56-bit space (R127). -/
theorem translate_ok {s : State} {K : Access} {va pa : Word} (h : translate s K va = .ok pa) :
    pa.toNat % 4096 = va.toNat % 4096 ∧ (TranslationOn s → pa.toNat < 2 ^ 56) := by
  unfold translate at h
  split at h
  · split at h
    · obtain ⟨base, h1, h2, h3, _⟩ := walk_ok (by omega) h
      rw [h3]
      simp only [BitVec.toNat_ofNat]
      exact ⟨by omega, fun _ => by omega⟩
    · cases h
  · rename_i hact
    cases h
    exact ⟨rfl, fun hon => absurd ((translationActive_iff s).2 hon) hact⟩

end Sys2Proof.Machine
end

