-- ==== Sys2Proof/Laws/Access.lean ====
section
/-! SUPPORT. The checks of a load or store, byte by byte (20_memory.md R110, R111), the regions (R101, R102), the bytes read and
written, and the reservation after a write (45_atomics.md R360 (e)). -/

namespace Sys2Proof.Machine

/-! ### Regions -/

theorem inRam_iff (p : Platform) (a n : Nat) : inRam p a n = true ↔ p.ramBase ≤ a ∧ a + n ≤ p.ramBase + p.ramSize := by
  simp [inRam]

theorem inWindow_iff (w : Window) (a : Nat) : inWindow w a = true ↔ w.base ≤ a ∧ a < w.base + w.size := by
  simp [inWindow]

theorem regionOf_ram {p : Platform} {a : Nat} (h : inRam p a 1 = true) : regionOf p a = some .ram := by
  rw [regionOf, if_pos h]

/-- The constraints of the parameters, one by one (20_memory.md R102; 92_eei_decisions.md D10; 10_state.md R62). -/
theorem Platform.wf_iff (p : Platform) : p.wf = true ↔
    p.ramBase % 16 = 0 ∧ p.ramSize % 16 = 0 ∧ 0 < p.ramSize ∧ p.ramBase + p.ramSize ≤ 2 ^ 56 ∧
    (∀ w ∈ p.windows, 0 < w.size ∧ w.base + w.size ≤ 2 ^ 64 ∧
      (w.base + w.size ≤ p.ramBase ∨ p.ramBase + p.ramSize ≤ w.base)) ∧
    p.windows.Pairwise (fun v w => v.base + v.size ≤ w.base ∨ w.base + w.size ≤ v.base) ∧
    (∀ e ∈ p.extraRoCsrs, extraCsrOk e = true) ∧ (p.extraRoCsrs.map Prod.fst).Pairwise (· ≠ ·) := by
  simp only [Platform.wf, windowOk, rangesApart, Bool.and_eq_true, Bool.or_eq_true, List.all_eq_true, decide_eq_true_eq,
    beq_iff_eq, and_assoc]

/-- Two different members of a list whose members are pairwise in a symmetric relation are in it. -/
theorem pairwise_symm {α : Type} {R : α → α → Prop} (hR : ∀ x y, R x y → R y x) {l : List α} (h : l.Pairwise R) {x y : α}
    (hx : x ∈ l) (hy : y ∈ l) (hne : x ≠ y) : R x y := by
  induction h with
  | nil => cases hx
  | cons hall _ ih =>
    rcases List.mem_cons.1 hx with hxe | hxm <;> rcases List.mem_cons.1 hy with hye | hym
    · exact absurd (hxe.trans hye.symm) hne
    · exact hxe ▸ hall _ hym
    · exact hR _ _ (hye ▸ hall _ hxm)
    · exact ih hxm hym

theorem regionOf_window {p : Platform} (hp : p.wf = true) {w : Window} (hw : w ∈ p.windows) {a : Nat}
    (h1 : w.base ≤ a) (h2 : a < w.base + w.size) : regionOf p a = some (.window w) := by
  obtain ⟨-, -, -, -, hwin, hpair, -, -⟩ := (Platform.wf_iff p).1 hp
  have hnr : inRam p a 1 = false := by
    have := (hwin w hw).2.2
    rw [← Bool.not_eq_true, inRam_iff]
    omega
  have hf : p.windows.find? (fun v => inWindow v a) = some w := by
    cases hf : p.windows.find? (fun v => inWindow v a) with
    | none =>
      have := List.find?_eq_none.1 hf w hw
      exact absurd ((inWindow_iff w a).2 ⟨h1, h2⟩) this
    | some v =>
      have hv := (inWindow_iff v a).1 (List.find?_some (p := fun v => inWindow v a) hf)
      have hvm := List.mem_of_find?_eq_some hf
      by_cases hvw : v = w
      · rw [hvw]
      · have := pairwise_symm (fun x y => Or.symm) hpair hvm hw hvw
        omega
  rw [regionOf, hnr, hf]
  simp

theorem inRegion_ram_false_of_window {p : Platform} (hp : p.wf = true) {w : Window} (hw : w ∈ p.windows) {a : Nat}
    (h1 : w.base ≤ a) (h2 : a < w.base + w.size) : ¬ (p.ramBase ≤ a ∧ a < p.ramBase + p.ramSize) := by
  have := (((Platform.wf_iff p).1 hp).2.2.2.2.1 w hw).2.2
  omega

/-! ### The byte loop (R110) -/

theorem add_ofNat_succ (va : Word) (k : Nat) : va + 1 + BitVec.ofNat 64 k = va + BitVec.ofNat 64 (k + 1) := by
  rw [BitVec.add_assoc, BitVec.ofNat_add, BitVec.add_comm (1 : Word)]; rfl

theorem add_ofNat_zero (va : Word) : va + BitVec.ofNat 64 0 = va := BitVec.add_zero va

theorem BytesAt.zero {s : State} {K : Access} {va : Word} {n : Nat} {pa : Nat → Word} (h : BytesAt s K va n pa) (hn : 0 < n) :
    translate s K va = .ok (pa 0) := by
  have := h 0 hn
  rwa [add_ofNat_zero] at this

theorem BytesAt.tail {s : State} {K : Access} {va : Word} {n : Nat} {pa : Nat → Word} (h : BytesAt s K va (n + 1) pa) :
    BytesAt s K (va + 1) n (fun k => pa (k + 1)) := by
  intro k hk
  rw [add_ofNat_succ]
  exact h (k + 1) (by omega)

theorem map_range_succ {α : Type} (f : Nat → α) (n : Nat) :
    (List.range (n + 1)).map f = f 0 :: (List.range n).map (fun k => f (k + 1)) := by
  rw [List.range_succ_eq_map]; simp [Function.comp_def]

theorem checkBytes_ok {s : State} {K : Access} {r : Region} {n : Nat} {va : Word} {pa : Nat → Word}
    (h : BytesAt s K va n pa) (hr : ∀ k, k < n → inRegion s.platform r (pa k).toNat = true) :
    checkBytes s K r va n = .ok ((List.range n).map pa) := by
  induction n generalizing va pa with
  | zero => rfl
  | succ n ih =>
    have h0 := hr 0 (by omega)
    have ht := ih h.tail (fun k hk => hr (k + 1) (by omega))
    rw [checkBytes, h.zero (by omega)]
    simp only [h0, ht, if_true, map_range_succ]

theorem checkAccess_ok {s : State} {K : Access} {r : Region} {n : Nat} {va : Word} {pa : Nat → Word} (hn : 0 < n)
    (h : BytesAt s K va n pa) (h0 : regionOf s.platform (pa 0).toNat = some r)
    (hr : ∀ k, k < n → inRegion s.platform r (pa k).toNat = true) :
    checkAccess s K va n = .ok (r, (List.range n).map pa) := by
  rw [checkAccess, h.zero hn]
  simp only [h0, checkBytes_ok h hr]

/-- The loop stops at the first byte that fails (R110). -/
theorem checkBytes_error {s : State} {K : Access} {r : Region} {n k : Nat} {va : Word} {pa : Nat → Word} {e : Exc} (hk : k < n)
    (h : BytesAt s K va k pa) (hr : ∀ j, j < k → inRegion s.platform r (pa j).toNat = true)
    (he : translate s K (va + BitVec.ofNat 64 k) = .error e ∨
      ∃ p, translate s K (va + BitVec.ofNat 64 k) = .ok p ∧ e = accessFault K (va + BitVec.ofNat 64 k) ∧
        inRegion s.platform r p.toNat = false) :
    checkBytes s K r va n = .error e := by
  induction k generalizing va pa n with
  | zero =>
    obtain ⟨n, rfl⟩ : ∃ m, n = m + 1 := ⟨n - 1, by omega⟩
    rw [add_ofNat_zero] at he
    rw [checkBytes]
    rcases he with he | ⟨p, hp, rfl, hf⟩
    · rw [he]
    · rw [hp]; simp only [hf]; rfl
  | succ k ih =>
    obtain ⟨n, rfl⟩ : ∃ m, n = m + 1 := ⟨n - 1, by omega⟩
    rw [← add_ofNat_succ] at he
    have h0 := hr 0 (by omega)
    have ht := ih (n := n) (by omega) h.tail (fun j hj => hr (j + 1) (by omega)) he
    rw [checkBytes, h.zero (by omega)]
    simp only [h0, ht, if_true]

theorem checkAccess_error {s : State} {K : Access} {n k : Nat} {va : Word} {e : Exc} (hk : k < n)
    (h : FailsAtByte s K va k e) : checkAccess s K va n = .error e := by
  obtain ⟨pa, r, hb, h0, hr, he⟩ := h
  rw [checkAccess]
  by_cases hk0 : k = 0
  · subst hk0
    rw [add_ofNat_zero] at he
    rcases he with he | ⟨p, hp, rfl, hf⟩
    · rw [he]
    · rw [if_pos rfl] at hf
      rw [hp]; simp only [hf]
  · rw [hb.zero (by omega)]
    simp only [h0 (by omega)]
    rw [checkBytes_error hk hb hr]
    rcases he with he | ⟨p, hp, he, hf⟩
    · exact .inl he
    · rw [if_neg hk0] at hf
      exact .inr ⟨p, hp, he, hf⟩

/-! ### The bytes of one access lie at different addresses, and an aligned access is one run -/

theorem BytesAt.low {s : State} {K : Access} {va : Word} {n : Nat} {pa : Nat → Word} (h : BytesAt s K va n pa) {k : Nat} (hk : k < n) :
    (pa k).toNat % 4096 = (va.toNat + k) % 4096 := by
  rw [(translate_ok (h k hk)).1, BitVec.toNat_add, BitVec.toNat_ofNat]
  omega

theorem BytesAt.inj {s : State} {K : Access} {va : Word} {n : Nat} {pa : Nat → Word} (hn : n ≤ 8) (h : BytesAt s K va n pa)
    {j k : Nat} (hj : j < n) (hk : k < n) (he : (pa j).toNat = (pa k).toNat) : j = k := by
  have h1 := h.low hj
  have h2 := h.low hk
  rw [he] at h1
  omega

theorem BytesAt.aligned {s : State} {K : Access} {va : Word} {n : Nat} {pa : Nat → Word} (hn : n = 1 ∨ n = 2 ∨ n = 4 ∨ n = 8)
    (h : BytesAt s K va n pa) (ha : va.toNat % n = 0) {k : Nat} (hk : k < n) : pa k = pa 0 + BitVec.ofNat 64 k := by
  have h0 := h 0 (by omega)
  have hk' := h k hk
  have hlt := va.isLt
  have e0 : (va + BitVec.ofNat 64 0).toNat = va.toNat := by rw [add_ofNat_zero]
  have ek : (va + BitVec.ofNat 64 k).toNat = va.toNat + k := by
    rw [BitVec.toNat_add, BitVec.toNat_ofNat]
    rcases hn with rfl | rfl | rfl | rfl <;> omega
  obtain ⟨pb, hpb, hpn⟩ := translate_page h0 (va + BitVec.ofNat 64 k) (by
    rw [e0, ek]; rcases hn with rfl | rfl | rfl | rfl <;> omega)
  have he : pa k = pb := by rw [hpb] at hk'; exact (Except.ok.inj hk').symm
  have hlow := (translate_ok h0).1
  rw [e0] at hlow
  rw [ek] at hpn
  have hb := pb.isLt
  apply BitVec.eq_of_toNat_eq
  rw [he, hpn, BitVec.toNat_add, BitVec.toNat_ofNat]
  rw [hpn] at hb
  rcases hn with rfl | rfl | rfl | rfl <;> omega

theorem oneDeviceAccess_eq {s : State} {K : Access} {va : Word} {n : Nat} {pa : Nat → Word} (hn : n = 1 ∨ n = 2 ∨ n = 4 ∨ n = 8)
    (h : BytesAt s K va n pa) : oneDeviceAccess va n ((List.range n).map pa) = decide (va.toNat % n = 0) := by
  by_cases ha : va.toNat % n = 0
  · have hh : ((List.range n).map pa).headD 0 = pa 0 := by
      obtain ⟨m, rfl⟩ : ∃ m, n = m + 1 := ⟨n - 1, by omega⟩
      rw [map_range_succ]; rfl
    have hl : (List.range n).map pa = (List.range n).map fun k => pa 0 + BitVec.ofNat 64 k :=
      List.map_congr_left fun k hk => h.aligned hn ha (List.mem_range.1 hk)
    rw [oneDeviceAccess, hh, ← hl]
    simp [ha]
  · simp [oneDeviceAccess, ha]

/-! ### Bytes read -/

theorem map_range_getD {α : Type} (f : Nat → α) (n k : Nat) (d : α) :
    ((List.range n).map f).getD k d = if k < n then f k else d := by
  by_cases h : k < n <;> simp [h]

/-- Bit `j` of the value of the bytes at the given addresses (R103, R110). -/
theorem leWord_map_getLsbD (m : Memory) (pa : Nat → Word) (n j : Nat) (hj : j < 64) :
    (leWord (((List.range n).map pa).map fun p => Memory.read m p.toNat)).getLsbD j =
      if j < 8 * n then (Memory.read m (pa (j / 8)).toNat).getLsbD (j % 8) else false := by
  have hc : ((fun p : Word => Memory.read m p.toNat) ∘ pa) = fun k => Memory.read m (pa k).toNat := rfl
  rw [leWord_getLsbD, List.map_map, hc, map_range_getD]
  by_cases h : j < 8 * n
  · rw [if_pos (by omega), if_pos h]; simp [hj]
  · rw [if_neg (by omega), if_neg h]; simp

/-! ### Bytes written -/

/-- Writing bytes at different addresses: each reads as written, every other address as before (R111). -/
theorem Memory.read_writeAll {m : Memory} (hm : Memory.wf m = true) (n : Nat) (pa : Nat → Word) (f : Nat → Byte)
    (hinj : ∀ j k, j < n → k < n → (pa j).toNat = (pa k).toNat → j = k) :
    (∀ k, k < n → Memory.read (Memory.writeAll m ((List.range n).map pa) ((List.range n).map f)) (pa k).toNat = f k) ∧
    ∀ a, (∀ k, k < n → a ≠ (pa k).toNat) →
      Memory.read (Memory.writeAll m ((List.range n).map pa) ((List.range n).map f)) a = Memory.read m a := by
  induction n generalizing m pa f with
  | zero => exact ⟨fun k hk => absurd hk (by omega), fun a _ => rfl⟩
  | succ n ih =>
    obtain ⟨h1, h2⟩ := ih (Memory.write_wf hm (pa 0).toNat (f 0)) (fun k => pa (k + 1)) (fun k => f (k + 1))
      (fun j k hj hk he => by have := hinj (j + 1) (k + 1) (by omega) (by omega) he; omega)
    rw [map_range_succ, map_range_succ, Memory.writeAll]
    refine ⟨fun k hk => ?_, fun a ha => ?_⟩
    · cases k with
      | zero =>
        rw [h2 _ fun k hk he => by have := hinj 0 (k + 1) (by omega) (by omega) he; omega, Memory.read_write hm, if_pos rfl]
      | succ k => exact h1 k (by omega)
    · rw [h2 a fun k hk => ha (k + 1) (by omega), Memory.read_write hm, if_neg (ha 0 (by omega))]

theorem leBytes_eq_map (n : Nat) (v : Word) : leBytes n v = (List.range n).map fun k => v.extractLsb' (8 * k) 8 := by
  apply List.ext_getElem
  · simp
  · intro k h1 h2
    have := leBytes_getD n v k (by simpa using h1)
    rw [List.getD_eq_getElem _ _ h1] at this
    rw [this]; simp

/-! ### The reservation -/

theorem granule_toNat (p : Word) : (granule p).toNat = p.toNat / 8 * 8 := by
  have h : granule p = (p >>> 3) <<< 3 := by
    unfold granule
    ext i hi
    have hm : (7#64).getLsbD i = decide (i < 3) := by
      have : ∀ k : Fin 64, (7#64).getLsbD k.val = decide (k.val < 3) := by decide
      exact this ⟨i, hi⟩
    simp only [BitVec.getElem_and, BitVec.getElem_not, BitVec.getElem_shiftLeft]
    rw [← BitVec.getLsbD_eq_getElem (x := 7#64), hm]
    by_cases h : i < 3
    · simp [h]
    · simp [h, show 3 + (i - 3) = i by omega, BitVec.getLsbD_eq_getElem hi]
  have := p.isLt
  rw [h, BitVec.toNat_shiftLeft, BitVec.toNat_ushiftRight, Nat.shiftLeft_eq, Nat.shiftRight_eq_div_pow]
  omega

theorem granule_eq_iff (p : Word) (a : BitVec 56) : (granule p == granule (a.setWidth 64)) = true ↔ p.toNat / 8 = a.toNat / 8 := by
  have ha : (a.setWidth 64).toNat = a.toNat := by
    have := a.isLt
    rw [BitVec.toNat_setWidth]; omega
  rw [beq_iff_eq]
  constructor
  · intro h
    have := congrArg BitVec.toNat h
    rw [granule_toNat, granule_toNat, ha] at this
    omega
  · intro h
    apply BitVec.eq_of_toNat_eq
    rw [granule_toNat, granule_toNat, ha, h]

/-- R360 (e) 1, for the addresses of one access. -/
theorem resvAfterWrite_spec (s : State) (n : Nat) (pa : Nat → Word) :
    ((∃ k, k < n ∧ InReservedGranule s (pa k)) → resvAfterWrite s.resv ((List.range n).map pa) = none) ∧
      ((∀ k, k < n → ¬ InReservedGranule s (pa k)) → resvAfterWrite s.resv ((List.range n).map pa) = s.resv) := by
  unfold resvAfterWrite InReservedGranule
  cases hres : s.resv with
  | none => simp
  | some a =>
    have hany : (((List.range n).map pa).any fun p => granule p == granule (a.setWidth 64)) = true ↔
        ∃ k, k < n ∧ a.toNat / 8 = (pa k).toNat / 8 := by
      rw [List.any_eq_true]
      constructor
      · rintro ⟨p, hp, hg⟩
        obtain ⟨k, hk, rfl⟩ := List.mem_map.1 hp
        exact ⟨k, List.mem_range.1 hk, ((granule_eq_iff _ _).1 hg).symm⟩
      · rintro ⟨k, hk, he⟩
        exact ⟨pa k, List.mem_map.2 ⟨k, List.mem_range.2 hk, rfl⟩, (granule_eq_iff _ _).2 he.symm⟩
    constructor
    · rintro ⟨k, hk, b, hb, he⟩
      cases hb
      simp only
      rw [if_pos (hany.2 ⟨k, hk, he⟩)]
    · intro hno
      simp only
      rw [if_neg fun h => ?_]
      obtain ⟨k, hk, he⟩ := hany.1 h
      exact hno k hk ⟨a, rfl, he⟩

theorem resvAfterWrite_or (r : Option (BitVec 56)) (ps : List Word) : resvAfterWrite r ps = r ∨ resvAfterWrite r ps = none := by
  unfold resvAfterWrite
  cases r with
  | none => exact .inl rfl
  | some a => simp only; split <;> simp

end Sys2Proof.Machine
end

