-- ==== Sys2Proof/Laws/Alu.lean ====
section
/-! SUPPORT. The arithmetic of the model as integer arithmetic (00_scope.md R8; 40_integer_alu.md R231; 44_muldiv.md). -/

namespace Sys2Proof.Machine

/-! ### Immediates -/

theorem signExtend_eq_ofInt {n : Nat} (m : Nat) (x : BitVec n) : x.signExtend m = BitVec.ofInt m x.toInt := rfl

theorem immI_eq (imm : BitVec 12) : immI imm = BitVec.ofInt 64 imm.toInt := rfl

theorem immU_eq (imm : BitVec 20) : immU imm = BitVec.ofInt 64 (imm.toInt * 4096) := by
  have h : (imm ++ 0#12 : BitVec 32).toInt = imm.toInt * 4096 := by
    rw [BitVec.toInt_eq_toNat_bmod, BitVec.toInt_eq_toNat_bmod, BitVec.toNat_append]
    simp only [BitVec.toNat_ofNat, Nat.zero_mod, Nat.or_zero, Nat.shiftLeft_eq]
    have := imm.isLt
    rw [Int.bmod_def, Int.bmod_def]
    omega
  rw [immU, signExtend_eq_ofInt, h]

/-! ### Integers modulo 2^64 -/

theorem ofNat_add_toNat (a b : Word) : BitVec.ofNat 64 (a.toNat + b.toNat) = a + b := by
  apply BitVec.eq_of_toNat_eq; simp

theorem ofInt_add_toInt (a b : Word) : BitVec.ofInt 64 (a.toInt + b.toInt) = a + b := by
  rw [BitVec.ofInt_add, BitVec.ofInt_toInt, BitVec.ofInt_toInt]

theorem ofInt_sub_toInt (a b : Word) : BitVec.ofInt 64 (a.toInt - b.toInt) = a - b := by
  rw [Int.sub_eq_add_neg, BitVec.ofInt_add, BitVec.ofInt_neg, BitVec.ofInt_toInt, BitVec.ofInt_toInt, BitVec.sub_eq_add_neg]

theorem ofInt_mul_toInt (a b : Word) : BitVec.ofInt 64 (a.toInt * b.toInt) = a * b := by
  rw [BitVec.ofInt_mul, BitVec.ofInt_toInt, BitVec.ofInt_toInt]

theorem aluSll_eq (a : Word) (n : Nat) : aluSll a n = BitVec.ofNat 64 (a.toNat * 2 ^ n) := by
  apply BitVec.eq_of_toNat_eq; simp [aluSll, Nat.shiftLeft_eq]

theorem aluSrl_eq (a : Word) (n : Nat) : aluSrl a n = BitVec.ofNat 64 (a.toNat / 2 ^ n) := by
  apply BitVec.eq_of_toNat_eq
  have : a.toNat / 2 ^ n < 2 ^ 64 := Nat.lt_of_le_of_lt (Nat.div_le_self ..) a.isLt
  rw [aluSrl, BitVec.toNat_ushiftRight, Nat.shiftRight_eq_div_pow, BitVec.toNat_ofNat, Nat.mod_eq_of_lt this]

theorem aluSra_eq (a : Word) (n : Nat) : aluSra a n = BitVec.ofInt 64 (a.toInt / 2 ^ n) := by
  rw [aluSra, BitVec.sshiftRight, Int.shiftRight_eq_div_pow]; simp

theorem shiftAmount64_eq (v : Word) : shiftAmount64 v = v.toNat % 64 := by
  simp [shiftAmount64, BitVec.extractLsb'_toNat]

theorem shiftAmount32_eq (v : Word) : shiftAmount32 v = v.toNat % 32 := by
  simp [shiftAmount32, BitVec.extractLsb'_toNat]

/-! ### Word results: the integer as a signed 32-bit value, sign-extended -/

theorem sextWord_ofInt (x : Int) : sextWord (BitVec.ofInt 32 x) = BitVec.ofInt 64 (Int.bmod x (2 ^ 32)) := by
  rw [sextWord, signExtend_eq_ofInt, BitVec.toInt_ofInt]

theorem sextWord_eq (x : BitVec 32) : sextWord x = BitVec.ofInt 64 (Int.bmod x.toInt (2 ^ 32)) := by
  rw [← sextWord_ofInt, BitVec.ofInt_toInt]

theorem lowWord_ofInt (x : Int) : lowWord (BitVec.ofInt 64 x) = BitVec.ofInt 32 x := by
  apply BitVec.eq_of_toNat_eq
  simp only [lowWord, BitVec.extractLsb'_toNat, BitVec.toNat_ofInt, Nat.shiftRight_zero]
  omega

theorem lowWord_toNat (a : Word) : (lowWord a).toNat = a.toNat % 2 ^ 32 := by
  simp [lowWord, BitVec.extractLsb'_toNat]

theorem lowWord_toInt (a : Word) : (lowWord a).toInt = Int.bmod a.toNat (2 ^ 32) := by
  rw [BitVec.toInt_eq_toNat_bmod, lowWord_toNat, Int.natCast_mod]
  exact Int.emod_bmod ..

theorem aluAddw_eq (a b : Word) : aluAddw a b = BitVec.ofInt 64 (Int.bmod (a.toInt + b.toInt) (2 ^ 32)) := by
  rw [aluAddw, ← ofInt_add_toInt, lowWord_ofInt, sextWord_ofInt]

theorem aluSubw_eq (a b : Word) : aluSubw a b = BitVec.ofInt 64 (Int.bmod (a.toInt - b.toInt) (2 ^ 32)) := by
  rw [aluSubw, ← ofInt_sub_toInt, lowWord_ofInt, sextWord_ofInt]

theorem bmod_toNat_low (x : Nat) : Int.bmod ((x % 2 ^ 32 : Nat) : Int) (2 ^ 32) = Int.bmod x (2 ^ 32) := by
  rw [Int.natCast_mod]
  exact Int.emod_bmod ..

theorem sextWord_ofNat (x : Nat) : sextWord (BitVec.ofNat 32 x) = BitVec.ofInt 64 (Int.bmod x (2 ^ 32)) := by
  rw [← BitVec.ofInt_natCast, sextWord_ofInt]

theorem aluSllw_eq (a : Word) (n : Nat) : aluSllw a n = BitVec.ofInt 64 (Int.bmod (a.toNat * 2 ^ n : Nat) (2 ^ 32)) := by
  rw [aluSllw, ← sextWord_ofNat]
  congr 1
  apply BitVec.eq_of_toNat_eq
  simp only [BitVec.toNat_shiftLeft, lowWord_toNat, Nat.shiftLeft_eq, BitVec.toNat_ofNat]
  rw [Nat.mod_mul_mod]

theorem aluSrlw_eq (a : Word) (n : Nat) :
    aluSrlw a n = BitVec.ofInt 64 (Int.bmod (a.toNat % 2 ^ 32 / 2 ^ n : Nat) (2 ^ 32)) := by
  rw [aluSrlw, ← sextWord_ofNat]
  congr 1
  apply BitVec.eq_of_toNat_eq
  have : a.toNat % 2 ^ 32 / 2 ^ n < 2 ^ 32 := Nat.lt_of_le_of_lt (Nat.div_le_self ..) (Nat.mod_lt _ (by decide))
  rw [BitVec.toNat_ushiftRight, lowWord_toNat, Nat.shiftRight_eq_div_pow, BitVec.toNat_ofNat, Nat.mod_eq_of_lt this]

theorem aluSraw_eq (a : Word) (n : Nat) :
    aluSraw a n = BitVec.ofInt 64 (Int.bmod (Int.bmod a.toNat (2 ^ 32) / 2 ^ n) (2 ^ 32)) := by
  rw [aluSraw, BitVec.sshiftRight, Int.shiftRight_eq_div_pow, lowWord_toInt, sextWord_ofInt]; simp

/-! ### Products -/

theorem extract_high_ofInt (x : Int) : (BitVec.ofInt 128 x).extractLsb' 64 64 = BitVec.ofInt 64 (x / 2 ^ 64) := by
  apply BitVec.eq_of_toNat_eq
  simp only [BitVec.extractLsb'_toNat, BitVec.toNat_ofInt, Nat.shiftRight_eq_div_pow]
  omega

theorem mulHigh_eq (a b : Word) : mulHigh a b = BitVec.ofInt 64 (a.toInt * b.toInt / 2 ^ 64) := by
  rw [mulHigh, signExtend_eq_ofInt, signExtend_eq_ofInt, ← BitVec.ofInt_mul, extract_high_ofInt]

theorem setWidth128_eq (b : Word) : b.setWidth 128 = BitVec.ofInt 128 b.toNat := by
  apply BitVec.eq_of_toNat_eq
  have := b.isLt
  simp only [BitVec.toNat_setWidth, BitVec.toNat_ofInt]
  omega

theorem mulHighSU_eq (a b : Word) : mulHighSU a b = BitVec.ofInt 64 (a.toInt * b.toNat / 2 ^ 64) := by
  rw [mulHighSU, signExtend_eq_ofInt, setWidth128_eq, ← BitVec.ofInt_mul, extract_high_ofInt]

theorem mulHighU_eq (a b : Word) : mulHighU a b = BitVec.ofNat 64 (a.toNat * b.toNat / 2 ^ 64) := by
  rw [mulHighU, setWidth128_eq, setWidth128_eq, ← BitVec.ofInt_mul, extract_high_ofInt, ← BitVec.ofInt_natCast]
  simp

theorem mulWord_eq (a b : Word) : mulWord a b = BitVec.ofInt 64 (Int.bmod (a.toInt * b.toInt) (2 ^ 32)) := by
  have h : lowWord a * lowWord b = BitVec.ofInt 32 (a.toInt * b.toInt) := by
    rw [BitVec.ofInt_mul, ← lowWord_ofInt, ← lowWord_ofInt, BitVec.ofInt_toInt, BitVec.ofInt_toInt]
  rw [mulWord, h, sextWord_ofInt]

/-! ### Quotients and remainders, at any width -/

theorem toInt_allOnes {n : Nat} (h : 0 < n) : (BitVec.allOnes n).toInt = -1 := by
  exact BitVec.toInt_allOnes.trans (if_pos h)

/-- R334, R343: the special cases are the exact quotient, wrapped. -/
theorem divSigned_eq {n : Nat} (h : 1 < n) (a b : BitVec n) :
    divSigned a b = if b = 0 then BitVec.allOnes n else BitVec.ofInt n (a.toInt.tdiv b.toInt) := by
  unfold divSigned
  split
  · rfl
  · split
    · rename_i hb hab
      obtain ⟨rfl, rfl⟩ := hab
      rw [toInt_allOnes (by omega), Int.tdiv_neg, Int.tdiv_one, BitVec.ofInt_neg, BitVec.ofInt_toInt, BitVec.neg_intMin]
    · rfl

/-- R336, R343: the special cases are the exact remainder. -/
theorem remSigned_eq {n : Nat} (h : 1 < n) (a b : BitVec n) :
    remSigned a b = if b = 0 then a else BitVec.ofInt n (a.toInt.tmod b.toInt) := by
  unfold remSigned
  split
  · rfl
  · split
    · rename_i hb hab
      obtain ⟨rfl, rfl⟩ := hab
      rw [toInt_allOnes (by omega), Int.tmod_neg, Int.tmod_one]; rfl
    · rw [Int.tmod_def, Int.mul_comm]

theorem lowWord_eq_zero (b : Word) : lowWord b = 0 ↔ b.toNat % 2 ^ 32 = 0 := by
  rw [← lowWord_toNat]
  exact ⟨fun h => by rw [h]; rfl, fun h => BitVec.eq_of_toNat_eq (by rw [h]; rfl)⟩

end Sys2Proof.Machine
end

