-- ==== Sys2Proof/Laws/Completion.lean ====
section
/-! SUPPORT. What the shared commits do, in the terms of the statements (Sys2Proof/Safety.lean). -/

namespace Sys2Proof.Machine

theorem writesReg_setReg (s : State) (rd : Reg) (v : Word) : WritesReg s (s.setReg rd v) rd v := by
  refine ⟨?_, fun r hr => ?_⟩
  · rw [State.reg_setReg, if_pos rfl]
  · rw [State.reg_setReg, if_neg hr]
    split
    · rename_i h; rw [h]; rfl
    · rfl

/-- An instruction that ends in retire of a register write to a state that kept the registers writes that register. -/
theorem writesReg_retire_setReg {s s1 : State} (h : s1.regs = s.regs) (p : Word) (rd : Reg) (v : Word) :
    WritesReg s (retire p (s1.setReg rd v)) rd v := by
  obtain ⟨h1, h2⟩ := writesReg_setReg s1 rd v
  exact ⟨h1, fun r hr => (h2 r hr).trans (State.reg_congr h r)⟩

theorem retired_retire {s s1 : State} (hp : s1.priv = s.priv) (hc : s1.csr = s.csr) (p : Word) : Retired s (retire p s1) p :=
  ⟨rfl, rfl, hp, by rw [retire_csr, hc]⟩

/-- writeBack: x[rd] and pc, nothing else (10_state.md R35, R90). -/
theorem writeBack_completes (rd : Reg) (v : Word) (s : State) : CompletesReg (writeBack rd v s) s rd v (s.pc + 4) := by
  refine ⟨_, rfl, retired_retire ?_ ?_ _, writesReg_retire_setReg rfl _ rd v, fun a => ?_, ?_, ?_, ?_, ?_⟩ <;> simp

/-- Retiring without a write. -/
theorem retire_completes (p : Word) (s : State) : CompletesOnlyPc (.next (retire p s)) s p :=
  ⟨_, rfl, retired_retire rfl rfl p, fun _ => rfl, fun _ => rfl, rfl, rfl, rfl, rfl⟩

end Sys2Proof.Machine
end

