-- ==== Sys2Proof/Laws/Control.lean ====
section
/-! SUPPORT. Control transfer (42_control_transfer.md R280) and targets as integers. -/

namespace Sys2Proof.Machine

/-- The low two bits are 0 iff the value is a multiple of 4. -/
theorem low2_eq_zero (t : Word) : t.extractLsb' 0 2 = 0#2 ↔ t.toNat % 4 = 0 := by
  constructor
  · intro h
    have := congrArg BitVec.toNat h
    simpa [BitVec.extractLsb'_toNat] using this
  · intro h
    apply BitVec.eq_of_toNat_eq
    simpa [BitVec.extractLsb'_toNat] using h

theorem transferTo_aligned {t : Word} (h : t.toNat % 4 = 0) (c s : State) : transferTo t c s = .next (retire t c) := by
  rw [transferTo, if_pos ((low2_eq_zero t).2 h)]

theorem transferTo_misaligned {t : Word} (h : t.toNat % 4 ≠ 0) (c s : State) :
    transferTo t c s = .next (takeTrap (.exception .instrAddrMisaligned) t s.pc s) := by
  rw [transferTo, if_neg fun h' => h ((low2_eq_zero t).1 h')]; rfl

theorem add_signExtend {n : Nat} (a : Word) (x : BitVec n) : a + x.signExtend 64 = BitVec.ofInt 64 (a.toInt + x.toInt) := by
  rw [BitVec.ofInt_add, BitVec.ofInt_toInt]; rfl

/-- Clearing bit 0 of a sum is rounding it down to an even number. -/
theorem clear_bit0 (x : Int) : BitVec.ofInt 64 x &&& ~~~1#64 = BitVec.ofInt 64 (x / 2 * 2) := by
  have h : ∀ w : Word, w &&& ~~~1#64 = (w >>> 1) <<< 1 := by
    intro w
    ext i hi
    by_cases h0 : i = 0
    · subst h0; simp
    · have : (1#64).getLsbD i = false := by rw [BitVec.getLsbD_one]; simp [h0]
      simp only [BitVec.getElem_and, BitVec.getElem_not, BitVec.getElem_shiftLeft]
      rw [← BitVec.getLsbD_eq_getElem (x := 1#64), this]
      simp [show ¬ i < 1 by omega, show 1 + (i - 1) = i by omega, BitVec.getLsbD_eq_getElem hi]
  rw [h]
  apply BitVec.eq_of_toNat_eq
  simp only [BitVec.toNat_shiftLeft, BitVec.toNat_ushiftRight, BitVec.toNat_ofInt, Nat.shiftLeft_eq, Nat.shiftRight_eq_div_pow]
  omega

end Sys2Proof.Machine
end

