-- ==== Sys2Proof/Laws/Csr.lean ====
section
/-! SUPPORT. The CSR addresses and their access rules (10_state.md R40 to R46, R62), the write rules in the words of the statements
(Sys2Proof/Safety.lean), and what csrOp does (43_zicsr.md R300). -/

namespace Sys2Proof.Machine

/-! ### Addresses and access rules -/

theorem csrAt_isSome_iff (a : CsrAddr) : (csrAt a).isSome = true ↔
    a ∈ [0x100#12, 0x104#12, 0x105#12, 0x140#12, 0x141#12, 0x142#12, 0x143#12, 0x144#12, 0x180#12, 0x300#12, 0x302#12, 0x303#12,
      0x304#12, 0x305#12, 0x340#12, 0x341#12, 0x342#12, 0x343#12, 0x344#12, 0xC00#12, 0xC01#12, 0xC02#12] := by
  rw [csrAt, Option.isSome_map, List.find?_isSome]
  simp only [csrTable, List.mem_cons, List.not_mem_nil, or_false, beq_iff_eq, exists_eq_or_imp, exists_eq_left]
  simp only [eq_comm]

theorem extraCsr_isSome_iff (p : Platform) (a : CsrAddr) : (extraCsr p a).isSome = true ↔ ∃ c, (a, c) ∈ p.extraRoCsrs := by
  rw [extraCsr, Option.isSome_map, List.find?_isSome]
  constructor
  · rintro ⟨⟨b, c⟩, h, e⟩
    exact ⟨c, beq_iff_eq.1 e ▸ h⟩
  · rintro ⟨c, h⟩
    exact ⟨(a, c), h, by simp⟩

theorem csrMinPriv_toNat (a : CsrAddr) : (csrMinPriv a).toNat = minPrivOf a := by
  simp [csrMinPriv, minPrivOf, BitVec.extractLsb'_toNat, Nat.shiftRight_eq_div_pow]

theorem csrReadOnly_iff (a : CsrAddr) : csrReadOnly a = true ↔ a.toNat / 2 ^ 10 = 3 := by
  have := a.isLt
  have h : (a.extractLsb' 10 2).toNat = a.toNat / 2 ^ 10 % 4 := by
    simp [BitVec.extractLsb'_toNat, Nat.shiftRight_eq_div_pow]
  rw [csrReadOnly, beq_iff_eq, ← BitVec.toNat_inj, h]
  simp only [BitVec.toNat_ofNat]
  omega

theorem csrImplemented_iff (s : State) (a : CsrAddr) : csrImplemented s a = true ↔
    (csrAt a).isSome = true ∨ (∃ c, (a, c) ∈ s.platform.extraRoCsrs) ∧ minPrivOf a ≠ 2 := by
  rw [csrImplemented, Bool.or_eq_true, Bool.and_eq_true, extraCsr_isSome_iff, bne_iff_ne, Ne, ← BitVec.toNat_inj, csrMinPriv_toNat]
  simp only [BitVec.toNat_ofNat]
  tauto

theorem csrReadLegal_iff (s : State) (a : CsrAddr) :
    csrReadLegal s a = true ↔ csrImplemented s a = true ∧ minPrivOf a ≤ s.priv.code.toNat := by
  rw [csrReadLegal, Bool.and_eq_true, decide_eq_true_eq, csrMinPriv_toNat]

theorem csrWriteLegal_iff (s : State) (a : CsrAddr) :
    csrWriteLegal s a = true ↔ csrReadLegal s a = true ∧ a.toNat / 2 ^ 10 ≠ 3 := by
  rw [csrWriteLegal, Bool.and_eq_true, Bool.not_eq_true', ← Bool.not_eq_true, csrReadOnly_iff]

theorem csrLegal_iff (k : CsrKind) (rd : Reg) (a : CsrAddr) (f : BitVec 5) (s : State) : csrLegal k rd a f s = true ↔
    (csrDoesRead k rd = true → csrReadLegal s a = true) ∧ (csrDoesWrite k f = true → csrWriteLegal s a = true) := by
  rw [csrLegal, Bool.and_eq_true, Bool.or_eq_true, Bool.or_eq_true]
  cases csrDoesRead k rd <;> cases csrDoesWrite k f <;> simp

/-- On well-formed parameters an extra CSR is its constant: R40 does not list its address, and no other entry has it (R62; log 18). -/
theorem extraCsr_of_mem {p : Platform} (hp : p.wf = true) {a : CsrAddr} {c : Word} (hm : (a, c) ∈ p.extraRoCsrs) :
    csrAt a = none ∧ extraCsr p a = some c ∧ minPrivOf a ≠ 2 := by
  obtain ⟨-, -, -, -, -, -, hok, hpw⟩ := (Platform.wf_iff _).1 hp
  have ha := hok _ hm
  simp only [extraCsrOk, Bool.and_eq_true, beq_iff_eq, bne_iff_ne] at ha
  obtain ⟨⟨⟨⟨a1, a2⟩, a3⟩, a4⟩, a5⟩ := ha
  refine ⟨?_, ?_, ?_⟩
  · rw [← Option.not_isSome_iff_eq_none, csrAt_isSome_iff]
    intro hmem
    simp only [List.mem_cons, List.not_mem_nil, or_false] at hmem
    rcases hmem with rfl | rfl | rfl | rfl | rfl | rfl | rfl | rfl | rfl | rfl | rfl | rfl | rfl | rfl | rfl | rfl | rfl | rfl | rfl |
      rfl | rfl | rfl
    all_goals first | exact absurd a1 (by decide) | exact absurd rfl a3 | exact absurd rfl a4 | exact absurd rfl a5
  · rw [List.pairwise_map] at hpw
    have hf : p.extraRoCsrs.find? (fun e => e.1 == a) = some (a, c) := by
      cases hf : p.extraRoCsrs.find? (fun e => e.1 == a) with
      | none => exact absurd (by simp) (List.find?_eq_none.1 hf _ hm)
      | some e =>
        have he := List.find?_some hf
        simp only [beq_iff_eq] at he
        by_cases hne : e = (a, c)
        · rw [hne]
        · exact absurd he (pairwise_symm (fun x y h => Ne.symm h) hpw (List.mem_of_find?_eq_some hf) hm hne)
    rw [extraCsr, hf]; rfl
  · intro h
    apply a2
    apply BitVec.eq_of_toNat_eq
    exact (csrMinPriv_toNat a).trans h

/-! ### The writable CSRs (10_state.md R45, R47 to R58) -/

theorem throughMask_getLsbD (mask : Nat) (old v : Word) (j : Nat) :
    (throughMask mask old v).getLsbD j =
      (decide (j < 64) && if mask.testBit j then v.getLsbD j else old.getLsbD j) := by
  unfold throughMask
  by_cases hj : j < 64
  · simp only [BitVec.getLsbD_or, BitVec.getLsbD_and, BitVec.getLsbD_not, BitVec.getLsbD_ofNat, hj, decide_true, Bool.true_and]
    cases mask.testBit j <;> simp
  · simp [BitVec.getLsbD_of_ge, show 64 ≤ j by omega]

theorem mergeMasked_eq (old v : Word) (mask : Nat) : mergeMasked old (BitVec.ofNat 64 mask) v = throughMask mask old v := rfl

/-- R47's write rule: through the mask of the writable fields, without MPP when 2 is written to it. -/
theorem mstatusWrite_eq (old v : Word) :
    mstatusWrite old v = throughMask (if v.toNat / 2 ^ 11 % 4 = 2 then 0xC01AA else 0xC19AA) old v := by
  have hc : getMpp v = 2 ↔ v.toNat / 2 ^ 11 % 4 = 2 := by rw [← BitVec.toNat_inj, getMpp_eq]; rfl
  by_cases h : getMpp v = 2
  · rw [mstatusWrite, if_pos h, if_pos (hc.1 h)]
    ext j hj
    rw [← BitVec.getLsbD_eq_getElem, ← BitVec.getLsbD_eq_getElem, setMpp_getLsbD, mergeMasked_getLsbD, throughMask_getLsbD]
    have hm : ∀ k : Fin 64, (mstatusMask).getLsbD k.val = (decide (k.val = 11) || decide (k.val = 12) || Nat.testBit 0xC01AA k.val) := by
      decide
    have hm := hm ⟨j, hj⟩
    have h11 : Nat.testBit 0xC01AA 11 = false := by decide
    have h12 : Nat.testBit 0xC01AA 12 = false := by decide
    by_cases h1 : j = 11
    · subst h1; simp [h11, getMpp]
    · by_cases h2 : j = 12
      · subst h2; simp [h12, getMpp]
      · simp only [h1, h2, decide_false, Bool.false_or] at hm
        rw [if_neg h1, if_neg h2, hm]
        simp only [hj, decide_true, Bool.true_and]
  · rw [mstatusWrite, if_neg h, if_neg (fun h' => h (hc.2 h'))]; rfl

theorem satpMode_toNat (w : Word) : (satpMode w).toNat = w.toNat / 2 ^ 60 := by
  have := w.isLt
  simp only [satpMode, BitVec.extractLsb'_toNat, Nat.shiftRight_eq_div_pow]
  omega

theorem satpWrite_eq (old v : Word) : satpWrite old v = if v.toNat / 2 ^ 60 = 0 ∨ v.toNat / 2 ^ 60 = 8 then v else old := by
  have h0 : satpMode v = 0 ↔ v.toNat / 2 ^ 60 = 0 := by rw [← BitVec.toNat_inj, satpMode_toNat]; rfl
  have h8 : satpMode v = 8 ↔ v.toNat / 2 ^ 60 = 8 := by rw [← BitVec.toNat_inj, satpMode_toNat]; rfl
  simp only [satpWrite, h0, h8]

/-- Each row of the table of writable CSRs is a CSR of the model with the same read value and write rule. -/
theorem writableCsr_spec {c : WritableCsr} (hc : c ∈ writableCsrs) :
    ∃ k, csrAt c.addr = some k ∧ csrDraws k = 0 ∧ c.addr.toNat / 2 ^ 10 ≠ 3 ∧ (∀ s : State, csrValue s k = c.view s.csr) ∧
      ∀ f v, csrStore f k v = c.after f v := by
  simp only [writableCsrs, List.mem_cons, List.not_mem_nil, or_false] at hc
  rcases hc with rfl | rfl | rfl | rfl | rfl | rfl | rfl | rfl | rfl | rfl | rfl | rfl | rfl | rfl | rfl | rfl | rfl | rfl | rfl
  · exact ⟨.mstatus, rfl, rfl, by decide, fun _ => rfl, fun f v => by simp only [csrStore, mstatusWrite_eq]⟩
  · exact ⟨.sstatus, rfl, rfl, by decide, fun _ => rfl, fun f v => rfl⟩
  · exact ⟨.mie, rfl, rfl, by decide, fun _ => rfl, fun f v => rfl⟩
  · exact ⟨.sie, rfl, rfl, by decide, fun _ => rfl, fun f v => rfl⟩
  · exact ⟨.mip, rfl, rfl, by decide, fun _ => rfl, fun f v => rfl⟩
  · exact ⟨.sip, rfl, rfl, by decide, fun _ => rfl, fun f v => rfl⟩
  · exact ⟨.medeleg, rfl, rfl, by decide, fun _ => rfl, fun f v => rfl⟩
  · exact ⟨.mideleg, rfl, rfl, by decide, fun _ => rfl, fun f v => rfl⟩
  · exact ⟨.mtvec, rfl, rfl, by decide, fun _ => rfl, fun f v => rfl⟩
  · exact ⟨.stvec, rfl, rfl, by decide, fun _ => rfl, fun f v => rfl⟩
  · exact ⟨.mepc, rfl, rfl, by decide, fun _ => rfl, fun f v => rfl⟩
  · exact ⟨.sepc, rfl, rfl, by decide, fun _ => rfl, fun f v => rfl⟩
  · exact ⟨.mscratch, rfl, rfl, by decide, fun _ => rfl, fun f v => rfl⟩
  · exact ⟨.sscratch, rfl, rfl, by decide, fun _ => rfl, fun f v => rfl⟩
  · exact ⟨.mcause, rfl, rfl, by decide, fun _ => rfl, fun f v => rfl⟩
  · exact ⟨.scause, rfl, rfl, by decide, fun _ => rfl, fun f v => rfl⟩
  · exact ⟨.mtval, rfl, rfl, by decide, fun _ => rfl, fun f v => rfl⟩
  · exact ⟨.stval, rfl, rfl, by decide, fun _ => rfl, fun f v => rfl⟩
  · refine ⟨.satp, rfl, rfl, by decide, fun _ => rfl, fun f v => ?_⟩
    simp only [csrStore, satpWrite_eq]
    split <;> rfl

/-! ### csrOp -/

theorem csrOp_illegal {k : CsrKind} {rd : Reg} {a : CsrAddr} {f : BitVec 5} {s : State} (h : ¬ csrLegal k rd a f s = true) (src : Word)
    (w : InstrWord) : Traps (csrOp k rd a f src w s) s .illegalInstr (zextWord w) := by
  rw [csrOp, if_neg h]; rfl

theorem csrOp_legal {k : CsrKind} {rd : Reg} {a : CsrAddr} {f : BitVec 5} {s : State} (h : csrLegal k rd a f s = true) (src : Word)
    (w : InstrWord) : csrOp k rd a f src w s = .next (csrCommit k rd a f src s) := by
  rw [csrOp, if_pos h]

/-- What a legal csrOp leaves: the pc, the result, and every part of the state it does not concern. -/
theorem csrCommit_frame (k : CsrKind) (rd : Reg) (a : CsrAddr) (f : BitVec 5) (src : Word) (s : State) :
    let t := csrCommit k rd a f src s
    t.pc = s.pc + 4 ∧ t.result = some .ok ∧ t.priv = s.priv ∧ t.mem = s.mem ∧ t.resv = s.resv ∧ t.platform = s.platform ∧
      t.events = s.events ∧ WritesReg s t rd (csrOld k rd a s) := by
  intro t
  have hregs : ∀ b c : Bool, ∀ v, ((if c then csrWrite (if b then afterCsrRead s a else s) a v
      else if b then afterCsrRead s a else s) : State).regs = s.regs := by
    intro b c v; cases b <;> cases c <;> simp
  refine ⟨rfl, rfl, ?_, ?_, ?_, ?_, ?_, writesReg_retire_setReg (hregs _ _ _) _ _ _⟩
  all_goals
    simp only [t, csrCommit, retire_priv, retire_mem, retire_resv, retire_platform, retire_events, State.setReg_priv,
      State.setReg_mem, State.setReg_resv, State.setReg_platform, State.setReg_events]
    split <;> split <;> simp

/-- The CSR storage after a legal csrOp on a listed CSR. -/
theorem csrCommit_csr {a : CsrAddr} {c : Csr} (hc : csrAt a = some c) (k : CsrKind) (rd : Reg) (f : BitVec 5) (src : Word) (s : State) :
    (csrCommit k rd a f src s).csr =
      { (if csrDoesWrite k f then csrStore s.csr c (csrNew k (csrOld k rd a s) src) else s.csr) with
        instret := s.csr.instret + 1 } := by
  simp only [csrCommit, retire_csr, State.setReg_csr]
  cases csrDoesRead k rd <;> cases csrDoesWrite k f <;> simp [csrWrite, afterCsrRead, hc]

/-- The draws after a legal csrOp on a listed CSR. -/
theorem csrCommit_draws {a : CsrAddr} {c : Csr} (hc : csrAt a = some c) (k : CsrKind) (rd : Reg) (f : BitVec 5) (src : Word) (s : State) :
    (csrCommit k rd a f src s).draws = if csrDoesRead k rd then s.draws + csrDraws c else s.draws := by
  simp only [csrCommit, retire_draws, State.setReg_draws]
  cases csrDoesRead k rd <;> cases csrDoesWrite k f <;> simp [csrWrite, afterCsrRead, hc]

end Sys2Proof.Machine
end

