-- ==== Sys2Proof/Laws/Decode.lean ====
section
/-! SUPPORT. The formats of 30_encoding.md R162 field by field, the table of R171 as one decision per word, and for each row that its
words are the ones the encoder writes. -/

namespace Sys2Proof

open BitVec

/-! ### A word of each format has the fields it was made from (R161 to R169) -/

@[simp] theorem fieldRd_wordR (f7 : BitVec 7) (rs2 rs1 : Reg) (f3 : BitVec 3) (rd : Reg) (op : BitVec 7) :
    fieldRd (wordR f7 rs2 rs1 f3 rd op) = rd := by
  simp only [fieldRd, wordR, BitVec.extractLsb'_append_eq_ite]; simp
@[simp] theorem fieldRs1_wordR (f7 : BitVec 7) (rs2 rs1 : Reg) (f3 : BitVec 3) (rd : Reg) (op : BitVec 7) :
    fieldRs1 (wordR f7 rs2 rs1 f3 rd op) = rs1 := by
  simp only [fieldRs1, wordR, BitVec.extractLsb'_append_eq_ite]; simp
@[simp] theorem fieldRs2_wordR (f7 : BitVec 7) (rs2 rs1 : Reg) (f3 : BitVec 3) (rd : Reg) (op : BitVec 7) :
    fieldRs2 (wordR f7 rs2 rs1 f3 rd op) = rs2 := by
  simp only [fieldRs2, wordR, BitVec.extractLsb'_append_eq_ite]; simp
@[simp] theorem fieldShamt32_wordR (f7 : BitVec 7) (rs2 rs1 : Reg) (f3 : BitVec 3) (rd : Reg) (op : BitVec 7) :
    fieldShamt32 (wordR f7 rs2 rs1 f3 rd op) = rs2 := by
  simp only [fieldShamt32, wordR, BitVec.extractLsb'_append_eq_ite]; simp

@[simp] theorem fieldRd_wordI (imm : BitVec 12) (rs1 : Reg) (f3 : BitVec 3) (rd : Reg) (op : BitVec 7) :
    fieldRd (wordI imm rs1 f3 rd op) = rd := by
  simp only [fieldRd, wordI, BitVec.extractLsb'_append_eq_ite]; simp
@[simp] theorem fieldRs1_wordI (imm : BitVec 12) (rs1 : Reg) (f3 : BitVec 3) (rd : Reg) (op : BitVec 7) :
    fieldRs1 (wordI imm rs1 f3 rd op) = rs1 := by
  simp only [fieldRs1, wordI, BitVec.extractLsb'_append_eq_ite]; simp
@[simp] theorem fieldImmI_wordI (imm : BitVec 12) (rs1 : Reg) (f3 : BitVec 3) (rd : Reg) (op : BitVec 7) :
    fieldImmI (wordI imm rs1 f3 rd op) = imm := by
  simp only [fieldImmI, wordI, BitVec.extractLsb'_append_eq_ite]; simp
@[simp] theorem fieldCsr_wordI (imm : BitVec 12) (rs1 : Reg) (f3 : BitVec 3) (rd : Reg) (op : BitVec 7) :
    fieldCsr (wordI imm rs1 f3 rd op) = imm := by
  simp only [fieldCsr, wordI, BitVec.extractLsb'_append_eq_ite]; simp
@[simp] theorem fieldUimm_wordI (imm : BitVec 12) (rs1 : Reg) (f3 : BitVec 3) (rd : Reg) (op : BitVec 7) :
    fieldUimm (wordI imm rs1 f3 rd op) = rs1 := by
  simp only [fieldUimm, wordI, BitVec.extractLsb'_append_eq_ite]; simp

@[simp] theorem fieldRd_wordShift64 (f6 shamt : BitVec 6) (rs1 : Reg) (f3 : BitVec 3) (rd : Reg) (op : BitVec 7) :
    fieldRd (wordShift64 f6 shamt rs1 f3 rd op) = rd := by
  simp only [fieldRd, wordShift64, BitVec.extractLsb'_append_eq_ite]; simp
@[simp] theorem fieldRs1_wordShift64 (f6 shamt : BitVec 6) (rs1 : Reg) (f3 : BitVec 3) (rd : Reg) (op : BitVec 7) :
    fieldRs1 (wordShift64 f6 shamt rs1 f3 rd op) = rs1 := by
  simp only [fieldRs1, wordShift64, BitVec.extractLsb'_append_eq_ite]; simp
@[simp] theorem fieldShamt64_wordShift64 (f6 shamt : BitVec 6) (rs1 : Reg) (f3 : BitVec 3) (rd : Reg) (op : BitVec 7) :
    fieldShamt64 (wordShift64 f6 shamt rs1 f3 rd op) = shamt := by
  simp only [fieldShamt64, wordShift64, BitVec.extractLsb'_append_eq_ite]; simp

@[simp] theorem fieldRs1_wordS (imm : BitVec 12) (rs2 rs1 : Reg) (f3 : BitVec 3) (op : BitVec 7) :
    fieldRs1 (wordS imm rs2 rs1 f3 op) = rs1 := by
  simp only [fieldRs1, wordS, BitVec.extractLsb'_append_eq_ite]; simp
@[simp] theorem fieldRs2_wordS (imm : BitVec 12) (rs2 rs1 : Reg) (f3 : BitVec 3) (op : BitVec 7) :
    fieldRs2 (wordS imm rs2 rs1 f3 op) = rs2 := by
  simp only [fieldRs2, wordS, BitVec.extractLsb'_append_eq_ite]; simp
@[simp] theorem fieldImmS_wordS (imm : BitVec 12) (rs2 rs1 : Reg) (f3 : BitVec 3) (op : BitVec 7) :
    fieldImmS (wordS imm rs2 rs1 f3 op) = imm := by
  simp only [fieldImmS, wordS, BitVec.extractLsb'_append_eq_ite]
  simp
  apply BitVec.eq_of_getLsbD_eq
  intro i hi
  rw [BitVec.getLsbD_append]
  simp only [BitVec.getLsbD_extractLsb']
  split
  · simp; omega
  · rw [decide_eq_true (by omega), Bool.true_and]; congr 1; omega

@[simp] theorem fieldRs1_wordB (imm : BitVec 13) (rs2 rs1 : Reg) (f3 : BitVec 3) (op : BitVec 7) :
    fieldRs1 (wordB imm rs2 rs1 f3 op) = rs1 := by
  simp only [fieldRs1, wordB, BitVec.extractLsb'_append_eq_ite]; simp
@[simp] theorem fieldRs2_wordB (imm : BitVec 13) (rs2 rs1 : Reg) (f3 : BitVec 3) (op : BitVec 7) :
    fieldRs2 (wordB imm rs2 rs1 f3 op) = rs2 := by
  simp only [fieldRs2, wordB, BitVec.extractLsb'_append_eq_ite]; simp
@[simp] theorem fieldImmB_wordB (imm : BitVec 13) (rs2 rs1 : Reg) (f3 : BitVec 3) (op : BitVec 7) (h : evenB imm = true) :
    fieldImmB (wordB imm rs2 rs1 f3 op) = imm := by
  rw [evenB, Bool.not_eq_true'] at h
  simp only [fieldImmB, wordB, BitVec.extractLsb'_append_eq_ite]
  simp
  apply BitVec.eq_of_getLsbD_eq
  intro i hi
  repeat rw [BitVec.getLsbD_append]
  simp only [BitVec.getLsbD_extractLsb']
  split_ifs
  · rw [show i = 0 by omega, h]; rfl
  all_goals rw [decide_eq_true (by omega), Bool.true_and]; congr 1; omega

@[simp] theorem fieldRd_wordU (imm : BitVec 20) (rd : Reg) (op : BitVec 7) :
    fieldRd (wordU imm rd op) = rd := by
  simp only [fieldRd, wordU, BitVec.extractLsb'_append_eq_ite]; simp
@[simp] theorem fieldImmU_wordU (imm : BitVec 20) (rd : Reg) (op : BitVec 7) :
    fieldImmU (wordU imm rd op) = imm := by
  simp only [fieldImmU, wordU, BitVec.extractLsb'_append_eq_ite]; simp

@[simp] theorem fieldRd_wordJ (imm : BitVec 21) (rd : Reg) (op : BitVec 7) :
    fieldRd (wordJ imm rd op) = rd := by
  simp only [fieldRd, wordJ, BitVec.extractLsb'_append_eq_ite]; simp
@[simp] theorem fieldImmJ_wordJ (imm : BitVec 21) (rd : Reg) (op : BitVec 7) (h : evenJ imm = true) :
    fieldImmJ (wordJ imm rd op) = imm := by
  rw [evenJ, Bool.not_eq_true'] at h
  simp only [fieldImmJ, wordJ, BitVec.extractLsb'_append_eq_ite]
  simp
  apply BitVec.eq_of_getLsbD_eq
  intro i hi
  repeat rw [BitVec.getLsbD_append]
  simp only [BitVec.getLsbD_extractLsb']
  split_ifs
  · rw [show i = 0 by omega, h]; rfl
  all_goals rw [decide_eq_true (by omega), Bool.true_and]; congr 1; omega

@[simp] theorem fieldRd_wordAmo (f5 : BitVec 5) (aq rl : Bool) (rs2 rs1 : Reg) (f3 : BitVec 3) (rd : Reg) (op : BitVec 7) :
    fieldRd (wordAmo f5 aq rl rs2 rs1 f3 rd op) = rd := by
  simp only [fieldRd, wordAmo, BitVec.extractLsb'_append_eq_ite]; simp
@[simp] theorem fieldRs1_wordAmo (f5 : BitVec 5) (aq rl : Bool) (rs2 rs1 : Reg) (f3 : BitVec 3) (rd : Reg) (op : BitVec 7) :
    fieldRs1 (wordAmo f5 aq rl rs2 rs1 f3 rd op) = rs1 := by
  simp only [fieldRs1, wordAmo, BitVec.extractLsb'_append_eq_ite]; simp
@[simp] theorem fieldRs2_wordAmo (f5 : BitVec 5) (aq rl : Bool) (rs2 rs1 : Reg) (f3 : BitVec 3) (rd : Reg) (op : BitVec 7) :
    fieldRs2 (wordAmo f5 aq rl rs2 rs1 f3 rd op) = rs2 := by
  simp only [fieldRs2, wordAmo, BitVec.extractLsb'_append_eq_ite]; simp
@[simp] theorem fieldAq_wordAmo (f5 : BitVec 5) (aq rl : Bool) (rs2 rs1 : Reg) (f3 : BitVec 3) (rd : Reg) (op : BitVec 7) :
    fieldAq (wordAmo f5 aq rl rs2 rs1 f3 rd op) = aq := by
  simp only [fieldAq, wordAmo, BitVec.getLsbD_append]; simp
@[simp] theorem fieldRl_wordAmo (f5 : BitVec 5) (aq rl : Bool) (rs2 rs1 : Reg) (f3 : BitVec 3) (rd : Reg) (op : BitVec 7) :
    fieldRl (wordAmo f5 aq rl rs2 rs1 f3 rd op) = rl := by
  simp only [fieldRl, wordAmo, BitVec.getLsbD_append]; simp

@[simp] theorem fieldRd_wordFence (fm pred succ : BitVec 4) (rs1 : Reg) (f3 : BitVec 3) (rd : Reg) (op : BitVec 7) :
    fieldRd (wordFence fm pred succ rs1 f3 rd op) = rd := by
  simp only [fieldRd, wordFence, BitVec.extractLsb'_append_eq_ite]; simp
@[simp] theorem fieldRs1_wordFence (fm pred succ : BitVec 4) (rs1 : Reg) (f3 : BitVec 3) (rd : Reg) (op : BitVec 7) :
    fieldRs1 (wordFence fm pred succ rs1 f3 rd op) = rs1 := by
  simp only [fieldRs1, wordFence, BitVec.extractLsb'_append_eq_ite]; simp
@[simp] theorem fieldFm_wordFence (fm pred succ : BitVec 4) (rs1 : Reg) (f3 : BitVec 3) (rd : Reg) (op : BitVec 7) :
    fieldFm (wordFence fm pred succ rs1 f3 rd op) = fm := by
  simp only [fieldFm, wordFence, BitVec.extractLsb'_append_eq_ite]; simp
@[simp] theorem fieldPred_wordFence (fm pred succ : BitVec 4) (rs1 : Reg) (f3 : BitVec 3) (rd : Reg) (op : BitVec 7) :
    fieldPred (wordFence fm pred succ rs1 f3 rd op) = pred := by
  simp only [fieldPred, wordFence, BitVec.extractLsb'_append_eq_ite]; simp
@[simp] theorem fieldSucc_wordFence (fm pred succ : BitVec 4) (rs1 : Reg) (f3 : BitVec 3) (rd : Reg) (op : BitVec 7) :
    fieldSucc (wordFence fm pred succ rs1 f3 rd op) = succ := by
  simp only [fieldSucc, wordFence, BitVec.extractLsb'_append_eq_ite]; simp

/-! ### The fixed bits a word of each format has under the masks of R171 -/

theorem wordR_and (f7 : BitVec 7) (rs2 rs1 : Reg) (f3 : BitVec 3) (rd : Reg) (op : BitVec 7) :
    wordR f7 rs2 rs1 f3 rd op &&& 0xFE00707F#32 = f7 ++ 0#5 ++ 0#5 ++ f3 ++ 0#5 ++ op := by
  show _ &&& (allOnes 7 ++ 0#5 ++ 0#5 ++ allOnes 3 ++ 0#5 ++ allOnes 7 : BitVec 32) = _
  simp only [wordR, BitVec.and_append, BitVec.and_zero, BitVec.and_allOnes]

/-- SFENCE.VMA, whose rd field is fixed too. -/
theorem wordR_rd_and (f7 : BitVec 7) (rs2 rs1 : Reg) (f3 : BitVec 3) (rd : Reg) (op : BitVec 7) :
    wordR f7 rs2 rs1 f3 rd op &&& 0xFE007FFF#32 = f7 ++ 0#5 ++ 0#5 ++ f3 ++ rd ++ op := by
  show _ &&& (allOnes 7 ++ 0#5 ++ 0#5 ++ allOnes 3 ++ allOnes 5 ++ allOnes 7 : BitVec 32) = _
  simp only [wordR, BitVec.and_append, BitVec.and_zero, BitVec.and_allOnes]

theorem wordI_and (imm : BitVec 12) (rs1 : Reg) (f3 : BitVec 3) (rd : Reg) (op : BitVec 7) :
    wordI imm rs1 f3 rd op &&& 0x0000707F#32 = 0#12 ++ 0#5 ++ f3 ++ 0#5 ++ op := by
  show _ &&& (0#12 ++ 0#5 ++ allOnes 3 ++ 0#5 ++ allOnes 7 : BitVec 32) = _
  simp only [wordI, BitVec.and_append, BitVec.and_zero, BitVec.and_allOnes]

theorem wordShift64_and (f6 shamt : BitVec 6) (rs1 : Reg) (f3 : BitVec 3) (rd : Reg) (op : BitVec 7) :
    wordShift64 f6 shamt rs1 f3 rd op &&& 0xFC00707F#32 = f6 ++ 0#6 ++ 0#5 ++ f3 ++ 0#5 ++ op := by
  show _ &&& (allOnes 6 ++ 0#6 ++ 0#5 ++ allOnes 3 ++ 0#5 ++ allOnes 7 : BitVec 32) = _
  simp only [wordShift64, BitVec.and_append, BitVec.and_zero, BitVec.and_allOnes]

theorem wordS_and (imm : BitVec 12) (rs2 rs1 : Reg) (f3 : BitVec 3) (op : BitVec 7) :
    wordS imm rs2 rs1 f3 op &&& 0x0000707F#32 = 0#7 ++ 0#5 ++ 0#5 ++ f3 ++ 0#5 ++ op := by
  show _ &&& (0#7 ++ 0#5 ++ 0#5 ++ allOnes 3 ++ 0#5 ++ allOnes 7 : BitVec 32) = _
  simp only [wordS, BitVec.and_append, BitVec.and_zero, BitVec.and_allOnes]

theorem wordB_and (imm : BitVec 13) (rs2 rs1 : Reg) (f3 : BitVec 3) (op : BitVec 7) :
    wordB imm rs2 rs1 f3 op &&& 0x0000707F#32 = 0#1 ++ 0#6 ++ 0#5 ++ 0#5 ++ f3 ++ 0#4 ++ 0#1 ++ op := by
  show _ &&& (0#1 ++ 0#6 ++ 0#5 ++ 0#5 ++ allOnes 3 ++ 0#4 ++ 0#1 ++ allOnes 7 : BitVec 32) = _
  simp only [wordB, BitVec.and_append, BitVec.and_zero, BitVec.and_allOnes]

theorem wordU_and (imm : BitVec 20) (rd : Reg) (op : BitVec 7) :
    wordU imm rd op &&& 0x0000007F#32 = 0#20 ++ 0#5 ++ op := by
  show _ &&& (0#20 ++ 0#5 ++ allOnes 7 : BitVec 32) = _
  simp only [wordU, BitVec.and_append, BitVec.and_zero, BitVec.and_allOnes]

theorem wordJ_and (imm : BitVec 21) (rd : Reg) (op : BitVec 7) :
    wordJ imm rd op &&& 0x0000007F#32 = 0#1 ++ 0#10 ++ 0#1 ++ 0#8 ++ 0#5 ++ op := by
  show _ &&& (0#1 ++ 0#10 ++ 0#1 ++ 0#8 ++ 0#5 ++ allOnes 7 : BitVec 32) = _
  simp only [wordJ, BitVec.and_append, BitVec.and_zero, BitVec.and_allOnes]

theorem wordAmo_and (f5 : BitVec 5) (aq rl : Bool) (rs2 rs1 : Reg) (f3 : BitVec 3) (rd : Reg) (op : BitVec 7) :
    wordAmo f5 aq rl rs2 rs1 f3 rd op &&& 0xF800707F#32 = f5 ++ 0#1 ++ 0#1 ++ 0#5 ++ 0#5 ++ f3 ++ 0#5 ++ op := by
  show _ &&& (allOnes 5 ++ 0#1 ++ 0#1 ++ 0#5 ++ 0#5 ++ allOnes 3 ++ 0#5 ++ allOnes 7 : BitVec 32) = _
  simp only [wordAmo, BitVec.and_append, BitVec.and_zero, BitVec.and_allOnes]

/-- LR, whose rs2 field is fixed too. -/
theorem wordAmo_rs2_and (f5 : BitVec 5) (aq rl : Bool) (rs2 rs1 : Reg) (f3 : BitVec 3) (rd : Reg) (op : BitVec 7) :
    wordAmo f5 aq rl rs2 rs1 f3 rd op &&& 0xF9F0707F#32 = f5 ++ 0#1 ++ 0#1 ++ rs2 ++ 0#5 ++ f3 ++ 0#5 ++ op := by
  show _ &&& (allOnes 5 ++ 0#1 ++ 0#1 ++ allOnes 5 ++ 0#5 ++ allOnes 3 ++ 0#5 ++ allOnes 7 : BitVec 32) = _
  simp only [wordAmo, BitVec.and_append, BitVec.and_zero, BitVec.and_allOnes]

theorem wordFence_and (fm pred succ : BitVec 4) (rs1 : Reg) (f3 : BitVec 3) (rd : Reg) (op : BitVec 7) :
    wordFence fm pred succ rs1 f3 rd op &&& 0x0000707F#32 = 0#4 ++ 0#4 ++ 0#4 ++ 0#5 ++ f3 ++ 0#5 ++ op := by
  show _ &&& (0#4 ++ 0#4 ++ 0#4 ++ 0#5 ++ allOnes 3 ++ 0#5 ++ allOnes 7 : BitVec 32) = _
  simp only [wordFence, BitVec.and_append, BitVec.and_zero, BitVec.and_allOnes]

/-! ### The table as one decision per word (R171, R172, R176) -/

/-- Two rows that some word could both match would agree on every bit both fix; no two rows do. -/
theorem opcodeTable_pairwise :
    opcodeTable.Pairwise fun r s => r.mask &&& s.mask &&& (r.pattern ^^^ s.pattern) ≠ 0#32 := by
  decide +kernel

theorem rowMatches_iff (w : InstrWord) (r : Row) : rowMatches w r = true ↔ w &&& r.mask = r.pattern := beq_iff_eq

theorem not_both {w : InstrWord} {r s : Row} (h : r.mask &&& s.mask &&& (r.pattern ^^^ s.pattern) ≠ 0#32)
    (hr : rowMatches w r = true) (hs : rowMatches w s = true) : False := by
  rw [rowMatches_iff] at hr hs
  apply h
  rw [← hr, ← hs]
  ext i hi
  simp only [BitVec.getElem_and, BitVec.getElem_xor, BitVec.getElem_zero]
  cases w[i] <;> cases r.mask[i] <;> cases s.mask[i] <;> rfl

/-- In a list of rows no two of which share a word, the first match is the only one. -/
theorem find_row {w : InstrWord} {r : Row} {l : List Row}
    (hl : l.Pairwise fun r s => r.mask &&& s.mask &&& (r.pattern ^^^ s.pattern) ≠ 0#32)
    (hr : r ∈ l) (hm : rowMatches w r = true) : l.filter (rowMatches w) = [r] := by
  induction hl with
  | nil => cases hr
  | @cons a l hall _ ih =>
    rcases List.mem_cons.1 hr with he | hmem
    · subst he
      rw [List.filter_cons_of_pos hm, List.filter_eq_nil_iff.2 fun s hs h => not_both (hall s hs) hm h]
    · rw [List.filter_cons_of_neg fun h => not_both (hall r hmem) h hm]
      exact ih hmem

/-- A word that matches a row is that row's instruction. -/
theorem decode_of_row {w : InstrWord} {r : Row} (hr : r ∈ opcodeTable) (hm : rowMatches w r = true) : decode w = .ok (r.build w) := by
  have h : opcodeTable.find? (rowMatches w) = some r := by
    rw [← List.head?_filter, find_row opcodeTable_pairwise hr hm]; rfl
  rw [decode, h]

theorem decode_ok {w : InstrWord} {i : Instr} (h : decode w = .ok i) :
    ∃ r, r ∈ opcodeTable ∧ rowMatches w r = true ∧ r.build w = i := by
  unfold decode at h
  split at h
  · rename_i r hf
    exact ⟨r, List.mem_of_find?_eq_some hf, List.find?_some hf, Except.ok.inj h⟩
  · cases h

/-! ### A word is put together again from its fields (R162, R173) -/

/-- The fixed bits of a word that matches a row, field by field. -/
theorem fixedBits {w mask pat : InstrWord} (h : w &&& mask = pat) (start len : Nat)
    (hm : mask.extractLsb' start len = BitVec.allOnes len) :
    w.extractLsb' start len = pat.extractLsb' start len := by
  rw [← h, BitVec.extractLsb'_and, hm, BitVec.and_allOnes]

theorem wordI_eq {w : InstrWord} {f3 : BitVec 3} {op : BitVec 7} (h3 : w.extractLsb' 12 3 = f3) (h0 : w.extractLsb' 0 7 = op) :
    wordI (fieldImmI w) (fieldRs1 w) f3 (fieldRd w) op = w := by
  subst h3 h0
  apply BitVec.eq_of_getLsbD_eq
  intro i hi
  simp only [wordI, fieldImmI, fieldRs1, fieldRd]
  repeat rw [BitVec.getLsbD_append]
  simp only [BitVec.getLsbD_extractLsb']
  split_ifs <;> (rw [decide_eq_true (by omega), Bool.true_and]; congr 1; omega)

theorem wordS_eq {w : InstrWord} {f3 : BitVec 3} {op : BitVec 7} (h3 : w.extractLsb' 12 3 = f3) (h0 : w.extractLsb' 0 7 = op) :
    wordS (fieldImmS w) (fieldRs2 w) (fieldRs1 w) f3 op = w := by
  subst h3 h0
  apply BitVec.eq_of_getLsbD_eq
  intro i hi
  simp only [wordS, fieldImmS, fieldRs1, fieldRs2, BitVec.extractLsb'_append_eq_ite]
  simp only [Nat.reduceLT, Nat.reduceAdd, Nat.reduceSub, Nat.reduceLeDiff, dite_true, dite_false, BitVec.extractLsb'_eq_self]
  repeat rw [BitVec.getLsbD_append]
  simp only [BitVec.getLsbD_extractLsb']
  split_ifs <;>
    (first
      | rw [decide_eq_true (by omega), decide_eq_true (by omega), Bool.true_and, Bool.true_and]
      | rw [decide_eq_true (by omega), Bool.true_and]) <;> congr 1 <;> omega

theorem wordB_eq {w : InstrWord} {f3 : BitVec 3} {op : BitVec 7} (h3 : w.extractLsb' 12 3 = f3) (h0 : w.extractLsb' 0 7 = op) :
    wordB (fieldImmB w) (fieldRs2 w) (fieldRs1 w) f3 op = w := by
  subst h3 h0
  apply BitVec.eq_of_getLsbD_eq
  intro i hi
  simp only [wordB, fieldImmB, fieldRs1, fieldRs2, BitVec.extractLsb'_append_eq_ite]
  simp
  repeat rw [BitVec.getLsbD_append]
  simp only [BitVec.getLsbD_extractLsb']
  split_ifs <;> (rw [decide_eq_true (by omega), Bool.true_and]; congr 1; omega)

theorem wordR_eq {w : InstrWord} {f7 : BitVec 7} {f3 : BitVec 3} {op : BitVec 7} (h0 : w.extractLsb' 25 7 = f7)
    (h1 : w.extractLsb' 12 3 = f3) (h2 : w.extractLsb' 0 7 = op) :
    wordR f7 (fieldRs2 w) (fieldRs1 w) f3 (fieldRd w) op = w := by
  subst h0 h1 h2
  apply BitVec.eq_of_getLsbD_eq
  intro i hi
  simp only [wordR, fieldRs2, fieldRs1, fieldRd, BitVec.extractLsb'_append_eq_ite]
  repeat rw [BitVec.getLsbD_append]
  simp only [BitVec.getLsbD_extractLsb', BitVec.getLsbD_ofBool]
  split_ifs <;> (rw [decide_eq_true (by omega), Bool.true_and]; congr 1; omega)

theorem wordShift64_eq {w : InstrWord} {f6 : BitVec 6} {f3 : BitVec 3} {op : BitVec 7} (h0 : w.extractLsb' 26 6 = f6)
    (h1 : w.extractLsb' 12 3 = f3) (h2 : w.extractLsb' 0 7 = op) :
    wordShift64 f6 (fieldShamt64 w) (fieldRs1 w) f3 (fieldRd w) op = w := by
  subst h0 h1 h2
  apply BitVec.eq_of_getLsbD_eq
  intro i hi
  simp only [wordShift64, fieldShamt64, fieldRs1, fieldRd, BitVec.extractLsb'_append_eq_ite]
  repeat rw [BitVec.getLsbD_append]
  simp only [BitVec.getLsbD_extractLsb', BitVec.getLsbD_ofBool]
  split_ifs <;> (rw [decide_eq_true (by omega), Bool.true_and]; congr 1; omega)

theorem wordU_eq {w : InstrWord} {op : BitVec 7} (h0 : w.extractLsb' 0 7 = op) :
    wordU (fieldImmU w) (fieldRd w) op = w := by
  subst h0
  apply BitVec.eq_of_getLsbD_eq
  intro i hi
  simp only [wordU, fieldImmU, fieldRd, BitVec.extractLsb'_append_eq_ite]
  repeat rw [BitVec.getLsbD_append]
  simp only [BitVec.getLsbD_extractLsb', BitVec.getLsbD_ofBool]
  split_ifs <;> (rw [decide_eq_true (by omega), Bool.true_and]; congr 1; omega)

theorem wordJ_eq {w : InstrWord} {op : BitVec 7} (h0 : w.extractLsb' 0 7 = op) :
    wordJ (fieldImmJ w) (fieldRd w) op = w := by
  subst h0
  apply BitVec.eq_of_getLsbD_eq
  intro i hi
  simp only [wordJ, fieldImmJ, fieldRd, BitVec.extractLsb'_append_eq_ite]
  simp
  repeat rw [BitVec.getLsbD_append]
  simp only [BitVec.getLsbD_extractLsb', BitVec.getLsbD_ofBool]
  split_ifs <;> (rw [decide_eq_true (by omega), Bool.true_and]; congr 1; omega)

theorem wordAmo_eq {w : InstrWord} {f5 : BitVec 5} {f3 : BitVec 3} {op : BitVec 7} (h0 : w.extractLsb' 27 5 = f5)
    (h1 : w.extractLsb' 12 3 = f3) (h2 : w.extractLsb' 0 7 = op) :
    wordAmo f5 (fieldAq w) (fieldRl w) (fieldRs2 w) (fieldRs1 w) f3 (fieldRd w) op = w := by
  subst h0 h1 h2
  apply BitVec.eq_of_getLsbD_eq
  intro i hi
  simp only [wordAmo, fieldAq, fieldRl, fieldRs2, fieldRs1, fieldRd, BitVec.extractLsb'_append_eq_ite]
  repeat rw [BitVec.getLsbD_append]
  simp only [BitVec.getLsbD_extractLsb', BitVec.getLsbD_ofBool]
  split_ifs <;> (rw [decide_eq_true (by omega), Bool.true_and]; congr 1; omega)

theorem wordAmo_rs2_eq {w : InstrWord} {f5 : BitVec 5} {r : BitVec 5} {f3 : BitVec 3} {op : BitVec 7}
    (h0 : w.extractLsb' 27 5 = f5) (h1 : w.extractLsb' 20 5 = r) (h2 : w.extractLsb' 12 3 = f3) (h3 : w.extractLsb' 0 7 = op) :
    wordAmo f5 (fieldAq w) (fieldRl w) r (fieldRs1 w) f3 (fieldRd w) op = w := by
  subst h0 h1 h2 h3
  apply BitVec.eq_of_getLsbD_eq
  intro i hi
  simp only [wordAmo, fieldAq, fieldRl, fieldRs1, fieldRd, BitVec.extractLsb'_append_eq_ite]
  repeat rw [BitVec.getLsbD_append]
  simp only [BitVec.getLsbD_extractLsb', BitVec.getLsbD_ofBool]
  split_ifs <;> (rw [decide_eq_true (by omega), Bool.true_and]; congr 1; omega)

theorem wordR_rd_eq {w : InstrWord} {f7 : BitVec 7} {f3 : BitVec 3} {rd : BitVec 5} {op : BitVec 7}
    (h0 : w.extractLsb' 25 7 = f7) (h1 : w.extractLsb' 12 3 = f3) (h2 : w.extractLsb' 7 5 = rd) (h3 : w.extractLsb' 0 7 = op) :
    wordR f7 (fieldRs2 w) (fieldRs1 w) f3 rd op = w := by
  subst h0 h1 h2 h3
  apply BitVec.eq_of_getLsbD_eq
  intro i hi
  simp only [wordR, fieldRs2, fieldRs1, BitVec.extractLsb'_append_eq_ite]
  repeat rw [BitVec.getLsbD_append]
  simp only [BitVec.getLsbD_extractLsb', BitVec.getLsbD_ofBool]
  split_ifs <;> (rw [decide_eq_true (by omega), Bool.true_and]; congr 1; omega)

theorem wordFence_eq {w : InstrWord} {f3 : BitVec 3} {op : BitVec 7} (h0 : w.extractLsb' 12 3 = f3) (h1 : w.extractLsb' 0 7 = op) :
    wordFence (fieldFm w) (fieldPred w) (fieldSucc w) (fieldRs1 w) f3 (fieldRd w) op = w := by
  subst h0 h1
  apply BitVec.eq_of_getLsbD_eq
  intro i hi
  simp only [wordFence, fieldFm, fieldPred, fieldSucc, fieldRs1, fieldRd, BitVec.extractLsb'_append_eq_ite]
  repeat rw [BitVec.getLsbD_append]
  simp only [BitVec.getLsbD_extractLsb', BitVec.getLsbD_ofBool]
  split_ifs <;> (rw [decide_eq_true (by omega), Bool.true_and]; congr 1; omega)

theorem evenB_fieldImmB (w : InstrWord) : evenB (fieldImmB w) = true := by rw [evenB, fieldImmB, BitVec.getLsbD_append]; rfl

theorem evenJ_fieldImmJ (w : InstrWord) : evenJ (fieldImmJ w) = true := by rw [evenJ, fieldImmJ, BitVec.getLsbD_append]; rfl

end Sys2Proof
end

