-- ==== Sys2Proof/Laws/LoadStore.lean ====
section
/-! SUPPORT. What MemRead and MemWrite do in each region (20_memory.md R107, R110, R111), what a load and a store do with them, and
the address of an atomic (45_atomics.md R360). -/

namespace Sys2Proof.Machine

/-! ### The checks, in each region -/

theorem checkAccess_ram {s : State} {K : Access} {va : Word} {n : Nat} {pa : Nat → Word} (hn : 0 < n) (h : BytesAt s K va n pa)
    (hr : AllInRam s n pa) : checkAccess s K va n = .ok (.ram, (List.range n).map pa) := by
  have hin : ∀ k, k < n → inRam s.platform (pa k).toNat 1 = true := fun k hk =>
    (inRam_iff ..).2 ⟨(hr k hk).1, (hr k hk).2⟩
  exact checkAccess_ok hn h (regionOf_ram (hin 0 hn)) hin

theorem checkAccess_window {s : State} {K : Access} {va : Word} {n : Nat} {pa : Nat → Word} {w : Window} (hn : 0 < n)
    (h : BytesAt s K va n pa) (hw : AllInWindow s w n pa) : checkAccess s K va n = .ok (.window w, (List.range n).map pa) := by
  obtain ⟨hp, hmem, hin⟩ := hw
  exact checkAccess_ok hn h (regionOf_window hp hmem (hin 0 hn).1 (hin 0 hn).2) fun k hk => (inWindow_iff ..).2 (hin k hk)

/-! ### Device accesses one byte at a time -/

/-- R107: the `k`-th byte is the `k`-th draw, and each read is one event. -/
theorem devReadBytes_spec (s : State) (n : Nat) (pa : Nat → Word) :
    (∀ j, j < 64 → (devReadBytes s ((List.range n).map pa)).1.getLsbD j =
      if j < 8 * n then (Config.devRead (s.draws + j / 8) (pa (j / 8)) 1).getLsbD (j % 8) else false) ∧
    (devReadBytes s ((List.range n).map pa)).2 =
      { s with draws := s.draws + n, events := s.events ++ (List.range n).map fun k => .read (pa k) 1 } := by
  induction n generalizing s pa with
  | zero => simp [devReadBytes]
  | succ n ih =>
    obtain ⟨h1, h2⟩ := ih (devReadOne s (pa 0) 1).2 (fun k => pa (k + 1))
    rw [map_range_succ, devReadBytes]
    constructor
    · intro j hj
      simp only [BitVec.getLsbD_or, BitVec.getLsbD_shiftLeft]
      by_cases h8 : j < 8
      · rw [if_pos (by omega), show j / 8 = 0 by omega, Nat.mod_eq_of_lt h8]
        simp [devReadOne, h8, hj]
      · rw [h1 (j - 8) (by omega)]
        have e : (Config.devRead s.draws (pa 0) 1).getLsbD j = false := BitVec.getLsbD_of_ge _ _ (by omega)
        have e1 : (j - 8) / 8 + 1 = j / 8 := by omega
        have e2 : (j - 8) % 8 = j % 8 := by omega
        have e3 : s.draws + 1 + (j - 8) / 8 = s.draws + j / 8 := by omega
        by_cases hn : j < 8 * (n + 1)
        · rw [if_pos hn, if_pos (by omega)]
          simp [devReadOne, hj, h8, e1, e2, e3, e]
        · rw [if_neg hn, if_neg (by omega)]
          simp [devReadOne, hj, h8, e]
    · simp only [h2]
      simp [devReadOne, map_range_succ (fun k => DevEvent.read (pa k) 1) n, Nat.add_assoc, Nat.add_comm 1 n]

/-- R107: each byte written is one event. -/
theorem devWriteBytes_spec (s : State) (n : Nat) (pa : Nat → Word) (f : Nat → Byte) :
    devWriteBytes s ((List.range n).map pa) ((List.range n).map f) =
      { s with events := s.events ++ (List.range n).map fun k => .write (pa k) 1 ((f k).setWidth 64) } := by
  induction n generalizing s pa f with
  | zero => simp [devWriteBytes]
  | succ n ih =>
    rw [map_range_succ, map_range_succ, devWriteBytes, ih]
    simp [devWriteOne, map_range_succ (fun k => DevEvent.write (pa k) 1 ((f k).setWidth 64)) n]

/-! ### MemRead and MemWrite -/

theorem memRead_error {s : State} {va : Word} {n : Nat} {e : Exc} (h : checkAccess s .load va n = .error e) :
    memRead s va n = .error e := by
  rw [memRead, h]

theorem memWrite_error {s : State} {va : Word} {n : Nat} {e : Exc} (h : checkAccess s .store va n = .error e) (v : Word) :
    memWrite s va n v = .error e := by
  rw [memWrite, h]

theorem memRead_ram {s : State} {va : Word} {n : Nat} {pa : Nat → Word} (hn : 0 < n) (h : BytesAt s .load va n pa)
    (hr : AllInRam s n pa) :
    memRead s va n = .ok (leWord (((List.range n).map pa).map fun p => Memory.read s.mem p.toNat), s) := by
  rw [memRead, checkAccess_ram hn h hr]

theorem memRead_window {s : State} {va : Word} {n : Nat} {pa : Nat → Word} {w : Window} (hn : n = 1 ∨ n = 2 ∨ n = 4 ∨ n = 8)
    (h : BytesAt s .load va n pa) (hw : AllInWindow s w n pa) :
    memRead s va n = .ok (if va.toNat % n = 0 then devReadOne s (pa 0) n else devReadBytes s ((List.range n).map pa)) := by
  have hp : 0 < n := by omega
  rw [memRead, checkAccess_window hp h hw]
  obtain ⟨m, rfl⟩ : ∃ m, n = m + 1 := ⟨n - 1, by omega⟩
  simp only [oneDeviceAccess_eq hn h, decide_eq_true_eq]
  by_cases ha : va.toNat % (m + 1) = 0
  · rw [if_pos ha, if_pos ha, map_range_succ]; rfl
  · rw [if_neg ha, if_neg ha]

theorem memWrite_ram {s : State} {va : Word} {n : Nat} {pa : Nat → Word} (hn : 0 < n) (h : BytesAt s .store va n pa)
    (hr : AllInRam s n pa) (v : Word) :
    memWrite s va n v = .ok { s with
      mem := Memory.writeAll s.mem ((List.range n).map pa) ((List.range n).map fun k => v.extractLsb' (8 * k) 8)
      resv := resvAfterWrite s.resv ((List.range n).map pa) } := by
  rw [memWrite, checkAccess_ram hn h hr, leBytes_eq_map]

theorem memWrite_window {s : State} {va : Word} {n : Nat} {pa : Nat → Word} {w : Window} (hn : n = 1 ∨ n = 2 ∨ n = 4 ∨ n = 8)
    (h : BytesAt s .store va n pa) (hw : AllInWindow s w n pa) (v : Word) :
    memWrite s va n v = .ok { s with
      resv := resvAfterWrite s.resv ((List.range n).map pa)
      events := s.events ++ (if va.toNat % n = 0 then [.write (pa 0) n (leWord (leBytes n v))]
        else (List.range n).map fun k => .write (pa k) 1 ((v.extractLsb' (8 * k) 8).setWidth 64)) } := by
  have hp : 0 < n := by omega
  rw [memWrite, checkAccess_window hp h hw]
  simp only [oneDeviceAccess_eq hn h, decide_eq_true_eq]
  split
  · obtain ⟨m, rfl⟩ : ∃ m, n = m + 1 := ⟨n - 1, by omega⟩
    simp [devWriteOne, map_range_succ]
  · rw [leBytes_eq_map, devWriteBytes_spec]

theorem leWord_leBytes (n : Nat) (v : Word) : leWord (leBytes n v) = BitVec.ofNat 64 (v.toNat % 2 ^ (8 * n)) := by
  ext j hj
  rw [← BitVec.getLsbD_eq_getElem hj, ← BitVec.getLsbD_eq_getElem hj, leWord_getLsbD, BitVec.getLsbD_ofNat, Nat.testBit_mod_two_pow]
  by_cases h : j / 8 < n
  · rw [leBytes_getD n v _ h, BitVec.getLsbD_extractLsb', show 8 * (j / 8) + j % 8 = j by omega]
    simp [hj, BitVec.getLsbD, show j < 8 * n by omega, show j % 8 < 8 by omega]
  · rw [List.getD_eq_default _ _ (by simp; omega)]
    simp [show ¬ j < 8 * n by omega]

/-! ### Instructions over them -/

theorem loadInto_traps {s : State} {va : Word} {n k : Nat} {e : Exc} (hk : k < n) (h : FailsAtByte s .load va k e) (rd : Reg)
    (ext : Word → Word) : Traps (loadInto rd va n ext s) s e.cause e.tval := by
  rw [loadInto, memRead_error (checkAccess_error hk h)]; rfl

theorem storeAt_traps {s : State} {va : Word} {n k : Nat} {e : Exc} (hk : k < n) (h : FailsAtByte s .store va k e) (v : Word) :
    Traps (storeAt va n v s) s e.cause e.tval := by
  rw [storeAt, memWrite_error (checkAccess_error hk h)]; rfl

/-! ### Atomic addresses (45_atomics.md R360) -/

theorem atomicAddr_ok {s : State} {K : Access} {va pa old : Word} {n : Nat} (h : AtomicAt s K va n pa old) :
    atomicAddr s K va n = .ok pa := by
  obtain ⟨h1, h2, h3, h4, -⟩ := h
  rw [atomicAddr, if_pos h1, h2]
  simp only [(inRam_iff s.platform pa.toNat n).2 ⟨h3, h4⟩, if_true]

theorem atomicAddr_misaligned {s : State} {K : Access} {va : Word} {n : Nat} (h : va.toNat % n ≠ 0) :
    atomicAddr s K va n = .error (accessFault K va) := by
  rw [atomicAddr, if_neg h]

theorem atomicAddr_untranslated {s : State} {K : Access} {va : Word} {n : Nat} {e : Exc} (h : va.toNat % n = 0)
    (he : translate s K va = .error e) : atomicAddr s K va n = .error e := by
  rw [atomicAddr, if_pos h, he]

theorem atomicAddr_outside {s : State} {K : Access} {va pa : Word} {n : Nat} (h : va.toNat % n = 0) (ht : translate s K va = .ok pa)
    (hr : ¬ (s.platform.ramBase ≤ pa.toNat ∧ pa.toNat + n ≤ s.platform.ramBase + s.platform.ramSize)) :
    atomicAddr s K va n = .error (accessFault K va) := by
  have : inRam s.platform pa.toNat n = false := by rw [← Bool.not_eq_true, inRam_iff]; exact hr
  rw [atomicAddr, if_pos h, ht]
  simp [this]

/-- R103: the value at the physical address of an atomic access. -/
theorem AtomicAt.physRead {s : State} {K : Access} {va pa old : Word} {n : Nat} (h : AtomicAt s K va n pa old) :
    physRead s.mem pa.toNat n = BitVec.ofNat 64 (old.toNat % 2 ^ (8 * n)) := physRead_eq h.2.2.2.2

end Sys2Proof.Machine
end

