-- ==== Sys2Proof/Laws/Exec.lean ====
section
/-! SUPPORT. Said once: everything an instruction can do (10_state.md R90 step 4 and 5), and everything a step can do. An instruction
raises an exception, or commits in one of six ways, or is the MRET of log 10. -/

namespace Sys2Proof.Machine

/-- What every byte a store, an SC or an AMO writes keeps: the canonical form of memory, and that every listed byte is in RAM. -/
def MemGrows (s s1 : State) : Prop :=
  (Memory.wf s.mem = true → Memory.wf s1.mem = true) ∧ (memoryInRam s = true → ∀ c ∈ s1.mem, inRam s.platform c.1 1 = true)

/-- The ways an instruction commits: `Commit i s npc s1` says that `i` at `s` makes the changes of `s1` and goes on at `npc`. -/
inductive Commit : Instr → State → Word → State → Prop where
  /-- Registers, draws and events only: integer instructions, loads, branches, jumps, fences, CSR reads, WFI, SFENCE.VMA. -/
  | plain (i : Instr) (s : State) (npc : Word) (s1 : State) : s1.priv = s.priv → s1.csr = s.csr → s1.mem = s.mem →
      s1.resv = s.resv → s1.platform = s.platform → (npc = s.pc + 4 ∨ npc.toNat % 4 = 0) → Commit i s npc s1
  /-- A store, a store-conditional, an AMO: memory, and a reservation that stays or goes. -/
  | memory (i : Instr) (s s1 : State) : s1.priv = s.priv → s1.csr = s.csr → s1.platform = s.platform → MemGrows s s1 →
      (s1.resv = s.resv ∨ s1.resv = none) →
      ((encode i).extractLsb' 0 7 = 0b0100011#7 ∨ (encode i).extractLsb' 0 7 = 0b0101111#7) →
      ((∃ rd rs1 rs2 aq rl, i = .scW rd rs1 rs2 aq rl ∨ i = .scD rd rs1 rs2 aq rl) → s1.resv = none) → Commit i s (s.pc + 4) s1
  /-- A load-reserved: the reservation, on an aligned address whose 4 bytes are in RAM. -/
  | reserve (i : Instr) (s s1 : State) (pa : Word) : s1.priv = s.priv → s1.csr = s.csr → s1.platform = s.platform → s1.mem = s.mem →
      s1.resv = some (pa.setWidth 56) → pa.toNat % 4 = 0 → inRam s.platform pa.toNat 4 = true →
      (∃ rd rs1 aq rl, i = .lrW rd rs1 aq rl ∨ i = .lrD rd rs1 aq rl) → Commit i s (s.pc + 4) s1
  /-- A write of a listed CSR that the mode may make. -/
  | csrWrite (i : Instr) (s s1 : State) (a : CsrAddr) (c : Csr) (v : Word) : csrAt a = some c → csrWriteLegal s a = true →
      s1.priv = s.priv → s1.csr = csrStore s.csr c v → s1.platform = s.platform → s1.mem = s.mem → s1.resv = s.resv →
      Commit i s (s.pc + 4) s1
  /-- MRET. -/
  | mret (s : State) (p : Priv) : s.priv = .machine → privOfMpp (getMpp s.csr.mstatus) = some p →
      Commit .mret s s.csr.mepc { s with priv := p, csr := { s.csr with mstatus := mstatusMret s.csr.mstatus } }
  /-- SRET. -/
  | sret (s : State) : s.priv ≠ .user →
      Commit .sret s s.csr.sepc
        { s with
          priv := if getBit s.csr.mstatus bitSPP then .supervisor else .user
          csr := { s.csr with mstatus := mstatusSret s.csr.mstatus } }

/-- What an instruction answers: an exception, a commit, or the stop of an MRET that has no mode to return to. -/
def Answers (i : Instr) (s : State) (o : Result) : Prop :=
  (∃ e : Exc, o = raise e s) ∨ (∃ npc s1, o = .next (retire npc s1) ∧ Commit i s npc s1) ∨
    (i = .mret ∧ s.priv = .machine ∧ privOfMpp (getMpp s.csr.mstatus) = none ∧ o = .fault .reservedPrivilege)

theorem Answers.raise {i : Instr} {s : State} (e : Exc) : Answers i s (Machine.raise e s) := .inl ⟨e, rfl⟩

theorem Answers.commit {i : Instr} {s s1 : State} {npc : Word} (h : Commit i s npc s1) : Answers i s (.next (retire npc s1)) :=
  .inr (.inl ⟨npc, s1, rfl, h⟩)

/-! ### The shared operations -/

theorem answers_writeBack (i : Instr) (s : State) (rd : Reg) (v : Word) : Answers i s (writeBack rd v s) :=
  .commit (.plain _ _ _ _ (by simp) (by simp) (by simp) (by simp) (by simp) (.inl rfl))

theorem answers_advance (i : Instr) (s : State) : Answers i s (.next (retire (s.pc + 4) s)) :=
  .commit (.plain _ _ _ _ rfl rfl rfl rfl rfl (.inl rfl))

theorem answers_transferTo (i : Instr) {s s1 : State} (h1 : s1.priv = s.priv) (h2 : s1.csr = s.csr) (h3 : s1.mem = s.mem)
    (h4 : s1.resv = s.resv) (h5 : s1.platform = s.platform) (t : Word) : Answers i s (transferTo t s1 s) := by
  rw [transferTo]
  split
  · rename_i h
    exact .commit (.plain _ _ _ _ h1 h2 h3 h4 h5 (.inr ((low2_eq_zero t).1 h)))
  · exact .raise _

theorem answers_branch (i : Instr) (s : State) (c : Bool) (imm : BitVec 13) : Answers i s (branch c imm s) := by
  rw [branch]
  split
  · exact answers_transferTo i rfl rfl rfl rfl rfl _
  · exact answers_advance i s

theorem answers_loadInto (i : Instr) (s : State) (rd : Reg) (va : Word) (n : Nat) (ext : Word → Word) :
    Answers i s (loadInto rd va n ext s) := by
  have hframe : ∀ v s1, memRead s va n = .ok (v, s1) →
      s1.priv = s.priv ∧ s1.csr = s.csr ∧ s1.mem = s.mem ∧ s1.resv = s.resv ∧ s1.platform = s.platform := by
    intro v s1 h
    unfold memRead at h
    split at h
    · cases h
    · cases h; exact ⟨rfl, rfl, rfl, rfl, rfl⟩
    · split at h
      · cases h; exact ⟨rfl, rfl, rfl, rfl, rfl⟩
      · injection h with h
        rw [show s1 = (devReadBytes s _).2 from (congrArg Prod.snd h).symm]
        simp
  rw [loadInto]
  split
  · exact .raise _
  · rename_i v s1 h
    obtain ⟨h1, h2, h3, h4, h5⟩ := hframe v s1 h
    exact .commit (.plain _ _ _ _ (by simp [h1]) (by simp [h2]) (by simp [h3]) (by simp [h4]) (by simp [h5]) (.inl rfl))

theorem checkBytes_ram {s : State} {K : Access} {va : Word} {n : Nat} {ps : List Word} (h : checkBytes s K .ram va n = .ok ps) :
    ∀ p ∈ ps, inRam s.platform p.toNat 1 = true := by
  induction n generalizing va ps with
  | zero => cases h; simp
  | succ n ih =>
    unfold checkBytes at h
    split at h
    · cases h
    · split at h
      · rename_i hin
        split at h
        · cases h
        · rename_i h'
          cases h
          intro p hp
          rcases List.mem_cons.1 hp with rfl | hp
          · exact hin
          · exact ih h' p hp
      · cases h

theorem checkAccess_ram_all {s : State} {K : Access} {va : Word} {n : Nat} {ps : List Word} (h : checkAccess s K va n = .ok (.ram, ps)) :
    ∀ p ∈ ps, inRam s.platform p.toNat 1 = true := by
  unfold checkAccess at h
  split at h
  · cases h
  · split at h
    · cases h
    · split at h
      · cases h
      · rename_i h'
        cases h
        exact checkBytes_ram h'

theorem mem_write {m : Memory} {k : Nat} {v : Byte} {c : Host.Cell} (h : c ∈ Memory.write m k v) : c ∈ m ∨ c.1 = k := by
  have hcons : ∀ m : Memory, c ∈ consCell k v m → c ∈ m ∨ c.1 = k := by
    intro m h
    unfold consCell at h
    split at h
    · exact .inl h
    · rcases List.mem_cons.1 h with rfl | h
      · exact .inr rfl
      · exact .inl h
  induction m with
  | nil => exact hcons [] h
  | cons d m ih =>
    unfold Memory.write at h
    split at h
    · exact hcons _ h
    · split at h
      · rcases hcons _ h with h | h
        · exact .inl (List.mem_cons_of_mem _ h)
        · exact .inr h
      · rcases List.mem_cons.1 h with rfl | h
        · exact .inl List.mem_cons_self
        · rcases ih h with h | h
          · exact .inl (List.mem_cons_of_mem _ h)
          · exact .inr h

theorem mem_writeAll {m : Memory} {ps : List Word} {bs : List Byte} {c : Host.Cell} (h : c ∈ Memory.writeAll m ps bs) :
    c ∈ m ∨ ∃ p ∈ ps, c.1 = p.toNat := by
  induction ps generalizing m bs with
  | nil => exact .inl h
  | cons p ps ih =>
    cases bs with
    | nil => exact .inl h
    | cons b bs =>
      rcases ih h with h | ⟨q, hq, he⟩
      · rcases mem_write h with h | h
        · exact .inl h
        · exact .inr ⟨p, List.mem_cons_self, h⟩
      · exact .inr ⟨q, List.mem_cons_of_mem _ hq, he⟩

theorem mem_writeBytes {m : Memory} {p : Nat} {bs : List Byte} {c : Host.Cell} (h : c ∈ Memory.writeBytes m p bs) :
    c ∈ m ∨ (p ≤ c.1 ∧ c.1 < p + bs.length) := by
  induction bs generalizing m p with
  | nil => exact .inl h
  | cons b bs ih =>
    rcases ih h with h | h
    · rcases mem_write h with h | h
      · exact .inl h
      · exact .inr (by simp; omega)
    · exact .inr (by simp; omega)

theorem memGrows_writeAll {s s1 : State} {ps : List Word} {bs : List Byte} (h : s1.mem = Memory.writeAll s.mem ps bs)
    (hp : ∀ p ∈ ps, inRam s.platform p.toNat 1 = true) : MemGrows s s1 := by
  rw [MemGrows, h]
  refine ⟨fun hm => Memory.writeAll_wf hm _ _, fun hm c hc => ?_⟩
  rcases mem_writeAll hc with hc | ⟨p, hpm, he⟩
  · exact List.all_eq_true.1 hm c hc
  · rw [he]; exact hp p hpm

theorem memGrows_physWrite {s s1 : State} {p n : Nat} {v : Word} (h : s1.mem = physWrite s.mem p n v)
    (hp : inRam s.platform p n = true) : MemGrows s s1 := by
  rw [MemGrows, h]
  refine ⟨fun hm => physWrite_wf hm _ _ _, fun hm c hc => ?_⟩
  rw [inRam_iff] at hp
  rcases mem_writeBytes hc with hc | hc
  · exact List.all_eq_true.1 hm c hc
  · rw [leBytes_length] at hc
    rw [inRam_iff]; omega

theorem memGrows_of_eq {s s1 : State} (h : s1.mem = s.mem) : MemGrows s s1 := by
  rw [MemGrows, h]
  exact ⟨id, fun hm c hc => List.all_eq_true.1 hm c hc⟩

theorem answers_storeAt {i : Instr} (s : State) (va : Word) (n : Nat) (v : Word) (hi : (encode i).extractLsb' 0 7 = 0b0100011#7)
    (hsc : ¬ ∃ rd rs1 rs2 aq rl, i = .scW rd rs1 rs2 aq rl ∨ i = .scD rd rs1 rs2 aq rl) : Answers i s (storeAt va n v s) := by
  rw [storeAt]
  split
  · exact .raise _
  · rename_i s1 h
    unfold memWrite at h
    split at h
    · cases h
    · rename_i hc
      cases h
      exact .commit (.memory _ _ _ rfl rfl rfl (memGrows_writeAll rfl (checkAccess_ram_all hc)) (resvAfterWrite_or _ _) (.inl hi)
        fun h => absurd h hsc)
    · injection h with h
      subst h
      refine .commit (.memory _ _ _ ?_ ?_ ?_ (memGrows_of_eq ?_) ?_ (.inl hi) fun h => absurd h hsc)
      · split <;> simp [devWriteOne]
      · split <;> simp [devWriteOne]
      · split <;> simp [devWriteOne]
      · split <;> simp [devWriteOne]
      · split <;> simpa [devWriteOne] using resvAfterWrite_or _ _

theorem atomicAddr_inv {s : State} {K : Access} {va pa : Word} {n : Nat} (h : atomicAddr s K va n = .ok pa) :
    va.toNat % n = 0 ∧ translate s K va = .ok pa ∧ inRam s.platform pa.toNat n = true := by
  unfold atomicAddr at h
  split at h
  · rename_i ha
    split at h
    · cases h
    · rename_i ht
      split at h
      · rename_i hr
        cases h
        exact ⟨ha, ht, hr⟩
      · cases h
  · cases h

theorem answers_loadReserved {i : Instr} (s : State) (rd rs1 : Reg) (n : Nat) (ext : Word → Word) (hn : n = 4 ∨ n = 8)
    (hi : ∃ rd rs1 aq rl, i = .lrW rd rs1 aq rl ∨ i = .lrD rd rs1 aq rl) : Answers i s (loadReserved rd rs1 n ext s) := by
  rw [loadReserved]
  split
  · exact .raise _
  · rename_i pa h
    obtain ⟨ha, ht, hr⟩ := atomicAddr_inv h
    have hlow := (translate_ok ht).1
    refine .commit (.reserve _ _ _ pa (by simp) (by simp) (by simp) (by simp) (by simp) ?_ ?_ hi)
    · rcases hn with rfl | rfl <;> omega
    · rw [inRam_iff] at hr ⊢; omega

theorem answers_storeConditional {i : Instr} (s : State) (rd rs1 rs2 : Reg) (n : Nat)
    (hi : (encode i).extractLsb' 0 7 = 0b0101111#7) : Answers i s (storeConditional rd rs1 rs2 n s) := by
  rw [storeConditional]
  split
  · exact .raise _
  · rename_i pa h
    obtain ⟨ha, ht, hr⟩ := atomicAddr_inv h
    split
    · exact .commit (.memory _ _ _ (by simp) (by simp) (by simp) (memGrows_physWrite (by simp; rfl) hr) (.inr (by simp)) (.inr hi)
        fun _ => by simp)
    · exact .commit (.memory _ _ _ (by simp) (by simp) (by simp) (memGrows_of_eq (by simp)) (.inr (by simp)) (.inr hi)
        fun _ => by simp)

theorem answers_amo {i : Instr} (s : State) (rd rs1 rs2 : Reg) (n : Nat) (op : Word → Word → Word) (ext : Word → Word)
    (hi : (encode i).extractLsb' 0 7 = 0b0101111#7)
    (hsc : ¬ ∃ rd rs1 rs2 aq rl, i = .scW rd rs1 rs2 aq rl ∨ i = .scD rd rs1 rs2 aq rl) : Answers i s (amo rd rs1 rs2 n op ext s) := by
  rw [amo]
  split
  · exact .raise _
  · rename_i pa h
    obtain ⟨ha, ht, hr⟩ := atomicAddr_inv h
    exact .commit (.memory _ _ _ (by simp) (by simp) (by simp) (memGrows_physWrite (by simp; rfl) hr)
      (by simpa using resvAfterWrite_or _ _) (.inr hi) fun h => absurd h hsc)

theorem answers_amoWord {i : Instr} (s : State) (rd rs1 rs2 : Reg) (op : BitVec 32 → BitVec 32 → BitVec 32)
    (hi : (encode i).extractLsb' 0 7 = 0b0101111#7)
    (hsc : ¬ ∃ rd rs1 rs2 aq rl, i = .scW rd rs1 rs2 aq rl ∨ i = .scD rd rs1 rs2 aq rl) : Answers i s (amoWord rd rs1 rs2 op s) :=
  answers_amo s rd rs1 rs2 4 _ _ hi hsc

theorem answers_amoDouble {i : Instr} (s : State) (rd rs1 rs2 : Reg) (op : Word → Word → Word)
    (hi : (encode i).extractLsb' 0 7 = 0b0101111#7)
    (hsc : ¬ ∃ rd rs1 rs2 aq rl, i = .scW rd rs1 rs2 aq rl ∨ i = .scD rd rs1 rs2 aq rl) : Answers i s (amoDouble rd rs1 rs2 op s) :=
  answers_amo s rd rs1 rs2 8 _ _ hi hsc

/-- A legal csrOp reads, or writes a listed CSR; at an address with no storage behind it, it changes no CSR. -/
theorem answers_csrOp (i : Instr) (s : State) (k : CsrKind) (rd : Reg) (a : CsrAddr) (f : BitVec 5) (src : Word) (w : InstrWord) :
    Answers i s (csrOp k rd a f src w s) := by
  by_cases hl : csrLegal k rd a f s = true
  · rw [csrOp_legal hl, csrCommit]
    by_cases hw : csrDoesWrite k f = true
    · have hwl := ((csrLegal_iff ..).1 hl).2 hw
      cases hc : csrAt a with
      | none =>
        refine .commit (.plain _ _ _ _ ?_ ?_ ?_ ?_ ?_ (.inl rfl))
        all_goals cases csrDoesRead k rd <;> simp [hw, Machine.csrWrite, hc]
      | some c =>
        refine .commit (.csrWrite _ _ _ a c (csrNew k (csrOld k rd a s) src) hc hwl ?_ ?_ ?_ ?_ ?_)
        all_goals cases csrDoesRead k rd <;> simp [hw, Machine.csrWrite, hc]
    · refine .commit (.plain _ _ _ _ ?_ ?_ ?_ ?_ ?_ (.inl rfl))
      all_goals cases csrDoesRead k rd <;> simp [hw]
  · rw [csrOp, if_neg hl]; exact .raise _

theorem answers_illegal (i : Instr) (s : State) (w : InstrWord) : Answers i s (raiseIllegal w s) := .raise _

theorem answers_xretM {s : State} (hp : s.priv = .machine) : Answers .mret s (xretM s) := by
  rw [xretM]
  split
  · rename_i p h; exact .commit (.mret s p hp h)
  · rename_i h; exact .inr (.inr ⟨rfl, hp, h, rfl⟩)

/-! ### Every instruction -/

/-- The opcode of a word of each format (R162). -/
theorem opcode_wordS (imm : BitVec 12) (rs2 rs1 : Reg) (f3 : BitVec 3) (op : BitVec 7) :
    (wordS imm rs2 rs1 f3 op).extractLsb' 0 7 = op := by rw [wordS, BitVec.extractLsb'_append_eq_right]

theorem opcode_wordAmo (f5 : BitVec 5) (aq rl : Bool) (rs2 rs1 : Reg) (f3 : BitVec 3) (rd : Reg) (op : BitVec 7) :
    (wordAmo f5 aq rl rs2 rs1 f3 rd op).extractLsb' 0 7 = op := by rw [wordAmo, BitVec.extractLsb'_append_eq_right]

/-- R90 (4), (5): what exec answers, whatever the instruction and the state. -/
theorem exec_answers (i : Instr) (s : State) : Answers i s (exec i s) := by
  cases i with
  | lui => exact answers_writeBack _ _ _ _
  | auipc => exact answers_writeBack _ _ _ _
  | addi => exact answers_writeBack _ _ _ _
  | slti => exact answers_writeBack _ _ _ _
  | sltiu => exact answers_writeBack _ _ _ _
  | xori => exact answers_writeBack _ _ _ _
  | ori => exact answers_writeBack _ _ _ _
  | andi => exact answers_writeBack _ _ _ _
  | slli => exact answers_writeBack _ _ _ _
  | srli => exact answers_writeBack _ _ _ _
  | srai => exact answers_writeBack _ _ _ _
  | add => exact answers_writeBack _ _ _ _
  | sub => exact answers_writeBack _ _ _ _
  | sll => exact answers_writeBack _ _ _ _
  | slt => exact answers_writeBack _ _ _ _
  | sltu => exact answers_writeBack _ _ _ _
  | xor => exact answers_writeBack _ _ _ _
  | srl => exact answers_writeBack _ _ _ _
  | sra => exact answers_writeBack _ _ _ _
  | or => exact answers_writeBack _ _ _ _
  | and => exact answers_writeBack _ _ _ _
  | addiw => exact answers_writeBack _ _ _ _
  | slliw => exact answers_writeBack _ _ _ _
  | srliw => exact answers_writeBack _ _ _ _
  | sraiw => exact answers_writeBack _ _ _ _
  | addw => exact answers_writeBack _ _ _ _
  | subw => exact answers_writeBack _ _ _ _
  | sllw => exact answers_writeBack _ _ _ _
  | srlw => exact answers_writeBack _ _ _ _
  | sraw => exact answers_writeBack _ _ _ _
  | lb => exact answers_loadInto _ _ _ _ _ _
  | lh => exact answers_loadInto _ _ _ _ _ _
  | lw => exact answers_loadInto _ _ _ _ _ _
  | ld => exact answers_loadInto _ _ _ _ _ _
  | lbu => exact answers_loadInto _ _ _ _ _ _
  | lhu => exact answers_loadInto _ _ _ _ _ _
  | lwu => exact answers_loadInto _ _ _ _ _ _
  | sb => exact answers_storeAt _ _ _ _ (opcode_wordS ..) (by simp)
  | sh => exact answers_storeAt _ _ _ _ (opcode_wordS ..) (by simp)
  | sw => exact answers_storeAt _ _ _ _ (opcode_wordS ..) (by simp)
  | sd => exact answers_storeAt _ _ _ _ (opcode_wordS ..) (by simp)
  | fence => exact answers_advance _ _
  | fenceI => exact answers_advance _ _
  | beq => exact answers_branch _ _ _ _
  | bne => exact answers_branch _ _ _ _
  | blt => exact answers_branch _ _ _ _
  | bge => exact answers_branch _ _ _ _
  | bltu => exact answers_branch _ _ _ _
  | bgeu => exact answers_branch _ _ _ _
  | jal => exact answers_transferTo _ (by simp) (by simp) (by simp) (by simp) (by simp) _
  | jalr => exact answers_transferTo _ (by simp) (by simp) (by simp) (by simp) (by simp) _
  | csrrw => exact answers_csrOp _ _ _ _ _ _ _ _
  | csrrs => exact answers_csrOp _ _ _ _ _ _ _ _
  | csrrc => exact answers_csrOp _ _ _ _ _ _ _ _
  | csrrwi => exact answers_csrOp _ _ _ _ _ _ _ _
  | csrrsi => exact answers_csrOp _ _ _ _ _ _ _ _
  | csrrci => exact answers_csrOp _ _ _ _ _ _ _ _
  | mul => exact answers_writeBack _ _ _ _
  | mulh => exact answers_writeBack _ _ _ _
  | mulhsu => exact answers_writeBack _ _ _ _
  | mulhu => exact answers_writeBack _ _ _ _
  | div => exact answers_writeBack _ _ _ _
  | divu => exact answers_writeBack _ _ _ _
  | rem => exact answers_writeBack _ _ _ _
  | remu => exact answers_writeBack _ _ _ _
  | mulw => exact answers_writeBack _ _ _ _
  | divw => exact answers_writeBack _ _ _ _
  | divuw => exact answers_writeBack _ _ _ _
  | remw => exact answers_writeBack _ _ _ _
  | remuw => exact answers_writeBack _ _ _ _
  | lrW rd rs1 aq rl =>
    show Answers _ s (execLrW rd rs1 aq rl s)
    unfold execLrW
    exact answers_loadReserved s rd rs1 4 _ (.inl rfl) ⟨rd, rs1, aq, rl, .inl rfl⟩
  | lrD rd rs1 aq rl =>
    show Answers _ s (execLrD rd rs1 aq rl s)
    unfold execLrD
    exact answers_loadReserved s rd rs1 8 _ (.inr rfl) ⟨rd, rs1, aq, rl, .inr rfl⟩
  | scW => exact answers_storeConditional _ _ _ _ _ (opcode_wordAmo ..)
  | scD => exact answers_storeConditional _ _ _ _ _ (opcode_wordAmo ..)
  | amoswapW rd rs1 rs2 aq rl =>
    show Answers _ s (execAmoswapW rd rs1 rs2 aq rl s)
    unfold execAmoswapW
    exact answers_amoWord s rd rs1 rs2 _ (opcode_wordAmo ..) (by simp)
  | amoaddW rd rs1 rs2 aq rl =>
    show Answers _ s (execAmoaddW rd rs1 rs2 aq rl s)
    unfold execAmoaddW
    exact answers_amoWord s rd rs1 rs2 _ (opcode_wordAmo ..) (by simp)
  | amoxorW rd rs1 rs2 aq rl =>
    show Answers _ s (execAmoxorW rd rs1 rs2 aq rl s)
    unfold execAmoxorW
    exact answers_amoWord s rd rs1 rs2 _ (opcode_wordAmo ..) (by simp)
  | amoandW rd rs1 rs2 aq rl =>
    show Answers _ s (execAmoandW rd rs1 rs2 aq rl s)
    unfold execAmoandW
    exact answers_amoWord s rd rs1 rs2 _ (opcode_wordAmo ..) (by simp)
  | amoorW rd rs1 rs2 aq rl =>
    show Answers _ s (execAmoorW rd rs1 rs2 aq rl s)
    unfold execAmoorW
    exact answers_amoWord s rd rs1 rs2 _ (opcode_wordAmo ..) (by simp)
  | amominW rd rs1 rs2 aq rl =>
    show Answers _ s (execAmominW rd rs1 rs2 aq rl s)
    unfold execAmominW
    exact answers_amoWord s rd rs1 rs2 _ (opcode_wordAmo ..) (by simp)
  | amomaxW rd rs1 rs2 aq rl =>
    show Answers _ s (execAmomaxW rd rs1 rs2 aq rl s)
    unfold execAmomaxW
    exact answers_amoWord s rd rs1 rs2 _ (opcode_wordAmo ..) (by simp)
  | amominuW rd rs1 rs2 aq rl =>
    show Answers _ s (execAmominuW rd rs1 rs2 aq rl s)
    unfold execAmominuW
    exact answers_amoWord s rd rs1 rs2 _ (opcode_wordAmo ..) (by simp)
  | amomaxuW rd rs1 rs2 aq rl =>
    show Answers _ s (execAmomaxuW rd rs1 rs2 aq rl s)
    unfold execAmomaxuW
    exact answers_amoWord s rd rs1 rs2 _ (opcode_wordAmo ..) (by simp)
  | amoswapD rd rs1 rs2 aq rl =>
    show Answers _ s (execAmoswapD rd rs1 rs2 aq rl s)
    unfold execAmoswapD
    exact answers_amoDouble s rd rs1 rs2 _ (opcode_wordAmo ..) (by simp)
  | amoaddD rd rs1 rs2 aq rl =>
    show Answers _ s (execAmoaddD rd rs1 rs2 aq rl s)
    unfold execAmoaddD
    exact answers_amoDouble s rd rs1 rs2 _ (opcode_wordAmo ..) (by simp)
  | amoxorD rd rs1 rs2 aq rl =>
    show Answers _ s (execAmoxorD rd rs1 rs2 aq rl s)
    unfold execAmoxorD
    exact answers_amoDouble s rd rs1 rs2 _ (opcode_wordAmo ..) (by simp)
  | amoandD rd rs1 rs2 aq rl =>
    show Answers _ s (execAmoandD rd rs1 rs2 aq rl s)
    unfold execAmoandD
    exact answers_amoDouble s rd rs1 rs2 _ (opcode_wordAmo ..) (by simp)
  | amoorD rd rs1 rs2 aq rl =>
    show Answers _ s (execAmoorD rd rs1 rs2 aq rl s)
    unfold execAmoorD
    exact answers_amoDouble s rd rs1 rs2 _ (opcode_wordAmo ..) (by simp)
  | amominD rd rs1 rs2 aq rl =>
    show Answers _ s (execAmominD rd rs1 rs2 aq rl s)
    unfold execAmominD
    exact answers_amoDouble s rd rs1 rs2 _ (opcode_wordAmo ..) (by simp)
  | amomaxD rd rs1 rs2 aq rl =>
    show Answers _ s (execAmomaxD rd rs1 rs2 aq rl s)
    unfold execAmomaxD
    exact answers_amoDouble s rd rs1 rs2 _ (opcode_wordAmo ..) (by simp)
  | amominuD rd rs1 rs2 aq rl =>
    show Answers _ s (execAmominuD rd rs1 rs2 aq rl s)
    unfold execAmominuD
    exact answers_amoDouble s rd rs1 rs2 _ (opcode_wordAmo ..) (by simp)
  | amomaxuD rd rs1 rs2 aq rl =>
    show Answers _ s (execAmomaxuD rd rs1 rs2 aq rl s)
    unfold execAmomaxuD
    exact answers_amoDouble s rd rs1 rs2 _ (opcode_wordAmo ..) (by simp)
  | ecall => exact .raise _
  | ebreak => exact .raise _
  | sret =>
    show Answers _ _ (execSret s)
    rw [execSret]
    split
    · exact answers_illegal _ _ _
    · rename_i h; exact .commit (.sret s h)
  | mret =>
    show Answers _ _ (execMret s)
    rw [execMret]
    split
    · rename_i h; exact answers_xretM h
    · exact answers_illegal _ _ _
  | wfi =>
    show Answers _ _ (execWfi s)
    rw [execWfi]
    split
    · exact answers_illegal _ _ _
    · exact answers_advance _ _
  | sfenceVma rs1 rs2 =>
    show Answers _ _ (execSfenceVma rs1 rs2 s)
    rw [execSfenceVma]
    split
    · exact answers_illegal _ _ _
    · exact answers_advance _ _

/-! ### Every step -/

/-- R90: a step takes an interrupt, or an exception of the fetch or the decoder, or runs an instruction. -/
theorem step_answers (s : State) :
    (∃ c tval, step s = .next (takeTrap c tval s.pc s)) ∨
      (∃ i npc s1, step s = .next (retire npc s1) ∧ exec i s = .next (retire npc s1) ∧ Commit i s npc s1) ∨
      (s.priv = .machine ∧ privOfMpp (getMpp s.csr.mstatus) = none ∧ step s = .fault .reservedPrivilege) := by
  show (∃ c tval, hartStep s = _) ∨ (∃ i npc s1, hartStep s = _ ∧ _) ∨ (_ ∧ _ ∧ hartStep s = _)
  rw [hartStep]
  split
  · exact .inl ⟨_, _, rfl⟩
  · rw [fetchDecodeExecute]
    split
    · exact .inl ⟨_, _, rfl⟩
    · split
      · exact .inl ⟨_, _, rfl⟩
      · rename_i i _
        rcases exec_answers i s with ⟨e, he⟩ | ⟨npc, s1, he, hc⟩ | ⟨-, hp, hn, he⟩
        · exact .inl ⟨_, _, he⟩
        · exact .inr (.inl ⟨i, npc, s1, he, he, hc⟩)
        · exact .inr (.inr ⟨hp, hn, he⟩)

/-- The next states of a step. -/
theorem step_next {s t : State} (h : step s = .next t) :
    (∃ c tval, t = takeTrap c tval s.pc s) ∨ ∃ i npc s1, t = retire npc s1 ∧ exec i s = .next t ∧ Commit i s npc s1 := by
  rcases step_answers s with ⟨c, tval, he⟩ | ⟨i, npc, s1, he, hx, hc⟩ | ⟨-, -, he⟩
  · rw [h] at he; injection he with he; exact .inl ⟨c, tval, he⟩
  · rw [h] at he; injection he with he; exact .inr ⟨i, npc, s1, he, he ▸ hx, hc⟩
  · rw [h] at he; cases he

end Sys2Proof.Machine
end

