-- ==== Sys2Proof/Laws/Fetch.lean ====
section
/-! SUPPORT. What the fetch answers (10_state.md R81, R90) and what a step does with it. -/

namespace Sys2Proof.Machine

/-- R81, R103: four bytes of memory that hold a word are read as that word. -/
theorem physRead_word {m : Memory} {p : Nat} {w : InstrWord} (h : ∀ k, k < 4 → Memory.read m (p + k) = w.extractLsb' (8 * k) 8) :
    (physRead m p 4).setWidth 32 = w := by
  have : physRead m p 4 = BitVec.ofNat 64 ((w.setWidth 64).toNat % 2 ^ (8 * 4)) := by
    apply physRead_eq
    intro k hk
    rw [h k hk]
    ext i hi
    simp
    intro; omega
  rw [this]
  apply BitVec.eq_of_toNat_eq
  have := w.isLt
  simp
  omega

theorem fetchAddr_ok {s : State} {pa : Word} (ha : s.pc.toNat % 4 = 0) (ht : translate s .fetch s.pc = .ok pa)
    (h1 : s.platform.ramBase ≤ pa.toNat) (h2 : pa.toNat + 4 ≤ s.platform.ramBase + s.platform.ramSize) : fetchAddr s = .ok pa := by
  rw [fetchAddr, if_pos ((low2_eq_zero _).2 ha), ht]
  simp [(inRam_iff s.platform pa.toNat 4).2 ⟨h1, h2⟩]

theorem fetch_ok {s : State} {pa : Word} {w : InstrWord} (ha : s.pc.toNat % 4 = 0) (ht : translate s .fetch s.pc = .ok pa)
    (h1 : s.platform.ramBase ≤ pa.toNat) (h2 : pa.toNat + 4 ≤ s.platform.ramBase + s.platform.ramSize)
    (hb : ∀ k, k < 4 → Memory.read s.mem (pa.toNat + k) = w.extractLsb' (8 * k) 8) : fetch s = .ok w := by
  simp only [fetch, fetchAddr_ok ha ht h1 h2, physRead_word hb]

theorem fetchAddr_misaligned {s : State} (ha : s.pc.toNat % 4 ≠ 0) : fetchAddr s = .error ⟨.instrAddrMisaligned, s.pc⟩ := by
  rw [fetchAddr, if_neg fun h => ha ((low2_eq_zero _).1 h)]

theorem fetchAddr_untranslated {s : State} {e : Exc} (ha : s.pc.toNat % 4 = 0) (he : translate s .fetch s.pc = .error e) :
    fetchAddr s = .error e := by
  rw [fetchAddr, if_pos ((low2_eq_zero _).2 ha), he]

theorem fetchAddr_outside {s : State} {pa : Word} (ha : s.pc.toNat % 4 = 0) (ht : translate s .fetch s.pc = .ok pa)
    (hr : ¬ (s.platform.ramBase ≤ pa.toNat ∧ pa.toNat + 4 ≤ s.platform.ramBase + s.platform.ramSize)) :
    fetchAddr s = .error ⟨.instrAccessFault, s.pc⟩ := by
  have hf : inRam s.platform pa.toNat 4 = false := by rw [← Bool.not_eq_true, inRam_iff]; exact hr
  rw [fetchAddr, if_pos ((low2_eq_zero _).2 ha), ht]
  simp [hf, accessFault]

/-- R90 (1): with no interrupt to take, a step fetches. -/
theorem step_of_no_interrupt {s : State} (h : selectInterrupt s = none) : step s = fetchDecodeExecute s := by
  show hartStep s = _
  rw [hartStep, h]

/-- R81: the address of the last fetch is aligned, so `withFetchWord` places its word on four bytes of RAM. -/
theorem fetchAddr_inRam {s : State} {pa : Word} (h : fetchAddr s = .ok pa) :
    s.platform.ramBase ≤ pa.toNat ∧ pa.toNat + 4 ≤ s.platform.ramBase + s.platform.ramSize := by
  unfold fetchAddr at h
  split at h
  · split at h
    · cases h
    · split at h
      · rename_i hr
        cases h
        exact (inRam_iff ..).1 hr
      · cases h
  · cases h

end Sys2Proof.Machine
end

