-- ==== Sys2Proof/Laws/Invariant.lean ====
section
/-! SUPPORT. The parts of the invariant (Sys2Proof/Safety.lean) under the updates a step makes: the CSR fields bit by bit under a
write, a trap and a return, the pc, the reservation, and memory. -/

namespace Sys2Proof.Machine

/-! ### The invariant in the words of integers and bits -/

/-- What the invariant asks of the CSR storage. -/
def CsrFile.Legal (f : CsrFile) : Prop :=
  f.mepc.toNat % 4 = 0 ∧ f.sepc.toNat % 4 = 0 ∧ f.mtvec.getLsbD 1 = false ∧ f.stvec.getLsbD 1 = false ∧
  ¬ (f.mstatus.getLsbD 12 = true ∧ f.mstatus.getLsbD 11 = false) ∧
  (∀ j, mstatusMask.getLsbD j = false → f.mstatus.getLsbD j = mstatusOnes.getLsbD j) ∧
  (∀ j, mieMask.getLsbD j = false → f.mie.getLsbD j = false) ∧
  (∀ j, mieMask.getLsbD j = false → f.mip.getLsbD j = false) ∧
  (∀ j, medelegMask.getLsbD j = false → f.medeleg.getLsbD j = false) ∧
  (∀ j, midelegMask.getLsbD j = false → f.mideleg.getLsbD j = false) ∧
  (f.satp.toNat / 2 ^ 60 = 0 ∨ f.satp.toNat / 2 ^ 60 = 8)

theorem inv_eq_all (s : State) : s.inv = true ↔ s.platform.wf = true ∧ Memory.wf s.mem = true ∧ memoryInRam s = true ∧ pcAligned
    s = true ∧ epcAligned s = true ∧ tvecLegal s = true ∧ mppLegal s = true
    ∧ mstatusFixed s = true ∧ interruptBitsLegal s = true ∧ satpLegal s = true ∧ reservationLegal s = true := by
  simp only [State.inv, Bool.and_eq_true, and_assoc]

/-- A register equals a constant outside a mask: bit by bit. -/
theorem and_not_eq_iff (x m y : Word) : (x &&& ~~~m == y) = true ↔ ((∀ j, m.getLsbD j = false → x.getLsbD j = y.getLsbD j) ∧ ∀ j,
    m.getLsbD j = true → y.getLsbD j = false) := by
  rw [beq_iff_eq]
  constructor
  · rintro rfl
    refine ⟨fun j hj => ?_, fun j hj => ?_⟩
    · by_cases h : j < 64
      · rw [BitVec.getLsbD_and, BitVec.getLsbD_not, hj]; simp [h]
      · rw [BitVec.getLsbD_of_ge _ _ (by omega), BitVec.getLsbD_of_ge _ _ (by omega)]
    · rw [BitVec.getLsbD_and, BitVec.getLsbD_not, hj]; simp
  · rintro ⟨h1, h2⟩
    apply BitVec.eq_of_getLsbD_eq
    intro j hj
    rw [BitVec.getLsbD_and, BitVec.getLsbD_not]
    cases hm : m.getLsbD j
    · rw [h1 j hm]; simp [hj]
    · rw [h2 j hm]; simp

/-- The CSR part of the invariant (R47 to R54, R58). -/
theorem csrLegal_iff_fields (s : State) : (epcAligned s = true ∧ tvecLegal s = true ∧ mppLegal s = true
    ∧ mstatusFixed s = true ∧ interruptBitsLegal s = true ∧ satpLegal s = true) ↔ CsrFile.Legal s.csr := by
  have e : (getMpp s.csr.mstatus != 2#2) = true ↔ ¬ (s.csr.mstatus.getLsbD 12 = true ∧ s.csr.mstatus.getLsbD 11 = false) := by
    rw [bne_iff_ne, Ne, ← BitVec.toNat_inj, getMpp_eq]
    simp only [BitVec.getLsbD, Nat.testBit_eq_decide_div_mod_eq, decide_eq_true_eq, decide_eq_false_iff_not, BitVec.toNat_ofNat]
    omega
  have z : ∀ m : Word, (∀ j, m.getLsbD j = true → (0 : Word).getLsbD j = false) := fun m j _ => BitVec.getLsbD_zero
  have o : ∀ j, mstatusMask.getLsbD j = true → mstatusOnes.getLsbD j = false := by
    intro j
    by_cases h : j < 64
    · have : ∀ k : Fin 64, mstatusMask.getLsbD k.val = true → mstatusOnes.getLsbD k.val = false := by decide
      exact this ⟨j, h⟩
    · intro h'; rw [BitVec.getLsbD_of_ge _ _ (by omega)] at h'; cases h'
  have z0 : ∀ j, (0 : Word).getLsbD j = false := fun j => BitVec.getLsbD_zero
  have b4 : ∀ w : Word, (w.extractLsb' 0 2 == 0#2) = true ↔ w.toNat % 4 = 0 := fun w => by rw [beq_iff_eq, low2_eq_zero]
  have s0 : ∀ w : Word, (satpMode w == 0#4) = true ↔ w.toNat / 2 ^ 60 = 0 := fun w => by
    rw [beq_iff_eq, ← BitVec.toNat_inj, satpMode_toNat]; rfl
  have s8 : ∀ w : Word, (satpMode w == 8#4) = true ↔ w.toNat / 2 ^ 60 = 8 := fun w => by
    rw [beq_iff_eq, ← BitVec.toNat_inj, satpMode_toNat]; rfl
  simp only [epcAligned, tvecLegal, mppLegal, mstatusFixed, interruptBitsLegal, satpLegal, Bool.and_eq_true, Bool.or_eq_true, b4,
      s0, s8, e, Bool.not_eq_true', getBit]
  rw [and_not_eq_iff, and_not_eq_iff, and_not_eq_iff, and_not_eq_iff, and_not_eq_iff]
  unfold CsrFile.Legal
  constructor
  · rintro ⟨⟨a, b⟩, ⟨c, d⟩, f, ⟨g, -⟩, ⟨⟨⟨⟨k, -⟩, l, -⟩, m, -⟩, n, -⟩, q⟩
    exact ⟨a, b, c, d, f, g, fun j hj => (k j hj).trans (z0 j), fun j hj => (l j hj).trans (z0 j), fun j hj => (m j hj).trans (z0
        j), fun j hj => (n j hj).trans (z0 j), q⟩
  · rintro ⟨a, b, c, d, f, g, k, l, m, n, q⟩
    exact ⟨⟨a, b⟩, ⟨c, d⟩, f, ⟨g, o⟩, ⟨⟨⟨⟨fun j hj => (k j hj).trans (z0 j).symm, z _⟩, fun j hj => (l j hj).trans (z0 j).symm, z
        _⟩, fun j hj => (m j hj).trans (z0 j).symm, z _⟩, fun j hj => (n j hj).trans (z0 j).symm, z _⟩, q⟩

theorem mergeMasked_keeps (P : Word) (mask mask' old v : Word) (h : ∀ j, mask.getLsbD j = false → mask'.getLsbD j = false) (h0 :
    ∀ j, mask.getLsbD j = false → old.getLsbD j = P.getLsbD j) :
   ∀ j, mask.getLsbD j = false → (mergeMasked old mask' v).getLsbD j = P.getLsbD j := by
  intro j hj
  rw [mergeMasked_getLsbD, h j hj]; simp only [Bool.false_eq_true, if_false]; exact h0 j hj

theorem mask_subset (m m' : Word) (h : ∀ k : Fin 64, m.getLsbD k.val = false → m'.getLsbD k.val = false) : ∀ j, m.getLsbD j =
    false → m'.getLsbD j = false := by
  intro j hj
  by_cases h' : j < 64
  · exact h ⟨j, h'⟩ hj
  · exact BitVec.getLsbD_of_ge _ _ (by omega)

theorem and_getLsbD_off (v m : Word) : ∀ j, m.getLsbD j = false → (v &&& m).getLsbD j = false := by
  intro j hj; rw [BitVec.getLsbD_and, hj, Bool.and_false]

/-- Every CSR write rule keeps the storage legal (R47 to R58). -/
theorem csrStore_legal (f : CsrFile) (c : Csr) (v : Word) (h : CsrFile.Legal f) : CsrFile.Legal (csrStore f c v) := by
  obtain ⟨a, b, cc, d, e, g, k, l, m, n, q⟩ := h
  have z0 : ∀ j, (0 : Word).getLsbD j = false := fun j => BitVec.getLsbD_zero
  have epc : (epcWrite v).toNat % 4 = 0 := by
    rw [← low2_eq_zero]
    apply BitVec.eq_of_getLsbD_eq
    intro i hi
    have : i = 0 ∨ i = 1 := by omega
    rcases this with rfl | rfl <;> simp [epcWrite]
  have tv : (tvecWrite v).getLsbD 1 = false := by
    simp [tvecWrite]
  cases c with
  | mstatus =>
    refine ⟨a, b, cc, d, ?_, ?_, k, l, m, n, q⟩
    · show ¬ ((mstatusWrite f.mstatus v).getLsbD 12 = true ∧ (mstatusWrite f.mstatus v).getLsbD 11 = false)
      rw [mstatusWrite_eq]
      have hc : v.toNat / 2 ^ 11 % 4 = 2 ↔ (v.getLsbD 12 = true ∧ v.getLsbD 11 = false) := by
        simp only [BitVec.getLsbD, Nat.testBit_eq_decide_div_mod_eq, decide_eq_true_eq, decide_eq_false_iff_not]
        omega
      split
      · rw [throughMask_getLsbD, throughMask_getLsbD, if_neg (by decide), if_neg (by decide)]; exact e
      · rename_i hh
        rw [hc] at hh
        rw [throughMask_getLsbD, throughMask_getLsbD, if_pos (by decide), if_pos (by decide)]; exact hh
    · intro j hj
      show (mstatusWrite f.mstatus v).getLsbD j = _
      unfold mstatusWrite
      have hne : j ≠ 11 ∧ j ≠ 12 := by
        constructor <;> (rintro rfl; exact absurd hj (by decide))
      have := mergeMasked_keeps mstatusOnes mstatusMask mstatusMask f.mstatus v (fun _ h => h) g j hj
      split
      · rw [setMpp_getLsbD, if_neg hne.1, if_neg hne.2]; exact this
      · exact this
  | sstatus =>
    refine ⟨a, b, cc, d, ?_, mergeMasked_keeps mstatusOnes mstatusMask sstatusWriteMask f.mstatus v (mask_subset _ _ (by decide))
        g, k, l, m, n, q⟩
    show ¬ ((mergeMasked f.mstatus sstatusWriteMask v).getLsbD 12 = true ∧ (mergeMasked f.mstatus sstatusWriteMask v).getLsbD 11
        = false)
    rw [mergeMasked_getLsbD, mergeMasked_getLsbD, if_neg (by decide), if_neg (by decide)]
    exact e
  | sie => 
    refine ⟨a, b, cc, d, e, g, ?_, l, m, n, q⟩
    intro j hj
    exact (mergeMasked_keeps 0 mieMask sieMask f.mie v (mask_subset _ _ (by decide)) (fun j hj => (k j hj).trans (z0 j).symm) j
        hj).trans (z0 j)
  | sip => 
    refine ⟨a, b, cc, d, e, g, k, ?_, m, n, q⟩
    intro j hj
    exact (mergeMasked_keeps 0 mieMask sipWriteMask f.mip v (mask_subset _ _ (by decide)) (fun j hj => (l j hj).trans (z0
        j).symm) j hj).trans (z0 j)
  | mip => 
    refine ⟨a, b, cc, d, e, g, k, ?_, m, n, q⟩
    intro j hj
    exact (mergeMasked_keeps 0 mieMask mipWriteMask f.mip v (mask_subset _ _ (by decide)) (fun j hj => (l j hj).trans (z0
        j).symm) j hj).trans (z0 j)
  | mie => exact ⟨a, b, cc, d, e, g, and_getLsbD_off v mieMask, l, m, n, q⟩
  | medeleg => exact ⟨a, b, cc, d, e, g, k, l, and_getLsbD_off v medelegMask, n, q⟩
  | mideleg => exact ⟨a, b, cc, d, e, g, k, l, m, and_getLsbD_off v midelegMask, q⟩
  | mtvec => exact ⟨a, b, tv, d, e, g, k, l, m, n, q⟩
  | stvec => exact ⟨a, b, cc, tv, e, g, k, l, m, n, q⟩
  | mepc => exact ⟨epc, b, cc, d, e, g, k, l, m, n, q⟩
  | sepc => exact ⟨a, epc, cc, d, e, g, k, l, m, n, q⟩
  | satp =>
    refine ⟨a, b, cc, d, e, g, k, l, m, n, ?_⟩
    show (satpWrite f.satp v).toNat / 2 ^ 60 = 0 ∨ (satpWrite f.satp v).toNat / 2 ^ 60 = 8
    rw [satpWrite_eq]
    split
    · assumption
    · exact q
  | sscratch => exact ⟨a, b, cc, d, e, g, k, l, m, n, q⟩
  | scause => exact ⟨a, b, cc, d, e, g, k, l, m, n, q⟩
  | stval => exact ⟨a, b, cc, d, e, g, k, l, m, n, q⟩
  | mscratch => exact ⟨a, b, cc, d, e, g, k, l, m, n, q⟩
  | mcause => exact ⟨a, b, cc, d, e, g, k, l, m, n, q⟩
  | mtval => exact ⟨a, b, cc, d, e, g, k, l, m, n, q⟩
  | cycle => exact ⟨a, b, cc, d, e, g, k, l, m, n, q⟩
  | time => exact ⟨a, b, cc, d, e, g, k, l, m, n, q⟩
  | instret => exact ⟨a, b, cc, d, e, g, k, l, m, n, q⟩

/-- An update of mstatus that changes only writable fields and leaves MPP legal. -/
theorem legal_mstatus (f : CsrFile) (w : Word) (h : CsrFile.Legal f) (h1 : ¬ (w.getLsbD 12 = true ∧ w.getLsbD 11 = false))
  (h2 : ∀ j, mstatusMask.getLsbD j = false → w.getLsbD j = f.mstatus.getLsbD j) : CsrFile.Legal { f with mstatus := w } := by
  obtain ⟨a, b, cc, d, e, g, k, l, m, n, q⟩ := h
  exact ⟨a, b, cc, d, h1, fun j hj => (h2 j hj).trans (g j hj), k, l, m, n, q⟩

theorem off_mstatusMask {j : Nat} (h : mstatusMask.getLsbD j = false) : j ≠ 1 ∧ j ≠ 3 ∧ j ≠ 5 ∧ j ≠ 7 ∧ j ≠ 8 ∧ j ≠ 11 ∧ j ≠ 12
    := by
  refine ⟨?_, ?_, ?_, ?_, ?_, ?_, ?_⟩ <;> (rintro rfl; exact absurd h (by decide))

/-- R53, R443: a trap vector is a multiple of 4. -/
theorem trapVector_aligned (tvec : Word) (c : Cause) (h : tvec.getLsbD 1 = false) : (trapVector tvec c).toNat % 4 = 0 := by
  rw [← low2_eq_zero]
  have hb : ∀ i, i < 2 → (tvec &&& ~~~0x3#64).getLsbD i = false := by
    intro i hi
    have : i = 0 ∨ i = 1 := by omega
    rcases this with rfl | rfl <;> simp
  have hb' : (tvec &&& ~~~0x3#64).toNat % 4 = 0 := by
    rw [← low2_eq_zero]
    apply BitVec.eq_of_getLsbD_eq
    intro i hi
    simp only [BitVec.getLsbD_extractLsb', Nat.zero_add, hb i hi, hi]; simp
  rw [low2_eq_zero]
  simp only [trapVector]
  split
  · rw [BitVec.toNat_add, BitVec.toNat_mul, BitVec.toNat_ofNat]
    have : (4 : Word).toNat = 4 := rfl
    rw [this]; omega
  · exact hb'

/-- Taking a trap keeps the storage legal and goes to an aligned pc (R441 to R443). -/
theorem takeTrap_legal (c : Cause) (tval : Word) (s : State) (h : CsrFile.Legal s.csr) (hpc : s.pc.toNat % 4 = 0) : CsrFile.Legal (takeTrap c tval s.pc
    s).csr ∧ (takeTrap c tval s.pc s).pc.toNat % 4 = 0 := by
  have h' := h
  obtain ⟨a, b, cc, d, e, g, k, l, m, n, q⟩ := h
  unfold takeTrap
  split
  · refine ⟨?_, trapVector_aligned _ _ d⟩
    have := legal_mstatus s.csr (mstatusEnterS s.csr.mstatus s.priv) h' (by simpa [mstatusEnterS_getLsbD,
        -BitVec.getLsbD_eq_getElem] using e) (fun j hj => by
      have := off_mstatusMask hj
      rw [mstatusEnterS_getLsbD, if_neg (by omega), if_neg (by omega), if_neg (by omega)])
    obtain ⟨a, b, cc, d, e, g, k, l, m, n, q⟩ := this
    exact ⟨a, hpc, cc, d, e, g, k, l, m, n, q⟩
  · refine ⟨?_, trapVector_aligned _ _ cc⟩
    have := legal_mstatus s.csr (mstatusEnterM s.csr.mstatus s.priv) h' (by
      rw [mstatusEnterM_getLsbD, mstatusEnterM_getLsbD]
      rw [if_neg (by decide), if_pos rfl, if_pos rfl]
      cases s.priv <;> decide) (fun j hj => by
      have := off_mstatusMask hj
      rw [mstatusEnterM_getLsbD, if_neg (by omega), if_neg (by omega), if_neg (by omega), if_neg (by omega)])
    obtain ⟨a, b, cc, d, e, g, k, l, m, n, q⟩ := this
    exact ⟨hpc, b, cc, d, e, g, k, l, m, n, q⟩

theorem pcAligned_iff (s : State) : pcAligned s = true ↔ s.pc.toNat % 4 = 0 := by rw [pcAligned, beq_iff_eq, low2_eq_zero]

/-- The invariant, part by part. -/
theorem inv_iff_parts (s : State) : s.inv = true ↔ s.platform.wf = true ∧ Memory.wf s.mem = true ∧ memoryInRam s = true ∧
    s.pc.toNat % 4 = 0 ∧ CsrFile.Legal s.csr ∧ reservationLegal s = true := by
  rw [inv_eq_all, ← csrLegal_iff_fields, pcAligned_iff]; tauto

theorem mstatusMret_legal (f : CsrFile) (h : CsrFile.Legal f) : CsrFile.Legal { f with mstatus := mstatusMret f.mstatus } := by
  refine legal_mstatus f _ h (by rw [mstatusMret_getLsbD, mstatusMret_getLsbD]; simp) fun j hj => ?_
  have := off_mstatusMask hj
  rw [mstatusMret_getLsbD, if_neg (by omega), if_neg (by omega), if_neg (by omega), if_neg (by omega)]

theorem mstatusSret_legal (f : CsrFile) (h : CsrFile.Legal f) : CsrFile.Legal { f with mstatus := mstatusSret f.mstatus } := by
  refine legal_mstatus f _ h (by rw [mstatusSret_getLsbD, mstatusSret_getLsbD]; simpa [-BitVec.getLsbD_eq_getElem] using
      h.2.2.2.2.1) fun j hj => ?_
  have := off_mstatusMask hj
  rw [mstatusSret_getLsbD, if_neg (by omega), if_neg (by omega), if_neg (by omega)]

theorem reservationLegal_congr {s t : State} (hp : t.platform = s.platform) (h : t.resv = s.resv ∨ t.resv = none) (hl :
    reservationLegal s = true) : reservationLegal t = true := by
  unfold reservationLegal at *
  rcases h with h | h
  · rw [h, hp]; exact hl
  · rw [h]

theorem memoryInRam_congr {s t : State} (hp : t.platform = s.platform) (h : t.mem = s.mem) (hl : memoryInRam s = true) :
    memoryInRam t = true := by
  unfold memoryInRam at *; rw [h, hp]; exact hl

theorem add_four_aligned {p : Word} (h : p.toNat % 4 = 0) : (p + 4).toNat % 4 = 0 := by
  have : (4 : Word).toNat = 4 := rfl
  rw [BitVec.toNat_add, this]; omega

/-- R47: a legal MPP names a mode. -/
theorem privOfMpp_ne_none {w : Word} (h : ¬ (w.getLsbD 12 = true ∧ w.getLsbD 11 = false)) : privOfMpp (getMpp w) ≠ none := by
  have h2 : ¬ (getMpp w).toNat = 2 := by
    rw [getMpp_eq]
    intro h'; apply h
    simp only [BitVec.getLsbD, Nat.testBit_eq_decide_div_mod_eq, decide_eq_true_eq, decide_eq_false_iff_not]
    omega
  generalize getMpp w = x at h2
  revert x; decide

end Sys2Proof.Machine
end

