-- ==== Sys2Proof/Laws/PerInstr.lean ====
section
/-! SUPPORT. Each instruction's word matches a row of the opcode table (30_encoding.md R171) that builds that very instruction from it:
one lemma per constructor of Instr. -/

namespace Sys2Proof.Laws

/-- Some row of the table matches the word the encoder writes, and gives the instruction back when it is well-formed. -/
def EncodesItsRow.Statement (i : Instr) : Prop :=
  ∃ r, r ∈ opcodeTable ∧ rowMatches (encode i) r = true ∧ (i.wellFormed = true → r.build (encode i) = i)

/-- The `k`-th row of the table is the one. -/
theorem encodesItsRow_of_row {i : Instr} (k : Nat) {r : Row} (hk : opcodeTable[k]? = some r) (hm : encode i &&& r.mask = r.pattern)
    (hb : i.wellFormed = true → r.build (encode i) = i) : EncodesItsRow.Statement i :=
  ⟨r, List.mem_of_getElem? hk, (rowMatches_iff _ _).2 hm, hb⟩

theorem EncodesItsRow.lui (rd : Reg) (imm : BitVec 20) : EncodesItsRow.Statement (.lui rd imm) :=
  encodesItsRow_of_row 0 rfl ((wordU_and ..).trans rfl) fun _ => by simp only [encode]; simp

theorem EncodesItsRow.auipc (rd : Reg) (imm : BitVec 20) : EncodesItsRow.Statement (.auipc rd imm) :=
  encodesItsRow_of_row 1 rfl ((wordU_and ..).trans rfl) fun _ => by simp only [encode]; simp

theorem EncodesItsRow.addi (rd rs1 : Reg) (imm : BitVec 12) : EncodesItsRow.Statement (.addi rd rs1 imm) :=
  encodesItsRow_of_row 2 rfl ((wordI_and ..).trans rfl) fun _ => by simp only [encode]; simp

theorem EncodesItsRow.slti (rd rs1 : Reg) (imm : BitVec 12) : EncodesItsRow.Statement (.slti rd rs1 imm) :=
  encodesItsRow_of_row 3 rfl ((wordI_and ..).trans rfl) fun _ => by simp only [encode]; simp

theorem EncodesItsRow.sltiu (rd rs1 : Reg) (imm : BitVec 12) : EncodesItsRow.Statement (.sltiu rd rs1 imm) :=
  encodesItsRow_of_row 4 rfl ((wordI_and ..).trans rfl) fun _ => by simp only [encode]; simp

theorem EncodesItsRow.xori (rd rs1 : Reg) (imm : BitVec 12) : EncodesItsRow.Statement (.xori rd rs1 imm) :=
  encodesItsRow_of_row 5 rfl ((wordI_and ..).trans rfl) fun _ => by simp only [encode]; simp

theorem EncodesItsRow.ori (rd rs1 : Reg) (imm : BitVec 12) : EncodesItsRow.Statement (.ori rd rs1 imm) :=
  encodesItsRow_of_row 6 rfl ((wordI_and ..).trans rfl) fun _ => by simp only [encode]; simp

theorem EncodesItsRow.andi (rd rs1 : Reg) (imm : BitVec 12) : EncodesItsRow.Statement (.andi rd rs1 imm) :=
  encodesItsRow_of_row 7 rfl ((wordI_and ..).trans rfl) fun _ => by simp only [encode]; simp

theorem EncodesItsRow.slli (rd rs1 : Reg) (shamt : BitVec 6) : EncodesItsRow.Statement (.slli rd rs1 shamt) :=
  encodesItsRow_of_row 8 rfl ((wordShift64_and ..).trans rfl) fun _ => by simp only [encode]; simp

theorem EncodesItsRow.srli (rd rs1 : Reg) (shamt : BitVec 6) : EncodesItsRow.Statement (.srli rd rs1 shamt) :=
  encodesItsRow_of_row 9 rfl ((wordShift64_and ..).trans rfl) fun _ => by simp only [encode]; simp

theorem EncodesItsRow.srai (rd rs1 : Reg) (shamt : BitVec 6) : EncodesItsRow.Statement (.srai rd rs1 shamt) :=
  encodesItsRow_of_row 10 rfl ((wordShift64_and ..).trans rfl) fun _ => by simp only [encode]; simp

theorem EncodesItsRow.add (rd rs1 rs2 : Reg) : EncodesItsRow.Statement (.add rd rs1 rs2) :=
  encodesItsRow_of_row 11 rfl ((wordR_and ..).trans rfl) fun _ => by simp only [encode]; simp

theorem EncodesItsRow.sub (rd rs1 rs2 : Reg) : EncodesItsRow.Statement (.sub rd rs1 rs2) :=
  encodesItsRow_of_row 12 rfl ((wordR_and ..).trans rfl) fun _ => by simp only [encode]; simp

theorem EncodesItsRow.sll (rd rs1 rs2 : Reg) : EncodesItsRow.Statement (.sll rd rs1 rs2) :=
  encodesItsRow_of_row 13 rfl ((wordR_and ..).trans rfl) fun _ => by simp only [encode]; simp

theorem EncodesItsRow.slt (rd rs1 rs2 : Reg) : EncodesItsRow.Statement (.slt rd rs1 rs2) :=
  encodesItsRow_of_row 14 rfl ((wordR_and ..).trans rfl) fun _ => by simp only [encode]; simp

theorem EncodesItsRow.sltu (rd rs1 rs2 : Reg) : EncodesItsRow.Statement (.sltu rd rs1 rs2) :=
  encodesItsRow_of_row 15 rfl ((wordR_and ..).trans rfl) fun _ => by simp only [encode]; simp

theorem EncodesItsRow.xor (rd rs1 rs2 : Reg) : EncodesItsRow.Statement (.xor rd rs1 rs2) :=
  encodesItsRow_of_row 16 rfl ((wordR_and ..).trans rfl) fun _ => by simp only [encode]; simp

theorem EncodesItsRow.srl (rd rs1 rs2 : Reg) : EncodesItsRow.Statement (.srl rd rs1 rs2) :=
  encodesItsRow_of_row 17 rfl ((wordR_and ..).trans rfl) fun _ => by simp only [encode]; simp

theorem EncodesItsRow.sra (rd rs1 rs2 : Reg) : EncodesItsRow.Statement (.sra rd rs1 rs2) :=
  encodesItsRow_of_row 18 rfl ((wordR_and ..).trans rfl) fun _ => by simp only [encode]; simp

theorem EncodesItsRow.or (rd rs1 rs2 : Reg) : EncodesItsRow.Statement (.or rd rs1 rs2) :=
  encodesItsRow_of_row 19 rfl ((wordR_and ..).trans rfl) fun _ => by simp only [encode]; simp

theorem EncodesItsRow.and (rd rs1 rs2 : Reg) : EncodesItsRow.Statement (.and rd rs1 rs2) :=
  encodesItsRow_of_row 20 rfl ((wordR_and ..).trans rfl) fun _ => by simp only [encode]; simp

theorem EncodesItsRow.addiw (rd rs1 : Reg) (imm : BitVec 12) : EncodesItsRow.Statement (.addiw rd rs1 imm) :=
  encodesItsRow_of_row 21 rfl ((wordI_and ..).trans rfl) fun _ => by simp only [encode]; simp

theorem EncodesItsRow.slliw (rd rs1 : Reg) (shamt : BitVec 5) : EncodesItsRow.Statement (.slliw rd rs1 shamt) :=
  encodesItsRow_of_row 22 rfl ((wordR_and ..).trans rfl) fun _ => by simp only [encode]; simp

theorem EncodesItsRow.srliw (rd rs1 : Reg) (shamt : BitVec 5) : EncodesItsRow.Statement (.srliw rd rs1 shamt) :=
  encodesItsRow_of_row 23 rfl ((wordR_and ..).trans rfl) fun _ => by simp only [encode]; simp

theorem EncodesItsRow.sraiw (rd rs1 : Reg) (shamt : BitVec 5) : EncodesItsRow.Statement (.sraiw rd rs1 shamt) :=
  encodesItsRow_of_row 24 rfl ((wordR_and ..).trans rfl) fun _ => by simp only [encode]; simp

theorem EncodesItsRow.addw (rd rs1 rs2 : Reg) : EncodesItsRow.Statement (.addw rd rs1 rs2) :=
  encodesItsRow_of_row 25 rfl ((wordR_and ..).trans rfl) fun _ => by simp only [encode]; simp

theorem EncodesItsRow.subw (rd rs1 rs2 : Reg) : EncodesItsRow.Statement (.subw rd rs1 rs2) :=
  encodesItsRow_of_row 26 rfl ((wordR_and ..).trans rfl) fun _ => by simp only [encode]; simp

theorem EncodesItsRow.sllw (rd rs1 rs2 : Reg) : EncodesItsRow.Statement (.sllw rd rs1 rs2) :=
  encodesItsRow_of_row 27 rfl ((wordR_and ..).trans rfl) fun _ => by simp only [encode]; simp

theorem EncodesItsRow.srlw (rd rs1 rs2 : Reg) : EncodesItsRow.Statement (.srlw rd rs1 rs2) :=
  encodesItsRow_of_row 28 rfl ((wordR_and ..).trans rfl) fun _ => by simp only [encode]; simp

theorem EncodesItsRow.sraw (rd rs1 rs2 : Reg) : EncodesItsRow.Statement (.sraw rd rs1 rs2) :=
  encodesItsRow_of_row 29 rfl ((wordR_and ..).trans rfl) fun _ => by simp only [encode]; simp

theorem EncodesItsRow.lb (rd rs1 : Reg) (imm : BitVec 12) : EncodesItsRow.Statement (.lb rd rs1 imm) :=
  encodesItsRow_of_row 30 rfl ((wordI_and ..).trans rfl) fun _ => by simp only [encode]; simp

theorem EncodesItsRow.lh (rd rs1 : Reg) (imm : BitVec 12) : EncodesItsRow.Statement (.lh rd rs1 imm) :=
  encodesItsRow_of_row 31 rfl ((wordI_and ..).trans rfl) fun _ => by simp only [encode]; simp

theorem EncodesItsRow.lw (rd rs1 : Reg) (imm : BitVec 12) : EncodesItsRow.Statement (.lw rd rs1 imm) :=
  encodesItsRow_of_row 32 rfl ((wordI_and ..).trans rfl) fun _ => by simp only [encode]; simp

theorem EncodesItsRow.ld (rd rs1 : Reg) (imm : BitVec 12) : EncodesItsRow.Statement (.ld rd rs1 imm) :=
  encodesItsRow_of_row 33 rfl ((wordI_and ..).trans rfl) fun _ => by simp only [encode]; simp

theorem EncodesItsRow.lbu (rd rs1 : Reg) (imm : BitVec 12) : EncodesItsRow.Statement (.lbu rd rs1 imm) :=
  encodesItsRow_of_row 34 rfl ((wordI_and ..).trans rfl) fun _ => by simp only [encode]; simp

theorem EncodesItsRow.lhu (rd rs1 : Reg) (imm : BitVec 12) : EncodesItsRow.Statement (.lhu rd rs1 imm) :=
  encodesItsRow_of_row 35 rfl ((wordI_and ..).trans rfl) fun _ => by simp only [encode]; simp

theorem EncodesItsRow.lwu (rd rs1 : Reg) (imm : BitVec 12) : EncodesItsRow.Statement (.lwu rd rs1 imm) :=
  encodesItsRow_of_row 36 rfl ((wordI_and ..).trans rfl) fun _ => by simp only [encode]; simp

theorem EncodesItsRow.sb (rs1 rs2 : Reg) (imm : BitVec 12) : EncodesItsRow.Statement (.sb rs1 rs2 imm) :=
  encodesItsRow_of_row 37 rfl ((wordS_and ..).trans rfl) fun _ => by simp only [encode]; simp

theorem EncodesItsRow.sh (rs1 rs2 : Reg) (imm : BitVec 12) : EncodesItsRow.Statement (.sh rs1 rs2 imm) :=
  encodesItsRow_of_row 38 rfl ((wordS_and ..).trans rfl) fun _ => by simp only [encode]; simp

theorem EncodesItsRow.sw (rs1 rs2 : Reg) (imm : BitVec 12) : EncodesItsRow.Statement (.sw rs1 rs2 imm) :=
  encodesItsRow_of_row 39 rfl ((wordS_and ..).trans rfl) fun _ => by simp only [encode]; simp

theorem EncodesItsRow.sd (rs1 rs2 : Reg) (imm : BitVec 12) : EncodesItsRow.Statement (.sd rs1 rs2 imm) :=
  encodesItsRow_of_row 40 rfl ((wordS_and ..).trans rfl) fun _ => by simp only [encode]; simp

theorem EncodesItsRow.fence (fm pred succ : BitVec 4) (rs1 rd : Reg) : EncodesItsRow.Statement (.fence fm pred succ rs1 rd) :=
  encodesItsRow_of_row 41 rfl ((wordFence_and ..).trans rfl) fun _ => by simp only [encode]; simp

theorem EncodesItsRow.fenceI (imm : BitVec 12) (rs1 rd : Reg) : EncodesItsRow.Statement (.fenceI imm rs1 rd) :=
  encodesItsRow_of_row 42 rfl ((wordI_and ..).trans rfl) fun _ => by simp only [encode]; simp

theorem EncodesItsRow.beq (rs1 rs2 : Reg) (imm : BitVec 13) : EncodesItsRow.Statement (.beq rs1 rs2 imm) :=
  encodesItsRow_of_row 43 rfl ((wordB_and ..).trans rfl) fun h => by simp only [encode]; simp [fieldImmB_wordB _ _ _ _ _ h]

theorem EncodesItsRow.bne (rs1 rs2 : Reg) (imm : BitVec 13) : EncodesItsRow.Statement (.bne rs1 rs2 imm) :=
  encodesItsRow_of_row 44 rfl ((wordB_and ..).trans rfl) fun h => by simp only [encode]; simp [fieldImmB_wordB _ _ _ _ _ h]

theorem EncodesItsRow.blt (rs1 rs2 : Reg) (imm : BitVec 13) : EncodesItsRow.Statement (.blt rs1 rs2 imm) :=
  encodesItsRow_of_row 45 rfl ((wordB_and ..).trans rfl) fun h => by simp only [encode]; simp [fieldImmB_wordB _ _ _ _ _ h]

theorem EncodesItsRow.bge (rs1 rs2 : Reg) (imm : BitVec 13) : EncodesItsRow.Statement (.bge rs1 rs2 imm) :=
  encodesItsRow_of_row 46 rfl ((wordB_and ..).trans rfl) fun h => by simp only [encode]; simp [fieldImmB_wordB _ _ _ _ _ h]

theorem EncodesItsRow.bltu (rs1 rs2 : Reg) (imm : BitVec 13) : EncodesItsRow.Statement (.bltu rs1 rs2 imm) :=
  encodesItsRow_of_row 47 rfl ((wordB_and ..).trans rfl) fun h => by simp only [encode]; simp [fieldImmB_wordB _ _ _ _ _ h]

theorem EncodesItsRow.bgeu (rs1 rs2 : Reg) (imm : BitVec 13) : EncodesItsRow.Statement (.bgeu rs1 rs2 imm) :=
  encodesItsRow_of_row 48 rfl ((wordB_and ..).trans rfl) fun h => by simp only [encode]; simp [fieldImmB_wordB _ _ _ _ _ h]

theorem EncodesItsRow.jal (rd : Reg) (imm : BitVec 21) : EncodesItsRow.Statement (.jal rd imm) :=
  encodesItsRow_of_row 49 rfl ((wordJ_and ..).trans rfl) fun h => by simp only [encode]; simp [fieldImmJ_wordJ _ _ _ h]

theorem EncodesItsRow.jalr (rd rs1 : Reg) (imm : BitVec 12) : EncodesItsRow.Statement (.jalr rd rs1 imm) :=
  encodesItsRow_of_row 50 rfl ((wordI_and ..).trans rfl) fun _ => by simp only [encode]; simp

theorem EncodesItsRow.csrrw (rd : Reg) (csr : CsrAddr) (rs1 : Reg) : EncodesItsRow.Statement (.csrrw rd csr rs1) :=
  encodesItsRow_of_row 51 rfl ((wordI_and ..).trans rfl) fun _ => by simp only [encode]; simp

theorem EncodesItsRow.csrrs (rd : Reg) (csr : CsrAddr) (rs1 : Reg) : EncodesItsRow.Statement (.csrrs rd csr rs1) :=
  encodesItsRow_of_row 52 rfl ((wordI_and ..).trans rfl) fun _ => by simp only [encode]; simp

theorem EncodesItsRow.csrrc (rd : Reg) (csr : CsrAddr) (rs1 : Reg) : EncodesItsRow.Statement (.csrrc rd csr rs1) :=
  encodesItsRow_of_row 53 rfl ((wordI_and ..).trans rfl) fun _ => by simp only [encode]; simp

theorem EncodesItsRow.csrrwi (rd : Reg) (csr : CsrAddr) (uimm : BitVec 5) : EncodesItsRow.Statement (.csrrwi rd csr uimm) :=
  encodesItsRow_of_row 54 rfl ((wordI_and ..).trans rfl) fun _ => by simp only [encode]; simp

theorem EncodesItsRow.csrrsi (rd : Reg) (csr : CsrAddr) (uimm : BitVec 5) : EncodesItsRow.Statement (.csrrsi rd csr uimm) :=
  encodesItsRow_of_row 55 rfl ((wordI_and ..).trans rfl) fun _ => by simp only [encode]; simp

theorem EncodesItsRow.csrrci (rd : Reg) (csr : CsrAddr) (uimm : BitVec 5) : EncodesItsRow.Statement (.csrrci rd csr uimm) :=
  encodesItsRow_of_row 56 rfl ((wordI_and ..).trans rfl) fun _ => by simp only [encode]; simp

theorem EncodesItsRow.mul (rd rs1 rs2 : Reg) : EncodesItsRow.Statement (.mul rd rs1 rs2) :=
  encodesItsRow_of_row 57 rfl ((wordR_and ..).trans rfl) fun _ => by simp only [encode]; simp

theorem EncodesItsRow.mulh (rd rs1 rs2 : Reg) : EncodesItsRow.Statement (.mulh rd rs1 rs2) :=
  encodesItsRow_of_row 58 rfl ((wordR_and ..).trans rfl) fun _ => by simp only [encode]; simp

theorem EncodesItsRow.mulhsu (rd rs1 rs2 : Reg) : EncodesItsRow.Statement (.mulhsu rd rs1 rs2) :=
  encodesItsRow_of_row 59 rfl ((wordR_and ..).trans rfl) fun _ => by simp only [encode]; simp

theorem EncodesItsRow.mulhu (rd rs1 rs2 : Reg) : EncodesItsRow.Statement (.mulhu rd rs1 rs2) :=
  encodesItsRow_of_row 60 rfl ((wordR_and ..).trans rfl) fun _ => by simp only [encode]; simp

theorem EncodesItsRow.div (rd rs1 rs2 : Reg) : EncodesItsRow.Statement (.div rd rs1 rs2) :=
  encodesItsRow_of_row 61 rfl ((wordR_and ..).trans rfl) fun _ => by simp only [encode]; simp

theorem EncodesItsRow.divu (rd rs1 rs2 : Reg) : EncodesItsRow.Statement (.divu rd rs1 rs2) :=
  encodesItsRow_of_row 62 rfl ((wordR_and ..).trans rfl) fun _ => by simp only [encode]; simp

theorem EncodesItsRow.rem (rd rs1 rs2 : Reg) : EncodesItsRow.Statement (.rem rd rs1 rs2) :=
  encodesItsRow_of_row 63 rfl ((wordR_and ..).trans rfl) fun _ => by simp only [encode]; simp

theorem EncodesItsRow.remu (rd rs1 rs2 : Reg) : EncodesItsRow.Statement (.remu rd rs1 rs2) :=
  encodesItsRow_of_row 64 rfl ((wordR_and ..).trans rfl) fun _ => by simp only [encode]; simp

theorem EncodesItsRow.mulw (rd rs1 rs2 : Reg) : EncodesItsRow.Statement (.mulw rd rs1 rs2) :=
  encodesItsRow_of_row 65 rfl ((wordR_and ..).trans rfl) fun _ => by simp only [encode]; simp

theorem EncodesItsRow.divw (rd rs1 rs2 : Reg) : EncodesItsRow.Statement (.divw rd rs1 rs2) :=
  encodesItsRow_of_row 66 rfl ((wordR_and ..).trans rfl) fun _ => by simp only [encode]; simp

theorem EncodesItsRow.divuw (rd rs1 rs2 : Reg) : EncodesItsRow.Statement (.divuw rd rs1 rs2) :=
  encodesItsRow_of_row 67 rfl ((wordR_and ..).trans rfl) fun _ => by simp only [encode]; simp

theorem EncodesItsRow.remw (rd rs1 rs2 : Reg) : EncodesItsRow.Statement (.remw rd rs1 rs2) :=
  encodesItsRow_of_row 68 rfl ((wordR_and ..).trans rfl) fun _ => by simp only [encode]; simp

theorem EncodesItsRow.remuw (rd rs1 rs2 : Reg) : EncodesItsRow.Statement (.remuw rd rs1 rs2) :=
  encodesItsRow_of_row 69 rfl ((wordR_and ..).trans rfl) fun _ => by simp only [encode]; simp

theorem EncodesItsRow.lrW (rd rs1 : Reg) (aq rl : Bool) : EncodesItsRow.Statement (.lrW rd rs1 aq rl) :=
  encodesItsRow_of_row 70 rfl ((wordAmo_rs2_and ..).trans rfl) fun _ => by simp only [encode]; simp

theorem EncodesItsRow.lrD (rd rs1 : Reg) (aq rl : Bool) : EncodesItsRow.Statement (.lrD rd rs1 aq rl) :=
  encodesItsRow_of_row 71 rfl ((wordAmo_rs2_and ..).trans rfl) fun _ => by simp only [encode]; simp

theorem EncodesItsRow.scW (rd rs1 rs2 : Reg) (aq rl : Bool) : EncodesItsRow.Statement (.scW rd rs1 rs2 aq rl) :=
  encodesItsRow_of_row 72 rfl ((wordAmo_and ..).trans rfl) fun _ => by simp only [encode]; simp

theorem EncodesItsRow.scD (rd rs1 rs2 : Reg) (aq rl : Bool) : EncodesItsRow.Statement (.scD rd rs1 rs2 aq rl) :=
  encodesItsRow_of_row 73 rfl ((wordAmo_and ..).trans rfl) fun _ => by simp only [encode]; simp

theorem EncodesItsRow.amoswapW (rd rs1 rs2 : Reg) (aq rl : Bool) : EncodesItsRow.Statement (.amoswapW rd rs1 rs2 aq rl) :=
  encodesItsRow_of_row 74 rfl ((wordAmo_and ..).trans rfl) fun _ => by simp only [encode]; simp

theorem EncodesItsRow.amoaddW (rd rs1 rs2 : Reg) (aq rl : Bool) : EncodesItsRow.Statement (.amoaddW rd rs1 rs2 aq rl) :=
  encodesItsRow_of_row 75 rfl ((wordAmo_and ..).trans rfl) fun _ => by simp only [encode]; simp

theorem EncodesItsRow.amoxorW (rd rs1 rs2 : Reg) (aq rl : Bool) : EncodesItsRow.Statement (.amoxorW rd rs1 rs2 aq rl) :=
  encodesItsRow_of_row 76 rfl ((wordAmo_and ..).trans rfl) fun _ => by simp only [encode]; simp

theorem EncodesItsRow.amoandW (rd rs1 rs2 : Reg) (aq rl : Bool) : EncodesItsRow.Statement (.amoandW rd rs1 rs2 aq rl) :=
  encodesItsRow_of_row 77 rfl ((wordAmo_and ..).trans rfl) fun _ => by simp only [encode]; simp

theorem EncodesItsRow.amoorW (rd rs1 rs2 : Reg) (aq rl : Bool) : EncodesItsRow.Statement (.amoorW rd rs1 rs2 aq rl) :=
  encodesItsRow_of_row 78 rfl ((wordAmo_and ..).trans rfl) fun _ => by simp only [encode]; simp

theorem EncodesItsRow.amominW (rd rs1 rs2 : Reg) (aq rl : Bool) : EncodesItsRow.Statement (.amominW rd rs1 rs2 aq rl) :=
  encodesItsRow_of_row 79 rfl ((wordAmo_and ..).trans rfl) fun _ => by simp only [encode]; simp

theorem EncodesItsRow.amomaxW (rd rs1 rs2 : Reg) (aq rl : Bool) : EncodesItsRow.Statement (.amomaxW rd rs1 rs2 aq rl) :=
  encodesItsRow_of_row 80 rfl ((wordAmo_and ..).trans rfl) fun _ => by simp only [encode]; simp

theorem EncodesItsRow.amominuW (rd rs1 rs2 : Reg) (aq rl : Bool) : EncodesItsRow.Statement (.amominuW rd rs1 rs2 aq rl) :=
  encodesItsRow_of_row 81 rfl ((wordAmo_and ..).trans rfl) fun _ => by simp only [encode]; simp

theorem EncodesItsRow.amomaxuW (rd rs1 rs2 : Reg) (aq rl : Bool) : EncodesItsRow.Statement (.amomaxuW rd rs1 rs2 aq rl) :=
  encodesItsRow_of_row 82 rfl ((wordAmo_and ..).trans rfl) fun _ => by simp only [encode]; simp

theorem EncodesItsRow.amoswapD (rd rs1 rs2 : Reg) (aq rl : Bool) : EncodesItsRow.Statement (.amoswapD rd rs1 rs2 aq rl) :=
  encodesItsRow_of_row 83 rfl ((wordAmo_and ..).trans rfl) fun _ => by simp only [encode]; simp

theorem EncodesItsRow.amoaddD (rd rs1 rs2 : Reg) (aq rl : Bool) : EncodesItsRow.Statement (.amoaddD rd rs1 rs2 aq rl) :=
  encodesItsRow_of_row 84 rfl ((wordAmo_and ..).trans rfl) fun _ => by simp only [encode]; simp

theorem EncodesItsRow.amoxorD (rd rs1 rs2 : Reg) (aq rl : Bool) : EncodesItsRow.Statement (.amoxorD rd rs1 rs2 aq rl) :=
  encodesItsRow_of_row 85 rfl ((wordAmo_and ..).trans rfl) fun _ => by simp only [encode]; simp

theorem EncodesItsRow.amoandD (rd rs1 rs2 : Reg) (aq rl : Bool) : EncodesItsRow.Statement (.amoandD rd rs1 rs2 aq rl) :=
  encodesItsRow_of_row 86 rfl ((wordAmo_and ..).trans rfl) fun _ => by simp only [encode]; simp

theorem EncodesItsRow.amoorD (rd rs1 rs2 : Reg) (aq rl : Bool) : EncodesItsRow.Statement (.amoorD rd rs1 rs2 aq rl) :=
  encodesItsRow_of_row 87 rfl ((wordAmo_and ..).trans rfl) fun _ => by simp only [encode]; simp

theorem EncodesItsRow.amominD (rd rs1 rs2 : Reg) (aq rl : Bool) : EncodesItsRow.Statement (.amominD rd rs1 rs2 aq rl) :=
  encodesItsRow_of_row 88 rfl ((wordAmo_and ..).trans rfl) fun _ => by simp only [encode]; simp

theorem EncodesItsRow.amomaxD (rd rs1 rs2 : Reg) (aq rl : Bool) : EncodesItsRow.Statement (.amomaxD rd rs1 rs2 aq rl) :=
  encodesItsRow_of_row 89 rfl ((wordAmo_and ..).trans rfl) fun _ => by simp only [encode]; simp

theorem EncodesItsRow.amominuD (rd rs1 rs2 : Reg) (aq rl : Bool) : EncodesItsRow.Statement (.amominuD rd rs1 rs2 aq rl) :=
  encodesItsRow_of_row 90 rfl ((wordAmo_and ..).trans rfl) fun _ => by simp only [encode]; simp

theorem EncodesItsRow.amomaxuD (rd rs1 rs2 : Reg) (aq rl : Bool) : EncodesItsRow.Statement (.amomaxuD rd rs1 rs2 aq rl) :=
  encodesItsRow_of_row 91 rfl ((wordAmo_and ..).trans rfl) fun _ => by simp only [encode]; simp

theorem EncodesItsRow.ecall : EncodesItsRow.Statement .ecall :=
  encodesItsRow_of_row 92 rfl rfl fun _ => rfl

theorem EncodesItsRow.ebreak : EncodesItsRow.Statement .ebreak :=
  encodesItsRow_of_row 93 rfl rfl fun _ => rfl

theorem EncodesItsRow.sret : EncodesItsRow.Statement .sret :=
  encodesItsRow_of_row 94 rfl rfl fun _ => rfl

theorem EncodesItsRow.mret : EncodesItsRow.Statement .mret :=
  encodesItsRow_of_row 95 rfl rfl fun _ => rfl

theorem EncodesItsRow.wfi : EncodesItsRow.Statement .wfi :=
  encodesItsRow_of_row 96 rfl rfl fun _ => rfl

theorem EncodesItsRow.sfenceVma (rs1 rs2 : Reg) : EncodesItsRow.Statement (.sfenceVma rs1 rs2) :=
  encodesItsRow_of_row 97 rfl ((wordR_rd_and ..).trans rfl) fun _ => by simp only [encode]; simp

end Sys2Proof.Laws
end

