-- ==== Sys2Proof/Tests/Slice0.lean ====
section
/-! SUPPORT. Tests of single operations and steps, and for every statement a concrete state and operands that meet its hypotheses.
Expected results come from 95_test_vectors.md (a theorem's name and docstring give the vector) or are worked out by hand from the
rule its docstring names. -/

namespace Sys2Proof.Tests

open Sys2Proof Sys2Proof.Machine

/-! ### Helpers -/

/-- The outcome is a next state with this property. -/
def gives (o : Result) (p : State → Bool) : Bool :=
  match o with
  | .next t => p t
  | _ => false

/-- Decoding and running one word, without the fetch. -/
def ran (w : InstrWord) (s : State) : Result :=
  match decode w with
  | .ok i => exec i s
  | .error _ => raiseIllegal w s

/-- A state with these registers and these bytes of memory, written one by one. -/
def onState (s : State) (regs : List (Reg × Word)) (bytes : List Host.Cell) : State :=
  regs.foldl (fun t e => t.setReg e.1 e.2) { s with mem := bytes.foldl (fun m c => Memory.write m c.1 c.2) s.mem }

/-! ### Well-formedness: each check refuses an ill-formed term (30_encoding.md R165, R167) -/

theorem test_wellFormed_beq_odd : (Instr.beq 1 2 0x0003#13).wellFormed = false := by decide
theorem test_wellFormed_bne_odd : (Instr.bne 1 2 0x0FFF#13).wellFormed = false := by decide
theorem test_wellFormed_blt_odd : (Instr.blt 1 2 0x1001#13).wellFormed = false := by decide
theorem test_wellFormed_bge_odd : (Instr.bge 1 2 0x0001#13).wellFormed = false := by decide
theorem test_wellFormed_bltu_odd : (Instr.bltu 1 2 0x1FFF#13).wellFormed = false := by decide
theorem test_wellFormed_bgeu_odd : (Instr.bgeu 1 2 0x0801#13).wellFormed = false := by decide
theorem test_wellFormed_jal_odd : (Instr.jal 1 0x100001#21).wellFormed = false := by decide
theorem test_wellFormed_even : (Instr.beq 1 2 0x1FFE#13).wellFormed = true ∧ (Instr.jal 1 0x1FFFFE#21).wellFormed = true := by
  decide

/-! ### Decoding: one word for every row, written out from 30_encoding.md R162 to R171 -/

theorem test_decode_integer_1 : [
    (0b10001111000110100101001010110111#32, Instr.lui 5 0x8f1a5#20),
    (0b01011100001111100010111110010111#32, Instr.auipc 31 0x5c3e2#20),
    (0b11001001011011101000100010010011#32, Instr.addi 17 29 0xc96#12),
    (0b10001010010100110010001010010011#32, Instr.slti 5 6 0x8a5#12),
    (0b01010011110010010011111110010011#32, Instr.sltiu 31 18 0x53c#12),
    (0b11001001011011101100100010010011#32, Instr.xori 17 29 0xc96#12),
    (0b10001010010100110110001010010011#32, Instr.ori 5 6 0x8a5#12),
    (0b01010011110010010111111110010011#32, Instr.andi 31 18 0x53c#12)].all (fun e => decide (decode e.1 = .ok e.2)) = true := by
        decide

theorem test_decode_integer_2 : [
    (0b00000011010111101001100010010011#32, Instr.slli 17 29 0x35#6),
    (0b00000010101100110101001010010011#32, Instr.srli 5 6 0x2b#6),
    (0b01000001011010010101111110010011#32, Instr.srai 31 18 0x16#6),
    (0b00000000101011101000100010110011#32, Instr.add 17 29 10),
    (0b01000000011100110000001010110011#32, Instr.sub 5 6 7),
    (0b00000001100110010001111110110011#32, Instr.sll 31 18 25),
    (0b00000000101011101010100010110011#32, Instr.slt 17 29 10),
    (0b00000000011100110011001010110011#32, Instr.sltu 5 6 7)].all (fun e => decide (decode e.1 = .ok e.2)) = true := by decide

theorem test_decode_integer_3 : [
    (0b00000001100110010100111110110011#32, Instr.xor 31 18 25),
    (0b00000000101011101101100010110011#32, Instr.srl 17 29 10),
    (0b01000000011100110101001010110011#32, Instr.sra 5 6 7),
    (0b00000001100110010110111110110011#32, Instr.or 31 18 25),
    (0b00000000101011101111100010110011#32, Instr.and 17 29 10),
    (0b10001010010100110000001010011011#32, Instr.addiw 5 6 0x8a5#12),
    (0b00000001011010010001111110011011#32, Instr.slliw 31 18 0x16#5),
    (0b00000001010111101101100010011011#32, Instr.srliw 17 29 0x15#5)].all (fun e => decide (decode e.1 = .ok e.2)) = true := by
        decide

theorem test_decode_integer_4 : [
    (0b01000000101100110101001010011011#32, Instr.sraiw 5 6 0xb#5),
    (0b00000001100110010000111110111011#32, Instr.addw 31 18 25),
    (0b01000000101011101000100010111011#32, Instr.subw 17 29 10),
    (0b00000000011100110001001010111011#32, Instr.sllw 5 6 7),
    (0b00000001100110010101111110111011#32, Instr.srlw 31 18 25),
    (0b01000000101011101101100010111011#32, Instr.sraw 17 29 10)].all (fun e => decide (decode e.1 = .ok e.2)) = true := by decide

theorem test_decode_load_store_1 : [
    (0b10001010010100110000001010000011#32, Instr.lb 5 6 0x8a5#12),
    (0b01010011110010010001111110000011#32, Instr.lh 31 18 0x53c#12),
    (0b11001001011011101010100010000011#32, Instr.lw 17 29 0xc96#12),
    (0b10001010010100110011001010000011#32, Instr.ld 5 6 0x8a5#12),
    (0b01010011110010010100111110000011#32, Instr.lbu 31 18 0x53c#12),
    (0b11001001011011101101100010000011#32, Instr.lhu 17 29 0xc96#12),
    (0b10001010010100110110001010000011#32, Instr.lwu 5 6 0x8a5#12),
    (0b01010011100110010000111000100011#32, Instr.sb 18 25 0x53c#12)].all (fun e => decide (decode e.1 = .ok e.2)) = true := by
        decide

theorem test_decode_load_store_2 : [
    (0b11001000101011101001101100100011#32, Instr.sh 29 10 0xc96#12),
    (0b10001010011100110010001010100011#32, Instr.sw 6 7 0x8a5#12),
    (0b01010011100110010011111000100011#32, Instr.sd 18 25 0x53c#12),
    (0b10010110001111101000100010001111#32, Instr.fence 0x9#4 0x6#4 0x3#4 29 17),
    (0b10001010010100110001001010001111#32, Instr.fenceI 0x8a5#12 6 5)].all (fun e => decide (decode e.1 = .ok e.2)) = true := by
        decide

theorem test_decode_control_1 : [
    (0b10100100011100110000111011100011#32, Instr.beq 6 7 0x1a5c#13),
    (0b01001011100110010001100111100011#32, Instr.bne 18 25 0xcb2#13),
    (0b10110000101011101100101101100011#32, Instr.blt 29 10 0x1316#13),
    (0b10100100011100110101111011100011#32, Instr.bge 6 7 0x1a5c#13),
    (0b01001011100110010110100111100011#32, Instr.bltu 18 25 0xcb2#13),
    (0b10110000101011101111101101100011#32, Instr.bgeu 29 10 0x1316#13),
    (0b11001101011000101011001011101111#32, Instr.jal 5 0x12b4d6#21),
    (0b01010011110010010000111111100111#32, Instr.jalr 31 18 0x53c#12)].all (fun e => decide (decode e.1 = .ok e.2)) = true := by
        decide

theorem test_decode_zicsr_1 : [
    (0b00110100000000110001001011110011#32, Instr.csrrw 5 0x340#12 6),
    (0b11000000001010010010111111110011#32, Instr.csrrs 31 0xc02#12 18),
    (0b00010000010111101011100011110011#32, Instr.csrrc 17 0x105#12 29),
    (0b00110100000010101101001011110011#32, Instr.csrrwi 5 0x340#12 0x15#5),
    (0b11000000001001001110111111110011#32, Instr.csrrsi 31 0xc02#12 0x9#5),
    (0b00010000010111110111100011110011#32, Instr.csrrci 17 0x105#12 0x1e#5)].all (fun e => decide (decode e.1 = .ok e.2)) = true
        := by decide

theorem test_decode_mul_div_1 : [
    (0b00000010011100110000001010110011#32, Instr.mul 5 6 7),
    (0b00000011100110010001111110110011#32, Instr.mulh 31 18 25),
    (0b00000010101011101010100010110011#32, Instr.mulhsu 17 29 10),
    (0b00000010011100110011001010110011#32, Instr.mulhu 5 6 7),
    (0b00000011100110010100111110110011#32, Instr.div 31 18 25),
    (0b00000010101011101101100010110011#32, Instr.divu 17 29 10),
    (0b00000010011100110110001010110011#32, Instr.rem 5 6 7),
    (0b00000011100110010111111110110011#32, Instr.remu 31 18 25)].all (fun e => decide (decode e.1 = .ok e.2)) = true := by decide

theorem test_decode_mul_div_2 : [
    (0b00000010101011101000100010111011#32, Instr.mulw 17 29 10),
    (0b00000010011100110100001010111011#32, Instr.divw 5 6 7),
    (0b00000011100110010101111110111011#32, Instr.divuw 31 18 25),
    (0b00000010101011101110100010111011#32, Instr.remw 17 29 10),
    (0b00000010011100110111001010111011#32, Instr.remuw 5 6 7)].all (fun e => decide (decode e.1 = .ok e.2)) = true := by decide

theorem test_decode_atomic_word_1 : [
    (0b00010010000000110010001010101111#32, Instr.lrW 5 6 false true),
    (0b00010100000010010011111110101111#32, Instr.lrD 31 18 true false),
    (0b00011010101011101010100010101111#32, Instr.scW 17 29 10 false true),
    (0b00011100011100110011001010101111#32, Instr.scD 5 6 7 true false),
    (0b00001011100110010010111110101111#32, Instr.amoswapW 31 18 25 false true),
    (0b00000100101011101010100010101111#32, Instr.amoaddW 17 29 10 true false),
    (0b00100010011100110010001010101111#32, Instr.amoxorW 5 6 7 false true),
    (0b01100101100110010010111110101111#32, Instr.amoandW 31 18 25 true false)].all (fun e => decide (decode e.1 = .ok e.2)) =
        true := by decide

theorem test_decode_atomic_word_2 : [
    (0b01000010101011101010100010101111#32, Instr.amoorW 17 29 10 false true),
    (0b10000100011100110010001010101111#32, Instr.amominW 5 6 7 true false),
    (0b10100011100110010010111110101111#32, Instr.amomaxW 31 18 25 false true),
    (0b11000100101011101010100010101111#32, Instr.amominuW 17 29 10 true false),
    (0b11100010011100110010001010101111#32, Instr.amomaxuW 5 6 7 false true)].all (fun e => decide (decode e.1 = .ok e.2)) = true
        := by decide

theorem test_decode_atomic_double_1 : [
    (0b00001010011100110011001010101111#32, Instr.amoswapD 5 6 7 false true),
    (0b00000101100110010011111110101111#32, Instr.amoaddD 31 18 25 true false),
    (0b00100010101011101011100010101111#32, Instr.amoxorD 17 29 10 false true),
    (0b01100100011100110011001010101111#32, Instr.amoandD 5 6 7 true false),
    (0b01000011100110010011111110101111#32, Instr.amoorD 31 18 25 false true),
    (0b10000100101011101011100010101111#32, Instr.amominD 17 29 10 true false),
    (0b10100010011100110011001010101111#32, Instr.amomaxD 5 6 7 false true),
    (0b11000101100110010011111110101111#32, Instr.amominuD 31 18 25 true false)].all (fun e => decide (decode e.1 = .ok e.2)) =
        true := by decide

theorem test_decode_atomic_double_2 : [
    (0b11100010101011101011100010101111#32, Instr.amomaxuD 17 29 10 false true)].all (fun e => decide (decode e.1 = .ok e.2)) =
        true := by decide

theorem test_decode_system_1 : [
    (0b00000000000000000000000001110011#32, Instr.ecall),
    (0b00000000000100000000000001110011#32, Instr.ebreak),
    (0b00010000001000000000000001110011#32, Instr.sret),
    (0b00110000001000000000000001110011#32, Instr.mret),
    (0b00010000010100000000000001110011#32, Instr.wfi),
    (0b00010010101011101000000001110011#32, Instr.sfenceVma 29 10)].all (fun e => decide (decode e.1 = .ok e.2)) = true := by decide

/-- Words the tables of R160, R168, R171 and R175 leave out: all zeros, all ones, SLLI with bit 26 set, SLLIW with bit 25 set, LR
    with
rs2 ≠ 0, LOAD with funct3 111, a compressed word, a longer encoding. -/
theorem test_decode_illegal : [0x00000000#32, 0xFFFFFFFF#32, 0x04001293#32, 0x0203129B#32, 0x101322AF#32, 0x00037283#32,
    0x00000012#32,
    0x0000001F#32].all (fun w => match decode w with | .ok _ => false | .error _ => true) = true := by decide

/-- R103, R160: bytes lie in memory lowest first. -/
theorem test_decode_bytes : decodeTableWord 32 0xFFF30293 = some (.addi 5 6 0xFFF#12) ∧ bytesOfWord 0xFFF30293#32 =
    [0x93#8, 0x02#8, 0xF3#8, 0xFF#8] := by decide

/-! ### Every instruction: vectors of 95_test_vectors.md, at most two each -/

/-- ALU-1: lui x5, 0x80000. -/
theorem test_ALU_1_lui :
    gives (ran 0x800002b7#32 (onState State.reset [] []))
      (fun t => t.reg 5 == 0xffffffff80000000#64 && t.pc == 0x80000004#64) = true := by decide

/-- ALU-2: lui x5, 0x12345. -/
theorem test_ALU_2_lui :
    gives (ran 0x123452b7#32 (onState State.reset [] []))
      (fun t => t.reg 5 == 0x12345000#64 && t.pc == 0x80000004#64) = true := by decide

/-- ALU-3: auipc x5, 0xFFFFF. -/
theorem test_ALU_3_auipc :
    gives (ran 0xfffff297#32 (onState State.reset [] []))
      (fun t => t.reg 5 == 0x7ffff000#64 && t.pc == 0x80000004#64) = true := by decide

/-- ALU-4: addi x5, x6, -1. -/
theorem test_ALU_4_addi :
    gives (ran 0xfff30293#32 (onState State.reset [(6, 0x0#64)] []))
      (fun t => t.reg 5 == 0xffffffffffffffff#64 && t.pc == 0x80000004#64) = true := by decide

/-- ALU-5: addi x5, x6, 2047. -/
theorem test_ALU_5_addi :
    gives (ran 0x7ff30293#32 (onState State.reset [(6, 0x7fffffffffffffff#64)] []))
      (fun t => t.reg 5 == 0x80000000000007fe#64 && t.pc == 0x80000004#64) = true := by decide

/-- ALU-7: slti x5, x6, -1. -/
theorem test_ALU_7_slti :
    gives (ran 0xfff32293#32 (onState State.reset [(6, 0x8000000000000000#64)] []))
      (fun t => t.reg 5 == 0x1#64 && t.pc == 0x80000004#64) = true := by decide

/-- ALU-8: slti x5, x6, 0. -/
theorem test_ALU_8_slti :
    gives (ran 0x32293#32 (onState State.reset [(6, 0x1#64)] []))
      (fun t => t.reg 5 == 0x0#64 && t.pc == 0x80000004#64) = true := by decide

/-- ALU-9: sltiu x5, x6, -1. -/
theorem test_ALU_9_sltiu :
    gives (ran 0xfff33293#32 (onState State.reset [(6, 0xfffffffffffffffe#64)] []))
      (fun t => t.reg 5 == 0x1#64 && t.pc == 0x80000004#64) = true := by decide

/-- ALU-10: sltiu x5, x6, 1. -/
theorem test_ALU_10_sltiu :
    gives (ran 0x133293#32 (onState State.reset [(6, 0x0#64)] []))
      (fun t => t.reg 5 == 0x1#64 && t.pc == 0x80000004#64) = true := by decide

/-- ALU-11: xori x5, x6, -1. -/
theorem test_ALU_11_xori :
    gives (ran 0xfff34293#32 (onState State.reset [(6, 0xff#64)] []))
      (fun t => t.reg 5 == 0xffffffffffffff00#64 && t.pc == 0x80000004#64) = true := by decide

/-- ALU-12: ori x5, x6, 0x7F0. -/
theorem test_ALU_12_ori :
    gives (ran 0x7f036293#32 (onState State.reset [(6, 0xf#64)] []))
      (fun t => t.reg 5 == 0x7ff#64 && t.pc == 0x80000004#64) = true := by decide

/-- ALU-13: andi x5, x6, -16. -/
theorem test_ALU_13_andi :
    gives (ran 0xff037293#32 (onState State.reset [(6, 0x123456789abcdeff#64)] []))
      (fun t => t.reg 5 == 0x123456789abcdef0#64 && t.pc == 0x80000004#64) = true := by decide

/-- ALU-14: slli x5, x6, 63. -/
theorem test_ALU_14_slli :
    gives (ran 0x3f31293#32 (onState State.reset [(6, 0x3#64)] []))
      (fun t => t.reg 5 == 0x8000000000000000#64 && t.pc == 0x80000004#64) = true := by decide

/-- ALU-15: srli x5, x6, 60. -/
theorem test_ALU_15_srli :
    gives (ran 0x3c35293#32 (onState State.reset [(6, 0xf000000000000000#64)] []))
      (fun t => t.reg 5 == 0xf#64 && t.pc == 0x80000004#64) = true := by decide

/-- ALU-16: srai x5, x6, 60. -/
theorem test_ALU_16_srai :
    gives (ran 0x43c35293#32 (onState State.reset [(6, 0x8000000000000000#64)] []))
      (fun t => t.reg 5 == 0xfffffffffffffff8#64 && t.pc == 0x80000004#64) = true := by decide

/-- ALU-18: add x5, x6, x7. -/
theorem test_ALU_18_add :
    gives (ran 0x7302b3#32 (onState State.reset [(6, 0x7fffffffffffffff#64), (7, 0x1#64)] []))
      (fun t => t.reg 5 == 0x8000000000000000#64 && t.pc == 0x80000004#64) = true := by decide

/-- ALU-19: sub x5, x6, x7. -/
theorem test_ALU_19_sub :
    gives (ran 0x407302b3#32 (onState State.reset [(6, 0x0#64), (7, 0x1#64)] []))
      (fun t => t.reg 5 == 0xffffffffffffffff#64 && t.pc == 0x80000004#64) = true := by decide

/-- ALU-20: sll x5, x6, x7. -/
theorem test_ALU_20_sll :
    gives (ran 0x7312b3#32 (onState State.reset [(6, 0x1#64), (7, 0x41#64)] []))
      (fun t => t.reg 5 == 0x2#64 && t.pc == 0x80000004#64) = true := by decide

/-- ALU-21: slt x5, x6, x7. -/
theorem test_ALU_21_slt :
    gives (ran 0x7322b3#32 (onState State.reset [(6, 0xffffffffffffffff#64), (7, 0x1#64)] []))
      (fun t => t.reg 5 == 0x1#64 && t.pc == 0x80000004#64) = true := by decide

/-- ALU-22: sltu x5, x6, x7. -/
theorem test_ALU_22_sltu :
    gives (ran 0x7332b3#32 (onState State.reset [(6, 0xffffffffffffffff#64), (7, 0x1#64)] []))
      (fun t => t.reg 5 == 0x0#64 && t.pc == 0x80000004#64) = true := by decide

/-- ALU-23: sltu x5, x0, x7. -/
theorem test_ALU_23_sltu :
    gives (ran 0x7032b3#32 (onState State.reset [(7, 0x5#64)] []))
      (fun t => t.reg 5 == 0x1#64 && t.pc == 0x80000004#64) = true := by decide

/-- ALU-24: xor x5, x6, x6. -/
theorem test_ALU_24_xor :
    gives (ran 0x6342b3#32 (onState State.reset [(6, 0xdead#64)] []))
      (fun t => t.reg 5 == 0x0#64 && t.pc == 0x80000004#64) = true := by decide

/-- ALU-25: srl x5, x6, x7. -/
theorem test_ALU_25_srl :
    gives (ran 0x7352b3#32 (onState State.reset [(6, 0x8000000000000000#64), (7, 0x3f#64)] []))
      (fun t => t.reg 5 == 0x1#64 && t.pc == 0x80000004#64) = true := by decide

/-- ALU-26: sra x5, x6, x7. -/
theorem test_ALU_26_sra :
    gives (ran 0x407352b3#32 (onState State.reset [(6, 0x8000000000000000#64), (7, 0x3f#64)] []))
      (fun t => t.reg 5 == 0xffffffffffffffff#64 && t.pc == 0x80000004#64) = true := by decide

/-- ALU-27: or x5, x6, x7. -/
theorem test_ALU_27_or :
    gives (ran 0x7362b3#32 (onState State.reset [(6, 0xf0#64), (7, 0xf#64)] []))
      (fun t => t.reg 5 == 0xff#64 && t.pc == 0x80000004#64) = true := by decide

/-- ALU-28: and x5, x6, x7. -/
theorem test_ALU_28_and :
    gives (ran 0x7372b3#32 (onState State.reset [(6, 0xff00#64), (7, 0xff0#64)] []))
      (fun t => t.reg 5 == 0xf00#64 && t.pc == 0x80000004#64) = true := by decide

/-- ALU-29: addiw x5, x6, 1. -/
theorem test_ALU_29_addiw :
    gives (ran 0x13029b#32 (onState State.reset [(6, 0x7fffffff#64)] []))
      (fun t => t.reg 5 == 0xffffffff80000000#64 && t.pc == 0x80000004#64) = true := by decide

/-- ALU-30: addiw x5, x6, 0 (sext.w). -/
theorem test_ALU_30_addiw :
    gives (ran 0x3029b#32 (onState State.reset [(6, 0x1234567880000000#64)] []))
      (fun t => t.reg 5 == 0xffffffff80000000#64 && t.pc == 0x80000004#64) = true := by decide

/-- ALU-31: slliw x5, x6, 31. -/
theorem test_ALU_31_slliw :
    gives (ran 0x1f3129b#32 (onState State.reset [(6, 0x1#64)] []))
      (fun t => t.reg 5 == 0xffffffff80000000#64 && t.pc == 0x80000004#64) = true := by decide

/-- ALU-33: srliw x5, x6, 4. -/
theorem test_ALU_33_srliw :
    gives (ran 0x43529b#32 (onState State.reset [(6, 0xffffffff80000000#64)] []))
      (fun t => t.reg 5 == 0x8000000#64 && t.pc == 0x80000004#64) = true := by decide

/-- ALU-34: srliw x5, x6, 0. -/
theorem test_ALU_34_srliw :
    gives (ran 0x3529b#32 (onState State.reset [(6, 0x80000000#64)] []))
      (fun t => t.reg 5 == 0xffffffff80000000#64 && t.pc == 0x80000004#64) = true := by decide

/-- ALU-35: sraiw x5, x6, 4. -/
theorem test_ALU_35_sraiw :
    gives (ran 0x4043529b#32 (onState State.reset [(6, 0x80000000#64)] []))
      (fun t => t.reg 5 == 0xfffffffff8000000#64 && t.pc == 0x80000004#64) = true := by decide

/-- ALU-36: addw x5, x6, x7. -/
theorem test_ALU_36_addw :
    gives (ran 0x7302bb#32 (onState State.reset [(6, 0x7fffffff#64), (7, 0x1#64)] []))
      (fun t => t.reg 5 == 0xffffffff80000000#64 && t.pc == 0x80000004#64) = true := by decide

/-- ALU-37: subw x5, x6, x7. -/
theorem test_ALU_37_subw :
    gives (ran 0x407302bb#32 (onState State.reset [(6, 0x0#64), (7, 0x1#64)] []))
      (fun t => t.reg 5 == 0xffffffffffffffff#64 && t.pc == 0x80000004#64) = true := by decide

/-- ALU-38: sllw x5, x6, x7. -/
theorem test_ALU_38_sllw :
    gives (ran 0x7312bb#32 (onState State.reset [(6, 0x1#64), (7, 0x3f#64)] []))
      (fun t => t.reg 5 == 0xffffffff80000000#64 && t.pc == 0x80000004#64) = true := by decide

/-- ALU-39: srlw x5, x6, x7. -/
theorem test_ALU_39_srlw :
    gives (ran 0x7352bb#32 (onState State.reset [(6, 0xffffffffffffffff#64), (7, 0x20#64)] []))
      (fun t => t.reg 5 == 0xffffffffffffffff#64 && t.pc == 0x80000004#64) = true := by decide

/-- ALU-40: sraw x5, x6, x7. -/
theorem test_ALU_40_sraw :
    gives (ran 0x407352bb#32 (onState State.reset [(6, 0x80000000#64), (7, 0x1f#64)] []))
      (fun t => t.reg 5 == 0xffffffffffffffff#64 && t.pc == 0x80000004#64) = true := by decide

/-- LS-1: lb x5, 0(x6). -/
theorem test_LS_1_lb :
    gives (ran 0x30283#32 (onState State.reset [(6, 0x80001000#64)] [(0x80001000, 0x80#8), (0x80001001, 0x1#8), (0x80001002,
        0x2#8), (0x80001003, 0x3#8), (0x80001004, 0x4#8), (0x80001005, 0x5#8), (0x80001006, 0x6#8), (0x80001007, 0x87#8)]))
      (fun t => t.reg 5 == 0xffffffffffffff80#64 && t.pc == 0x80000004#64) = true := by decide

/-- LS-12: lb x0, 0(x6). -/
theorem test_LS_12_lb :
    gives (ran 0x30003#32 (onState State.reset [(6, 0x80001000#64)] []))
      (fun t => t.pc == 0x80000004#64) = true := by decide

/-- LS-2: lh x5, 0(x6). -/
theorem test_LS_2_lh :
    gives (ran 0x31283#32 (onState State.reset [(6, 0x80001000#64)] [(0x80001000, 0x80#8), (0x80001001, 0x1#8), (0x80001002,
        0x2#8), (0x80001003, 0x3#8), (0x80001004, 0x4#8), (0x80001005, 0x5#8), (0x80001006, 0x6#8), (0x80001007, 0x87#8)]))
      (fun t => t.reg 5 == 0x180#64 && t.pc == 0x80000004#64) = true := by decide

/-- LS-9: lh x5, 7(x6) (misaligned, straddles A+8). -/
theorem test_LS_9_lh :
    gives (ran 0x731283#32 (onState State.reset [(6, 0x80001000#64)] [(0x80001000, 0x80#8), (0x80001001, 0x1#8), (0x80001002,
        0x2#8), (0x80001003, 0x3#8), (0x80001004, 0x4#8), (0x80001005, 0x5#8), (0x80001006, 0x6#8), (0x80001007, 0x87#8),
        (0x80001008, 0x11#8)]))
      (fun t => t.reg 5 == 0x1187#64 && t.pc == 0x80000004#64) = true := by decide

/-- LS-8: lw x5, 4(x6). -/
theorem test_LS_8_lw :
    gives (ran 0x432283#32 (onState State.reset [(6, 0x80001000#64)] [(0x80001000, 0x80#8), (0x80001001, 0x1#8), (0x80001002,
        0x2#8), (0x80001003, 0x3#8), (0x80001004, 0x4#8), (0x80001005, 0x5#8), (0x80001006, 0x6#8), (0x80001007, 0x87#8)]))
      (fun t => t.reg 5 == 0xffffffff87060504#64 && t.pc == 0x80000004#64) = true := by decide

/-- LS-11: lw x5, 0(x6) (last 2 bytes past RAM). -/
theorem test_LS_11_lw :
    gives (ran 0x32283#32 (onState State.reset [(6, 0x800ffffe#64)] []))
      (fun t => t.csr.mstatus == 0xa00001800#64 && t.csr.mepc == 0x80000000#64 && t.csr.mcause == 0x5#64 && t.csr.mtval ==
          0x80100000#64 && t.pc == 0x0#64) = true := by decide

/-- LS-4: ld x5, 0(x6). -/
theorem test_LS_4_ld :
    gives (ran 0x33283#32 (onState State.reset [(6, 0x80001000#64)] [(0x80001000, 0x80#8), (0x80001001, 0x1#8), (0x80001002,
        0x2#8), (0x80001003, 0x3#8), (0x80001004, 0x4#8), (0x80001005, 0x5#8), (0x80001006, 0x6#8), (0x80001007, 0x87#8)]))
      (fun t => t.reg 5 == 0x8706050403020180#64 && t.pc == 0x80000004#64) = true := by decide

/-- LS-10: ld x5, -8(x6) (EA wraps below 0). -/
theorem test_LS_10_ld :
    gives (ran 0xff833283#32 (onState State.reset [(6, 0x4#64)] []))
      (fun t => t.csr.mstatus == 0xa00001800#64 && t.csr.mepc == 0x80000000#64 && t.csr.mcause == 0x5#64 && t.csr.mtval ==
          0xfffffffffffffffc#64 && t.pc == 0x0#64) = true := by decide

/-- LS-5: lbu x5, 0(x6). -/
theorem test_LS_5_lbu :
    gives (ran 0x34283#32 (onState State.reset [(6, 0x80001000#64)] [(0x80001000, 0x80#8), (0x80001001, 0x1#8), (0x80001002,
        0x2#8), (0x80001003, 0x3#8), (0x80001004, 0x4#8), (0x80001005, 0x5#8), (0x80001006, 0x6#8), (0x80001007, 0x87#8)]))
      (fun t => t.reg 5 == 0x80#64 && t.pc == 0x80000004#64) = true := by decide

/-- LS-6: lhu x5, 0(x6). -/
theorem test_LS_6_lhu :
    gives (ran 0x35283#32 (onState State.reset [(6, 0x80001000#64)] [(0x80001000, 0x80#8), (0x80001001, 0x1#8), (0x80001002,
        0x2#8), (0x80001003, 0x3#8), (0x80001004, 0x4#8), (0x80001005, 0x5#8), (0x80001006, 0x6#8), (0x80001007, 0x87#8)]))
      (fun t => t.reg 5 == 0x180#64 && t.pc == 0x80000004#64) = true := by decide

/-- LS-7: lwu x5, 0(x6). -/
theorem test_LS_7_lwu :
    gives (ran 0x36283#32 (onState State.reset [(6, 0x80001000#64)] [(0x80001000, 0x80#8), (0x80001001, 0x1#8), (0x80001002,
        0x2#8), (0x80001003, 0x3#8), (0x80001004, 0x4#8), (0x80001005, 0x5#8), (0x80001006, 0x6#8), (0x80001007, 0x87#8)]))
      (fun t => t.reg 5 == 0x3020180#64 && t.pc == 0x80000004#64) = true := by decide

/-- LS-14: sb x7, 0(x6). -/
theorem test_LS_14_sb :
    gives (ran 0x730023#32 (onState State.reset [(6, 0x80001000#64), (7, 0x123456789abcdef0#64)] []))
      (fun t => Memory.readBytes t.mem 0x80001000 1 == [0xf0#8] && t.pc == 0x80000004#64) = true := by decide

/-- LS-15: sh x7, 1(x6) (misaligned). -/
theorem test_LS_15_sh :
    gives (ran 0x7310a3#32 (onState State.reset [(6, 0x80001000#64), (7, 0xbeef#64)] []))
      (fun t => Memory.readBytes t.mem 0x80001001 2 == [0xef#8, 0xbe#8] && t.pc == 0x80000004#64) = true := by decide

/-- LS-16: sw x7, -4(x6). -/
theorem test_LS_16_sw :
    gives (ran 0xfe732e23#32 (onState State.reset [(6, 0x80001004#64), (7, 0xffffffffcafef00d#64)] []))
      (fun t => Memory.readBytes t.mem 0x80001000 4 == [0x0d#8, 0xf0#8, 0xfe#8, 0xca#8] && t.pc == 0x80000004#64) = true := by
          decide

/-- LS-19: sw x7, 0(x6) to reserved granule. -/
theorem test_LS_19_sw :
    gives (ran 0x732223#32 (onState ({ State.reset with
        resv := some 0x80001000#56 }) [(7, 0x1#64), (6, 0x80001000#64)] []))
      (fun t => Memory.readBytes t.mem 0x80001004 1 == [0x01#8] && t.resv == none && t.pc == 0x80000004#64) = true := by decide

/-- LS-17: sd x7, 0(x6). -/
theorem test_LS_17_sd :
    gives (ran 0x733023#32 (onState State.reset [(6, 0x80001000#64), (7, 0x102030405060708#64)] []))
      (fun t => Memory.readBytes t.mem 0x80001000 8 == [0x08#8, 0x07#8, 0x06#8, 0x05#8, 0x04#8, 0x03#8, 0x02#8, 0x01#8] && t.pc
          == 0x80000004#64) = true := by decide

/-- LS-18: sd x7, 0(x6) (crosses RAM end). -/
theorem test_LS_18_sd :
    gives (ran 0x733023#32 (onState State.reset [(6, 0x800ffffc#64)] []))
      (fun t => t.csr.mstatus == 0xa00001800#64 && t.csr.mepc == 0x80000000#64 && t.csr.mcause == 0x7#64 && t.csr.mtval ==
          0x80100000#64 && t.pc == 0x0#64) = true := by decide

/-- LS-22: fence rw, rw. -/
theorem test_LS_22_fence :
    gives (ran 0x330000f#32 (onState State.reset [] []))
      (fun t => t.pc == 0x80000004#64) = true := by decide

/-- LS-23: fence.i. -/
theorem test_LS_23_fence_i :
    gives (ran 0x100f#32 (onState State.reset [] []))
      (fun t => t.pc == 0x80000004#64) = true := by decide

/-- CTL-1: beq x6, x7, +16. -/
theorem test_CTL_1_beq :
    gives (ran 0x730863#32 (onState State.reset [(6, 0x3#64), (7, 0x3#64)] []))
      (fun t => t.pc == 0x80000010#64) = true := by decide

/-- CTL-9: beq x0, x0, +6 (taken, misaligned). -/
theorem test_CTL_9_beq :
    gives (ran 0x363#32 (onState State.reset [] []))
      (fun t => t.csr.mstatus == 0xa00001800#64 && t.csr.mepc == 0x80000000#64 && t.csr.mcause == 0x0#64 && t.csr.mtval ==
          0x80000006#64 && t.pc == 0x0#64) = true := by decide

/-- CTL-3: bne x6, x7, -4. -/
theorem test_CTL_3_bne :
    gives (ran 0xfe731ee3#32 (onState ({ State.reset with
        pc := 0x80000010#64 }) [(6, 0x3#64), (7, 0x4#64)] []))
      (fun t => t.pc == 0x8000000c#64) = true := by decide

/-- CTL-10: bne x0, x0, +6 (not taken). -/
theorem test_CTL_10_bne :
    gives (ran 0x1363#32 (onState State.reset [] []))
      (fun t => t.pc == 0x80000004#64) = true := by decide

/-- CTL-4: blt x6, x7, +8. -/
theorem test_CTL_4_blt :
    gives (ran 0x734463#32 (onState State.reset [(6, 0xffffffffffffffff#64), (7, 0x0#64)] []))
      (fun t => t.pc == 0x80000008#64) = true := by decide

/-- CTL-5: bge x6, x7, +8. -/
theorem test_CTL_5_bge :
    gives (ran 0x735463#32 (onState State.reset [(6, 0xffffffffffffffff#64), (7, 0x0#64)] []))
      (fun t => t.pc == 0x80000004#64) = true := by decide

/-- CTL-6: bge x6, x7, +8. -/
theorem test_CTL_6_bge :
    gives (ran 0x735463#32 (onState State.reset [(6, 0x8000000000000000#64), (7, 0x8000000000000000#64)] []))
      (fun t => t.pc == 0x80000008#64) = true := by decide

/-- CTL-7: bltu x6, x7, +8. -/
theorem test_CTL_7_bltu :
    gives (ran 0x736463#32 (onState State.reset [(6, 0xffffffffffffffff#64), (7, 0x0#64)] []))
      (fun t => t.pc == 0x80000004#64) = true := by decide

/-- CTL-8: bgeu x6, x7, +8. -/
theorem test_CTL_8_bgeu :
    gives (ran 0x737463#32 (onState State.reset [(6, 0xffffffffffffffff#64), (7, 0x0#64)] []))
      (fun t => t.pc == 0x80000008#64) = true := by decide

/-- CTL-12: jal x1, +2048. -/
theorem test_CTL_12_jal :
    gives (ran 0x1000ef#32 (onState State.reset [] []))
      (fun t => t.reg 1 == 0x80000004#64 && t.pc == 0x80000800#64) = true := by decide

/-- CTL-14: jal x1, +2 (misaligned). -/
theorem test_CTL_14_jal :
    gives (ran 0x2000ef#32 (onState State.reset [] []))
      (fun t => t.csr.mstatus == 0xa00001800#64 && t.csr.mepc == 0x80000000#64 && t.csr.mcause == 0x0#64 && t.csr.mtval ==
          0x80000002#64 && t.pc == 0x0#64) = true := by decide

/-- CTL-16: jalr x1, 3(x6). -/
theorem test_CTL_16_jalr :
    gives (ran 0x3300e7#32 (onState State.reset [(6, 0x80000100#64)] []))
      (fun t => t.csr.mstatus == 0xa00001800#64 && t.csr.mepc == 0x80000000#64 && t.csr.mcause == 0x0#64 && t.csr.mtval ==
          0x80000102#64 && t.pc == 0x0#64) = true := by decide

/-- CTL-17: jalr x6, 0(x6) (rd = rs1). -/
theorem test_CTL_17_jalr :
    gives (ran 0x30367#32 (onState State.reset [(6, 0x80000200#64)] []))
      (fun t => t.reg 6 == 0x80000004#64 && t.pc == 0x80000200#64) = true := by decide

/-- CSR-1: csrrw x5, mscratch, x6. -/
theorem test_CSR_1_csrrw :
    gives (ran 0x340312f3#32 (onState ({ State.reset with
        csr := { CsrFile.reset with mscratch := 0x11#64 } }) [(6, 0x22#64)] []))
      (fun t => t.reg 5 == 0x11#64 && t.csr.mscratch == 0x22#64 && t.pc == 0x80000004#64) = true := by decide

/-- CSR-26: csrrw x0, sstatus, x6 from U (RRV §8). -/
theorem test_CSR_26_csrrw :
    gives (ran 0x10031073#32 (onState ({ State.reset with
        priv := .user }) [(6, 0x2#64)] []))
      (fun t => t.csr.mstatus == 0xa00000000#64 && t.csr.mepc == 0x80000000#64 && t.csr.mcause == 0x2#64 && t.csr.mtval ==
          0x10031073#64 && t.priv == .machine && t.pc == 0x0#64) = true := by decide

/-- CSR-3: csrrs x5, mstatus, x6. -/
theorem test_CSR_3_csrrs :
    gives (ran 0x300322f3#32 (onState State.reset [(6, 0x8#64)] []))
      (fun t => t.reg 5 == 0xa00000000#64 && t.csr.mstatus == 0xa00000008#64 && t.pc == 0x80000004#64) = true := by decide

/-- CSR-4: csrrs x5, mstatus, x6 (x6=0, field nonzero). -/
theorem test_CSR_4_csrrs :
    gives (ran 0x300322f3#32 (onState State.reset [(6, 0x0#64)] []))
      (fun t => t.reg 5 == 0xa00000000#64 && t.pc == 0x80000004#64) = true := by decide

/-- CSR-5: csrrc x5, mie, x6. -/
theorem test_CSR_5_csrrc :
    gives (ran 0x304332f3#32 (onState ({ State.reset with
        csr := { CsrFile.reset with mie := 0xaaa#64 } }) [(6, 0x888#64)] []))
      (fun t => t.reg 5 == 0xaaa#64 && t.csr.mie == 0x222#64 && t.pc == 0x80000004#64) = true := by decide

/-- CSR-6: csrrwi x5, mtvec, 0x1D. -/
theorem test_CSR_6_csrrwi :
    gives (ran 0x305ed2f3#32 (onState ({ State.reset with
        csr := { CsrFile.reset with mtvec := 0x0#64 } }) [] []))
      (fun t => t.reg 5 == 0x0#64 && t.csr.mtvec == 0x1d#64 && t.pc == 0x80000004#64) = true := by decide

/-- CSR-7: csrrsi x5, mip, 2. -/
theorem test_CSR_7_csrrsi :
    gives (ran 0x344162f3#32 (onState ({ State.reset with
        csr := { CsrFile.reset with mip := 0x80#64 } }) [] []))
      (fun t => t.reg 5 == 0x80#64 && t.csr.mip == 0x82#64 && t.pc == 0x80000004#64) = true := by decide

/-- CSR-12: csrrsi x5, cycle, 1. -/
theorem test_CSR_12_csrrsi :
    gives (ran 0xc000e2f3#32 (onState State.reset [] []))
      (fun t => t.csr.mstatus == 0xa00001800#64 && t.csr.mepc == 0x80000000#64 && t.csr.mcause == 0x2#64 && t.csr.mtval ==
          0xc000e2f3#64 && t.pc == 0x0#64) = true := by decide

/-- CSR-8: csrrci x5, mip, 0x1F (tries to clear bits 4:0). -/
theorem test_CSR_8_csrrci :
    gives (ran 0x344ff2f3#32 (onState ({ State.reset with
        csr := { CsrFile.reset with mip := 0x8a#64 } }) [] []))
      (fun t => t.reg 5 == 0x8a#64 && t.csr.mip == 0x88#64 && t.pc == 0x80000004#64) = true := by decide

/-- MD-1: mul x5, x6, x7. -/
theorem test_MD_1_mul :
    gives (ran 0x27302b3#32 (onState State.reset [(6, 0x7#64), (7, 0xfffffffffffffffd#64)] []))
      (fun t => t.reg 5 == 0xffffffffffffffeb#64 && t.pc == 0x80000004#64) = true := by decide

/-- MD-2: mul x5, x6, x7. -/
theorem test_MD_2_mul :
    gives (ran 0x27302b3#32 (onState State.reset [(6, 0x100000000#64), (7, 0x100000000#64)] []))
      (fun t => t.reg 5 == 0x0#64 && t.pc == 0x80000004#64) = true := by decide

/-- MD-3: mulh x5, x6, x7. -/
theorem test_MD_3_mulh :
    gives (ran 0x27312b3#32 (onState State.reset [(6, 0xffffffffffffffff#64), (7, 0xffffffffffffffff#64)] []))
      (fun t => t.reg 5 == 0x0#64 && t.pc == 0x80000004#64) = true := by decide

/-- MD-4: mulh x5, x6, x7. -/
theorem test_MD_4_mulh :
    gives (ran 0x27312b3#32 (onState State.reset [(6, 0x8000000000000000#64), (7, 0x8000000000000000#64)] []))
      (fun t => t.reg 5 == 0x4000000000000000#64 && t.pc == 0x80000004#64) = true := by decide

/-- MD-5: mulhsu x5, x6, x7. -/
theorem test_MD_5_mulhsu :
    gives (ran 0x27322b3#32 (onState State.reset [(6, 0xffffffffffffffff#64), (7, 0xffffffffffffffff#64)] []))
      (fun t => t.reg 5 == 0xffffffffffffffff#64 && t.pc == 0x80000004#64) = true := by decide

/-- MD-6: mulhu x5, x6, x7. -/
theorem test_MD_6_mulhu :
    gives (ran 0x27332b3#32 (onState State.reset [(6, 0xffffffffffffffff#64), (7, 0xffffffffffffffff#64)] []))
      (fun t => t.reg 5 == 0xfffffffffffffffe#64 && t.pc == 0x80000004#64) = true := by decide

/-- MD-8: div x5, x6, x7. -/
theorem test_MD_8_div :
    gives (ran 0x27342b3#32 (onState State.reset [(6, 0x5#64), (7, 0x0#64)] []))
      (fun t => t.reg 5 == 0xffffffffffffffff#64 && t.pc == 0x80000004#64) = true := by decide

/-- MD-9: div x5, x6, x7. -/
theorem test_MD_9_div :
    gives (ran 0x27342b3#32 (onState State.reset [(6, 0x8000000000000000#64), (7, 0xffffffffffffffff#64)] []))
      (fun t => t.reg 5 == 0x8000000000000000#64 && t.pc == 0x80000004#64) = true := by decide

/-- MD-10: divu x5, x6, x7. -/
theorem test_MD_10_divu :
    gives (ran 0x27352b3#32 (onState State.reset [(6, 0xffffffffffffffff#64), (7, 0x2#64)] []))
      (fun t => t.reg 5 == 0x7fffffffffffffff#64 && t.pc == 0x80000004#64) = true := by decide

/-- MD-11: divu x5, x6, x7. -/
theorem test_MD_11_divu :
    gives (ran 0x27352b3#32 (onState State.reset [(6, 0x5#64), (7, 0x0#64)] []))
      (fun t => t.reg 5 == 0xffffffffffffffff#64 && t.pc == 0x80000004#64) = true := by decide

/-- MD-12: rem x5, x6, x7. -/
theorem test_MD_12_rem :
    gives (ran 0x27362b3#32 (onState State.reset [(6, 0xfffffffffffffff9#64), (7, 0x2#64)] []))
      (fun t => t.reg 5 == 0xffffffffffffffff#64 && t.pc == 0x80000004#64) = true := by decide

/-- MD-13: rem x5, x6, x7. -/
theorem test_MD_13_rem :
    gives (ran 0x27362b3#32 (onState State.reset [(6, 0x5#64), (7, 0x0#64)] []))
      (fun t => t.reg 5 == 0x5#64 && t.pc == 0x80000004#64) = true := by decide

/-- MD-15: remu x5, x6, x7. -/
theorem test_MD_15_remu :
    gives (ran 0x27372b3#32 (onState State.reset [(6, 0xfffffffffffffff9#64), (7, 0x2#64)] []))
      (fun t => t.reg 5 == 0x1#64 && t.pc == 0x80000004#64) = true := by decide

/-- MD-16: remu x5, x6, x7. -/
theorem test_MD_16_remu :
    gives (ran 0x27372b3#32 (onState State.reset [(6, 0xfffffffffffffff9#64), (7, 0x0#64)] []))
      (fun t => t.reg 5 == 0xfffffffffffffff9#64 && t.pc == 0x80000004#64) = true := by decide

/-- MD-17: mulw x5, x6, x7. -/
theorem test_MD_17_mulw :
    gives (ran 0x27302bb#32 (onState State.reset [(6, 0x7fffffff#64), (7, 0x2#64)] []))
      (fun t => t.reg 5 == 0xfffffffffffffffe#64 && t.pc == 0x80000004#64) = true := by decide

/-- MD-18: mulw x5, x6, x7. -/
theorem test_MD_18_mulw :
    gives (ran 0x27302bb#32 (onState State.reset [(6, 0x100000003#64), (7, 0x100000005#64)] []))
      (fun t => t.reg 5 == 0xf#64 && t.pc == 0x80000004#64) = true := by decide

/-- MD-19: divw x5, x6, x7. -/
theorem test_MD_19_divw :
    gives (ran 0x27342bb#32 (onState State.reset [(6, 0xfffffffffffffff9#64), (7, 0x2#64)] []))
      (fun t => t.reg 5 == 0xfffffffffffffffd#64 && t.pc == 0x80000004#64) = true := by decide

/-- MD-20: divw x5, x6, x7. -/
theorem test_MD_20_divw :
    gives (ran 0x27342bb#32 (onState State.reset [(6, 0x180000000#64), (7, 0xffffffff#64)] []))
      (fun t => t.reg 5 == 0xffffffff80000000#64 && t.pc == 0x80000004#64) = true := by decide

/-- MD-22: divuw x5, x6, x7. -/
theorem test_MD_22_divuw :
    gives (ran 0x27352bb#32 (onState State.reset [(6, 0xfffffffe#64), (7, 0x2#64)] []))
      (fun t => t.reg 5 == 0x7fffffff#64 && t.pc == 0x80000004#64) = true := by decide

/-- MD-23: divuw x5, x6, x7. -/
theorem test_MD_23_divuw :
    gives (ran 0x27352bb#32 (onState State.reset [(6, 0x5#64), (7, 0x0#64)] []))
      (fun t => t.reg 5 == 0xffffffffffffffff#64 && t.pc == 0x80000004#64) = true := by decide

/-- MD-24: remw x5, x6, x7. -/
theorem test_MD_24_remw :
    gives (ran 0x27362bb#32 (onState State.reset [(6, 0xfffffffffffffff9#64), (7, 0x2#64)] []))
      (fun t => t.reg 5 == 0xffffffffffffffff#64 && t.pc == 0x80000004#64) = true := by decide

/-- MD-25: remw x5, x6, x7. -/
theorem test_MD_25_remw :
    gives (ran 0x27362bb#32 (onState State.reset [(6, 0x80000000#64), (7, 0x0#64)] []))
      (fun t => t.reg 5 == 0xffffffff80000000#64 && t.pc == 0x80000004#64) = true := by decide

/-- MD-27: remuw x5, x6, x7. -/
theorem test_MD_27_remuw :
    gives (ran 0x27372bb#32 (onState State.reset [(6, 0xfffffff9#64), (7, 0x0#64)] []))
      (fun t => t.reg 5 == 0xfffffffffffffff9#64 && t.pc == 0x80000004#64) = true := by decide

/-- MD-28: remuw x5, x6, x7. -/
theorem test_MD_28_remuw :
    gives (ran 0x27372bb#32 (onState State.reset [(6, 0xfffffff9#64), (7, 0x2#64)] []))
      (fun t => t.reg 5 == 0x1#64 && t.pc == 0x80000004#64) = true := by decide

/-- AMO-1: lr.w x5, (x6). -/
theorem test_AMO_1_lr_w :
    gives (ran 0x100322af#32 (onState State.reset [(6, 0x80001000#64)] [(0x80001000, 0x80#8), (0x80001001, 0x1#8), (0x80001002,
        0x2#8), (0x80001003, 0x3#8), (0x80001004, 0x4#8), (0x80001005, 0x5#8), (0x80001006, 0x6#8), (0x80001007, 0x87#8)]))
      (fun t => t.reg 5 == 0x3020180#64 && t.resv == some 0x80001000#56 && t.pc == 0x80000004#64) = true := by decide

/-- AMO-2: lr.d x5, (x6). -/
theorem test_AMO_2_lr_d :
    gives (ran 0x100332af#32 (onState State.reset [(6, 0x80001000#64)] [(0x80001000, 0x80#8), (0x80001001, 0x1#8), (0x80001002,
        0x2#8), (0x80001003, 0x3#8), (0x80001004, 0x4#8), (0x80001005, 0x5#8), (0x80001006, 0x6#8), (0x80001007, 0x87#8)]))
      (fun t => t.reg 5 == 0x8706050403020180#64 && t.resv == some 0x80001000#56 && t.pc == 0x80000004#64) = true := by decide

/-- AMO-3: lr.d x5, (x6) (misaligned). -/
theorem test_AMO_3_lr_d :
    gives (ran 0x100332af#32 (onState State.reset [(6, 0x80001004#64)] []))
      (fun t => t.csr.mstatus == 0xa00001800#64 && t.csr.mepc == 0x80000000#64 && t.csr.mcause == 0x5#64 && t.csr.mtval ==
          0x80001004#64 && t.pc == 0x0#64) = true := by decide

/-- AMO-5: sc.w x5, x7, (x6) (reserved). -/
theorem test_AMO_5_sc_w :
    gives (ran 0x187322af#32 (onState ({ State.reset with
        resv := some 0x80001000#56 }) [(6, 0x80001000#64), (7, 0x12345678#64)] []))
      (fun t => t.reg 5 == 0x0#64 && Memory.readBytes t.mem 0x80001000 4 == [0x78#8, 0x56#8, 0x34#8, 0x12#8] && t.resv == none &&
          t.pc == 0x80000004#64) = true := by decide

/-- AMO-7: sc.w x5, x7, (x6) (other address in granule). -/
theorem test_AMO_7_sc_w :
    gives (ran 0x187322af#32 (onState ({ State.reset with
        resv := some 0x80001000#56 }) [(6, 0x80001004#64)] []))
      (fun t => t.reg 5 == 0x1#64 && t.resv == none && t.pc == 0x80000004#64) = true := by decide

/-- AMO-9: sc.d x5, x7, (x6) (reserved). -/
theorem test_AMO_9_sc_d :
    gives (ran 0x187332af#32 (onState ({ State.reset with
        resv := some 0x80001000#56 }) [(6, 0x80001000#64), (7, 0xffffffffffffffff#64)] []))
      (fun t => t.reg 5 == 0x0#64 && Memory.readBytes t.mem 0x80001000 8 == [0xff#8, 0xff#8, 0xff#8, 0xff#8, 0xff#8, 0xff#8,
          0xff#8, 0xff#8] && t.resv == none && t.pc == 0x80000004#64) = true := by decide

/-- AMO-8: sc.d x5, x7, (x6) (misaligned). -/
theorem test_AMO_8_sc_d :
    gives (ran 0x187332af#32 (onState ({ State.reset with
        resv := some 0x80001004#56 }) [(6, 0x80001004#64)] []))
      (fun t => t.csr.mstatus == 0xa00001800#64 && t.csr.mepc == 0x80000000#64 && t.csr.mcause == 0x7#64 && t.csr.mtval ==
          0x80001004#64 && t.resv == none && t.pc == 0x0#64) = true := by decide

/-- AMO-10: amoswap.w x5, x7, (x6). -/
theorem test_AMO_10_amoswap_w :
    gives (ran 0x87322af#32 (onState State.reset [(6, 0x80001000#64), (7, 0x5#64)] [(0x80001000, 0xfe#8), (0x80001001, 0xff#8),
        (0x80001002, 0xff#8), (0x80001003, 0xff#8)]))
      (fun t => t.reg 5 == 0xfffffffffffffffe#64 && Memory.readBytes t.mem 0x80001000 4 == [0x05#8, 0x00#8, 0x00#8, 0x00#8] &&
          t.pc == 0x80000004#64) = true := by decide

/-- AMO-30: amoswap.w.aqrl x0, x7, (x6). -/
theorem test_AMO_30_amoswap_w_aqrl :
    gives (ran 0xe73202f#32 (onState ({ State.reset with
        resv := some 0x80001000#56 }) [(6, 0x80001000#64), (7, 0x7#64)] []))
      (fun t => Memory.readBytes t.mem 0x80001000 4 == [0x07#8, 0x00#8, 0x00#8, 0x00#8] && t.resv == none && t.pc ==
          0x80000004#64) = true := by decide

/-- AMO-11: amoadd.w x5, x7, (x6). -/
theorem test_AMO_11_amoadd_w :
    gives (ran 0x7322af#32 (onState State.reset [(6, 0x80001000#64), (7, 0x5#64)] [(0x80001000, 0xfe#8), (0x80001001, 0xff#8),
        (0x80001002, 0xff#8), (0x80001003, 0xff#8)]))
      (fun t => t.reg 5 == 0xfffffffffffffffe#64 && Memory.readBytes t.mem 0x80001000 4 == [0x03#8, 0x00#8, 0x00#8, 0x00#8] &&
          t.pc == 0x80000004#64) = true := by decide

/-- AMO-28: amoadd.w x5, x7, (x6) (misaligned). -/
theorem test_AMO_28_amoadd_w :
    gives (ran 0x7322af#32 (onState State.reset [(6, 0x80001002#64)] []))
      (fun t => t.csr.mstatus == 0xa00001800#64 && t.csr.mepc == 0x80000000#64 && t.csr.mcause == 0x7#64 && t.csr.mtval ==
          0x80001002#64 && t.pc == 0x0#64) = true := by decide

/-- AMO-12: amoxor.w x5, x7, (x6). -/
theorem test_AMO_12_amoxor_w :
    gives (ran 0x207322af#32 (onState State.reset [(6, 0x80001000#64), (7, 0x5#64)] [(0x80001000, 0xfe#8), (0x80001001, 0xff#8),
        (0x80001002, 0xff#8), (0x80001003, 0xff#8)]))
      (fun t => t.reg 5 == 0xfffffffffffffffe#64 && Memory.readBytes t.mem 0x80001000 1 == [0xfb#8] && t.pc == 0x80000004#64) =
          true := by decide

/-- AMO-13: amoand.w x5, x7, (x6). -/
theorem test_AMO_13_amoand_w :
    gives (ran 0x607322af#32 (onState State.reset [(6, 0x80001000#64), (7, 0x5#64)] [(0x80001000, 0xfe#8), (0x80001001, 0xff#8),
        (0x80001002, 0xff#8), (0x80001003, 0xff#8)]))
      (fun t => t.reg 5 == 0xfffffffffffffffe#64 && Memory.readBytes t.mem 0x80001000 4 == [0x04#8, 0x00#8, 0x00#8, 0x00#8] &&
          t.pc == 0x80000004#64) = true := by decide

/-- AMO-14: amoor.w x5, x7, (x6). -/
theorem test_AMO_14_amoor_w :
    gives (ran 0x407322af#32 (onState State.reset [(6, 0x80001000#64), (7, 0x5#64)] [(0x80001000, 0xfe#8), (0x80001001, 0xff#8),
        (0x80001002, 0xff#8), (0x80001003, 0xff#8)]))
      (fun t => t.reg 5 == 0xfffffffffffffffe#64 && Memory.readBytes t.mem 0x80001000 1 == [0xff#8] && t.pc == 0x80000004#64) =
          true := by decide

/-- AMO-15: amomin.w x5, x7, (x6). -/
theorem test_AMO_15_amomin_w :
    gives (ran 0x807322af#32 (onState State.reset [(6, 0x80001000#64), (7, 0x5#64)] [(0x80001000, 0xfe#8), (0x80001001, 0xff#8),
        (0x80001002, 0xff#8), (0x80001003, 0xff#8)]))
      (fun t => t.reg 5 == 0xfffffffffffffffe#64 && t.pc == 0x80000004#64) = true := by decide

/-- AMO-16: amomax.w x5, x7, (x6). -/
theorem test_AMO_16_amomax_w :
    gives (ran 0xa07322af#32 (onState State.reset [(6, 0x80001000#64), (7, 0x5#64)] [(0x80001000, 0xfe#8), (0x80001001, 0xff#8),
        (0x80001002, 0xff#8), (0x80001003, 0xff#8)]))
      (fun t => t.reg 5 == 0xfffffffffffffffe#64 && Memory.readBytes t.mem 0x80001000 4 == [0x05#8, 0x00#8, 0x00#8, 0x00#8] &&
          t.pc == 0x80000004#64) = true := by decide

/-- AMO-17: amominu.w x5, x7, (x6). -/
theorem test_AMO_17_amominu_w :
    gives (ran 0xc07322af#32 (onState State.reset [(6, 0x80001000#64), (7, 0x5#64)] [(0x80001000, 0xfe#8), (0x80001001, 0xff#8),
        (0x80001002, 0xff#8), (0x80001003, 0xff#8)]))
      (fun t => t.reg 5 == 0xfffffffffffffffe#64 && Memory.readBytes t.mem 0x80001000 4 == [0x05#8, 0x00#8, 0x00#8, 0x00#8] &&
          t.pc == 0x80000004#64) = true := by decide

/-- AMO-18: amomaxu.w x5, x7, (x6). -/
theorem test_AMO_18_amomaxu_w :
    gives (ran 0xe07322af#32 (onState State.reset [(6, 0x80001000#64), (7, 0x5#64)] [(0x80001000, 0xfe#8), (0x80001001, 0xff#8),
        (0x80001002, 0xff#8), (0x80001003, 0xff#8)]))
      (fun t => t.reg 5 == 0xfffffffffffffffe#64 && t.pc == 0x80000004#64) = true := by decide

/-- AMO-19: amoswap.d x5, x7, (x6). -/
theorem test_AMO_19_amoswap_d :
    gives (ran 0x87332af#32 (onState State.reset [(6, 0x80001000#64), (7, 0x2#64)] [(0x80001000, 0x1#8), (0x80001007, 0x80#8)]))
      (fun t => t.reg 5 == 0x8000000000000001#64 && Memory.readBytes t.mem 0x80001000 8 == [0x02#8, 0x00#8, 0x00#8, 0x00#8,
          0x00#8, 0x00#8, 0x00#8, 0x00#8] && t.pc == 0x80000004#64) = true := by decide

/-- AMO-20: amoadd.d x5, x7, (x6). -/
theorem test_AMO_20_amoadd_d :
    gives (ran 0x7332af#32 (onState State.reset [(6, 0x80001000#64), (7, 0x2#64)] [(0x80001000, 0x1#8), (0x80001007, 0x80#8)]))
      (fun t => t.reg 5 == 0x8000000000000001#64 && Memory.readBytes t.mem 0x80001000 1 == [0x03#8] && t.pc == 0x80000004#64) =
          true := by decide

/-- AMO-29: amoadd.d x5, x7, (x6) (outside RAM). -/
theorem test_AMO_29_amoadd_d :
    gives (ran 0x7332af#32 (onState State.reset [(6, 0x1000#64)] []))
      (fun t => t.csr.mstatus == 0xa00001800#64 && t.csr.mepc == 0x80000000#64 && t.csr.mcause == 0x7#64 && t.csr.mtval ==
          0x1000#64 && t.pc == 0x0#64) = true := by decide

/-- AMO-21: amoxor.d x5, x7, (x6). -/
theorem test_AMO_21_amoxor_d :
    gives (ran 0x207332af#32 (onState State.reset [(6, 0x80001000#64), (7, 0x2#64)] [(0x80001000, 0x1#8), (0x80001007, 0x80#8)]))
      (fun t => t.reg 5 == 0x8000000000000001#64 && Memory.readBytes t.mem 0x80001000 1 == [0x03#8] && t.pc == 0x80000004#64) =
          true := by decide

/-- AMO-22: amoand.d x5, x7, (x6). -/
theorem test_AMO_22_amoand_d :
    gives (ran 0x607332af#32 (onState State.reset [(6, 0x80001000#64), (7, 0x2#64)] [(0x80001000, 0x1#8), (0x80001007, 0x80#8)]))
      (fun t => t.reg 5 == 0x8000000000000001#64 && Memory.readBytes t.mem 0x80001000 8 == [0x00#8, 0x00#8, 0x00#8, 0x00#8,
          0x00#8, 0x00#8, 0x00#8, 0x00#8] && t.pc == 0x80000004#64) = true := by decide

/-- AMO-23: amoor.d x5, x7, (x6). -/
theorem test_AMO_23_amoor_d :
    gives (ran 0x407332af#32 (onState State.reset [(6, 0x80001000#64), (7, 0x2#64)] [(0x80001000, 0x1#8), (0x80001007, 0x80#8)]))
      (fun t => t.reg 5 == 0x8000000000000001#64 && Memory.readBytes t.mem 0x80001000 1 == [0x03#8] && t.pc == 0x80000004#64) =
          true := by decide

/-- AMO-24: amomin.d x5, x7, (x6). -/
theorem test_AMO_24_amomin_d :
    gives (ran 0x807332af#32 (onState State.reset [(6, 0x80001000#64), (7, 0x2#64)] [(0x80001000, 0x1#8), (0x80001007, 0x80#8)]))
      (fun t => t.reg 5 == 0x8000000000000001#64 && t.pc == 0x80000004#64) = true := by decide

/-- AMO-25: amomax.d x5, x7, (x6). -/
theorem test_AMO_25_amomax_d :
    gives (ran 0xa07332af#32 (onState State.reset [(6, 0x80001000#64), (7, 0x2#64)] [(0x80001000, 0x1#8), (0x80001007, 0x80#8)]))
      (fun t => t.reg 5 == 0x8000000000000001#64 && Memory.readBytes t.mem 0x80001000 8 == [0x02#8, 0x00#8, 0x00#8, 0x00#8,
          0x00#8, 0x00#8, 0x00#8, 0x00#8] && t.pc == 0x80000004#64) = true := by decide

/-- AMO-26: amominu.d x5, x7, (x6). -/
theorem test_AMO_26_amominu_d :
    gives (ran 0xc07332af#32 (onState State.reset [(6, 0x80001000#64), (7, 0x2#64)] [(0x80001000, 0x1#8), (0x80001007, 0x80#8)]))
      (fun t => t.reg 5 == 0x8000000000000001#64 && Memory.readBytes t.mem 0x80001000 8 == [0x02#8, 0x00#8, 0x00#8, 0x00#8,
          0x00#8, 0x00#8, 0x00#8, 0x00#8] && t.pc == 0x80000004#64) = true := by decide

/-- AMO-27: amomaxu.d x5, x7, (x6). -/
theorem test_AMO_27_amomaxu_d :
    gives (ran 0xe07332af#32 (onState State.reset [(6, 0x80001000#64), (7, 0x2#64)] [(0x80001000, 0x1#8), (0x80001007, 0x80#8)]))
      (fun t => t.reg 5 == 0x8000000000000001#64 && t.pc == 0x80000004#64) = true := by decide

/-- SYS-2: ecall in S. -/
theorem test_SYS_2_ecall :
    gives (ran 0x73#32 (onState ({ State.reset with
        priv := .supervisor }) [] []))
      (fun t => t.csr.mstatus == 0xa00000800#64 && t.csr.mepc == 0x80000000#64 && t.csr.mcause == 0x9#64 && t.csr.mtval == 0x0#64
          && t.priv == .machine && t.pc == 0x0#64) = true := by decide

/-- SYS-4: ecall in U with medeleg[8]=1. -/
theorem test_SYS_4_ecall :
    gives (ran 0x73#32 (onState ({ State.reset with
        priv := .user
        csr := { CsrFile.reset with medeleg := 0x100#64, stvec := 0x80002000#64 } }) [] []))
      (fun t => t.csr.mstatus == 0xa00000000#64 && t.csr.sepc == 0x80000000#64 && t.csr.scause == 0x8#64 && t.csr.stval == 0x0#64
          && t.priv == .supervisor && t.pc == 0x80002000#64) = true := by decide

/-- SYS-6: ebreak in M. -/
theorem test_SYS_6_ebreak :
    gives (ran 0x100073#32 (onState ({ State.reset with
        csr := { CsrFile.reset with mtvec := 0x80000101#64 } }) [] []))
      (fun t => t.csr.mstatus == 0xa00001800#64 && t.csr.mepc == 0x80000000#64 && t.csr.mcause == 0x3#64 && t.csr.mtval ==
          0x80000000#64 && t.pc == 0x80000100#64) = true := by decide

/-- SYS-12: sret in M to S. -/
theorem test_SYS_12_sret :
    gives (ran 0x10200073#32 (onState ({ State.reset with
        csr := { CsrFile.reset with mstatus := 0xa00001902#64, sepc := 0x80000400#64 } }) [] []))
      (fun t => t.csr.mstatus == 0xa00001820#64 && t.priv == .supervisor && t.pc == 0x80000400#64) = true := by decide

/-- SYS-13: sret in U. -/
theorem test_SYS_13_sret :
    gives (ran 0x10200073#32 (onState ({ State.reset with
        priv := .user }) [] []))
      (fun t => t.csr.mstatus == 0xa00000000#64 && t.csr.mepc == 0x80000000#64 && t.csr.mcause == 0x2#64 && t.csr.mtval ==
          0x10200073#64 && t.priv == .machine && t.pc == 0x0#64) = true := by decide

/-- SYS-8: mret to S. -/
theorem test_SYS_8_mret :
    gives (ran 0x30200073#32 (onState ({ State.reset with
        csr := { CsrFile.reset with mstatus := 0xa00000808#64, mepc := 0x80000200#64 } }) [] []))
      (fun t => t.csr.mstatus == 0xa00000080#64 && t.priv == .supervisor && t.pc == 0x80000200#64) = true := by decide

/-- SYS-10: mret in S. -/
theorem test_SYS_10_mret :
    gives (ran 0x30200073#32 (onState ({ State.reset with
        priv := .supervisor }) [] []))
      (fun t => t.csr.mstatus == 0xa00000800#64 && t.csr.mepc == 0x80000000#64 && t.csr.mcause == 0x2#64 && t.csr.mtval ==
          0x30200073#64 && t.priv == .machine && t.pc == 0x0#64) = true := by decide

/-- SYS-14: wfi in S. -/
theorem test_SYS_14_wfi :
    gives (ran 0x10500073#32 (onState ({ State.reset with
        priv := .supervisor }) [] []))
      (fun t => t.pc == 0x80000004#64) = true := by decide

/-- SYS-15: wfi in U. -/
theorem test_SYS_15_wfi :
    gives (ran 0x10500073#32 (onState ({ State.reset with
        priv := .user }) [] []))
      (fun t => t.csr.mstatus == 0xa00000000#64 && t.csr.mepc == 0x80000000#64 && t.csr.mcause == 0x2#64 && t.csr.mtval ==
          0x10500073#64 && t.priv == .machine && t.pc == 0x0#64) = true := by decide

/-- SYS-17: sfence.vma x6, x7 in M. -/
theorem test_SYS_17_sfence_vma :
    gives (ran 0x12730073#32 (onState State.reset [] []))
      (fun t => t.pc == 0x80000004#64) = true := by decide

/-- SYS-18: sfence.vma in U. -/
theorem test_SYS_18_sfence_vma :
    gives (ran 0x12000073#32 (onState ({ State.reset with
        priv := .user }) [] []))
      (fun t => t.csr.mstatus == 0xa00000000#64 && t.csr.mepc == 0x80000000#64 && t.csr.mcause == 0x2#64 && t.csr.mtval ==
          0x12000073#64 && t.priv == .machine && t.pc == 0x0#64) = true := by decide

/-! ### Translation and traps: steps of 95_test_vectors.md -/

/-- The page tables T and the data of the V-SV39 vectors. -/
def tableBytes : List Host.Cell :=
  [(0x80001000, 0x80#8), (0x80001001, 0x01#8), (0x80001002, 0x02#8), (0x80001003, 0x03#8), (0x80004000, 0x01#8)] ++
  [(0x80004001, 0x14#8), (0x80004003, 0x20#8), (0x80004010, 0xcf#8), (0x80004013, 0x20#8), (0x80005000, 0x01#8)] ++
  [(0x80005001, 0x18#8), (0x80005003, 0x20#8), (0x80005008, 0xcf#8), (0x80005009, 0x04#8), (0x8000500b, 0x20#8)] ++
  [(0x80006008, 0xd7#8), (0x80006009, 0x20#8), (0x8000600b, 0x20#8), (0x80006010, 0xc3#8), (0x80006011, 0x24#8)] ++
  [(0x80006013, 0x20#8), (0x80006018, 0xd9#8), (0x80006019, 0x28#8), (0x8000601b, 0x20#8), (0x80006020, 0xc3#8)] ++
  [(0x80006021, 0x2c#8), (0x80006023, 0x20#8), (0x80006026, 0x40#8), (0x80006028, 0xc5#8), (0x80006029, 0x30#8)] ++
  [(0x8000602b, 0x20#8), (0x80006038, 0xdb#8), (0x8000603b, 0x20#8), (0x80008000, 0x11#8), (0x80008001, 0x22#8)] ++
  [(0x80008002, 0x33#8), (0x80008003, 0x44#8), (0x80008ffc, 0xa0#8), (0x80008ffd, 0xa1#8), (0x80008ffe, 0xa2#8)] ++
  [(0x80008fff, 0xa3#8), (0x80009000, 0xb0#8), (0x80009001, 0xb1#8), (0x80009002, 0xb2#8), (0x80009003, 0xb3#8)] ++
  [(0x8000a000, 0xc0#8), (0x8000a001, 0xc1#8), (0x8000a002, 0xc2#8), (0x8000a003, 0xc3#8)]

/-- SV39-4: lw x5, 0(x6) in S (U page, SUM=1). -/
theorem test_SV39_4_lw :
    gives (step (onState ({ State.reset with
        priv := .supervisor
        csr := { CsrFile.reset with satp := 0x8000000000080004#64, mstatus := 0xa00040000#64 } }) [(6, 0x1000#64)] (tableBytes ++
            [(0x80000000, 0x83#8), (0x80000001, 0x22#8), (0x80000002, 0x3#8)])))
      (fun t => t.reg 5 == 0x44332211#64 && t.pc == 0x80000004#64) = true := by decide

/-- SV39-7: lw x5, 0(x6) in U (X-only U page, MXR=1). -/
theorem test_SV39_7_lw :
    gives (step (onState ({ State.reset with
        pc := 0x7000#64
        priv := .user
        csr := { CsrFile.reset with satp := 0x8000000000080004#64, mstatus := 0xa00080000#64 } }) [(6, 0x3000#64)] (tableBytes ++
            [(0x80000000, 0x83#8), (0x80000001, 0x22#8), (0x80000002, 0x3#8)])))
      (fun t => t.reg 5 == 0xffffffffc3c2c1c0#64 && t.pc == 0x7004#64) = true := by decide

/-- SV39-10: lw x5, 0(x6) in S (misaligned 2 MiB superpage). -/
theorem test_SV39_10_lw :
    gives (step (onState ({ State.reset with
        priv := .supervisor
        csr := { CsrFile.reset with satp := 0x8000000000080004#64 } }) [(6, 0x200000#64)] (tableBytes ++ [(0x80000000, 0x83#8),
            (0x80000001, 0x22#8), (0x80000002, 0x3#8)])))
      (fun t => t.csr.mstatus == 0xa00000800#64 && t.csr.mepc == 0x80000000#64 && t.csr.mcause == 0xd#64 && t.csr.mtval ==
          0x200000#64 && t.priv == .machine && t.pc == 0x0#64) = true := by decide

/-- SV39-15: lw x5, 0(x6) in S (non-canonical). -/
theorem test_SV39_15_lw :
    gives (step (onState ({ State.reset with
        priv := .supervisor
        csr := { CsrFile.reset with satp := 0x8000000000080004#64 } }) [(6, 0x4000000000#64)] (tableBytes ++ [(0x80000000,
            0x83#8), (0x80000001, 0x22#8), (0x80000002, 0x3#8)])))
      (fun t => t.csr.mstatus == 0xa00000800#64 && t.csr.mepc == 0x80000000#64 && t.csr.mcause == 0xd#64 && t.csr.mtval ==
          0x4000000000#64 && t.priv == .machine && t.pc == 0x0#64) = true := by decide

/-- SV39-17: lw x5, -2(x6) in S, SUM=1 (crosses 0x1FFF/0x2000). -/
theorem test_SV39_17_lw :
    gives (step (onState ({ State.reset with
        priv := .supervisor
        csr := { CsrFile.reset with satp := 0x8000000000080004#64, mstatus := 0xa00040000#64 } }) [(6, 0x2000#64)] (tableBytes ++
            [(0x80000000, 0x83#8), (0x80000001, 0x22#8), (0x80000002, 0xe3#8), (0x80000003, 0xff#8)])))
      (fun t => t.reg 5 == 0xffffffffb1b0a3a2#64 && t.pc == 0x80000004#64) = true := by decide

/-- SV39-18: lw x5, -2(x6) in U (second page has no U). -/
theorem test_SV39_18_lw :
    gives (step (onState ({ State.reset with
        pc := 0x7000#64
        priv := .user
        csr := { CsrFile.reset with satp := 0x8000000000080004#64 } }) [(6, 0x2000#64)] (tableBytes ++ [(0x80000000, 0x83#8),
            (0x80000001, 0x22#8), (0x80000002, 0xe3#8), (0x80000003, 0xff#8)])))
      (fun t => t.csr.mstatus == 0xa00000000#64 && t.csr.mepc == 0x7000#64 && t.csr.mcause == 0xd#64 && t.csr.mtval == 0x2000#64
          && t.priv == .machine && t.pc == 0x0#64) = true := by decide

/-- SV39-21: fetch in S with the root table outside RAM (the lw is never reached). -/
theorem test_SV39_21_fetch :
    gives (step (onState ({ State.reset with
        priv := .supervisor
        csr := { CsrFile.reset with satp := 0x8000000000000001#64 } }) [] (tableBytes ++ [(0x80000000, 0x83#8), (0x80000001,
            0x22#8), (0x80000002, 0x3#8)])))
      (fun t => t.csr.mstatus == 0xa00000800#64 && t.csr.mepc == 0x80000000#64 && t.csr.mcause == 0x1#64 && t.csr.mtval ==
          0x80000000#64 && t.priv == .machine && t.pc == 0x0#64) = true := by decide

/-- TRAP-2: nop; same, mstatus.MIE=0. -/
theorem test_TRAP_2_nop :
    gives (step (onState ({ State.reset with
        csr := { CsrFile.reset with mip := 0x80#64, mie := 0x80#64 } }) [] [(0x80000000, 0x13#8)]))
      (fun t => t.pc == 0x80000004#64) = true := by decide

/-- TRAP-3: nop; same, priv=U, MIE=0. -/
theorem test_TRAP_3_nop :
    gives (step (onState ({ State.reset with
        priv := .user
        csr := { CsrFile.reset with mip := 0x80#64, mie := 0x80#64, mtvec := 0x80000100#64 } }) [] [(0x80000000, 0x13#8)]))
      (fun t => t.csr.mstatus == 0xa00000000#64 && t.csr.mepc == 0x80000000#64 && t.csr.mcause == 0x8000000000000007#64 &&
          t.csr.mtval == 0x0#64 && t.priv == .machine && t.pc == 0x80000100#64) = true := by decide

/-- TRAP-5: nop; MEIP, MSIP and MTIP pending. -/
theorem test_TRAP_5_nop :
    gives (step (onState ({ State.reset with
        csr := { CsrFile.reset with mip := 0x888#64, mie := 0x888#64, mtvec := 0x80000101#64, mstatus := 0xa00000008#64 } }) []
            [(0x80000000, 0x13#8)]))
      (fun t => t.csr.mstatus == 0xa00001880#64 && t.csr.mepc == 0x80000000#64 && t.csr.mcause == 0x800000000000000b#64 &&
          t.csr.mtval == 0x0#64 && t.pc == 0x8000012c#64) = true := by decide

/-- TRAP-7: nop; SEIP (delegated) and MSIP pending, priv=U. -/
theorem test_TRAP_7_nop :
    gives (step (onState ({ State.reset with
        priv := .user
        csr := { CsrFile.reset with mip := 0x208#64, mie := 0x208#64, mideleg := 0x200#64, stvec := 0x80002000#64, mtvec :=
            0x80000100#64 } }) [] [(0x80000000, 0x13#8)]))
      (fun t => t.csr.mstatus == 0xa00000000#64 && t.csr.sepc == 0x80000000#64 && t.csr.scause == 0x8000000000000009#64 &&
          t.csr.stval == 0x0#64 && t.priv == .supervisor && t.pc == 0x80002000#64) = true := by decide

/-- TRAP-10: nop; SSIP delegated, priv=U, SIE=0. -/
theorem test_TRAP_10_nop :
    gives (step (onState ({ State.reset with
        priv := .user
        csr := { CsrFile.reset with mip := 0x2#64, mie := 0x2#64, mideleg := 0x2#64, stvec := 0x80002001#64 } }) [] [(0x80000000,
            0x13#8)]))
      (fun t => t.csr.mstatus == 0xa00000000#64 && t.csr.sepc == 0x80000000#64 && t.csr.scause == 0x8000000000000001#64 &&
          t.csr.stval == 0x0#64 && t.priv == .supervisor && t.pc == 0x80002004#64) = true := by decide

/-- TRAP-14: lw x5, 0(x6); fault delegated to S from U. -/
theorem test_TRAP_14_lw :
    gives (step (onState ({ State.reset with
        priv := .user
        csr := { CsrFile.reset with medeleg := 0x20#64, stvec := 0x80002001#64, mstatus := 0xa00000002#64 } }) [(6, 0x10#64)]
            [(0x80000000, 0x83#8), (0x80000001, 0x22#8), (0x80000002, 0x3#8)]))
      (fun t => t.csr.sepc == 0x80000000#64 && t.csr.scause == 0x5#64 && t.csr.stval == 0x10#64 && t.csr.mstatus ==
          0xa00000020#64 && t.priv == .supervisor && t.pc == 0x80002000#64) = true := by decide

/-- TRAP-15: lw x5, 0(x6); fault in S, delegated. -/
theorem test_TRAP_15_lw :
    gives (step (onState ({ State.reset with
        priv := .supervisor
        csr := { CsrFile.reset with medeleg := 0x20#64, stvec := 0x80002000#64, mstatus := 0xa00000002#64 } }) [(6, 0x10#64)]
            [(0x80000000, 0x83#8), (0x80000001, 0x22#8), (0x80000002, 0x3#8)]))
      (fun t => t.csr.sepc == 0x80000000#64 && t.csr.scause == 0x5#64 && t.csr.stval == 0x10#64 && t.csr.mstatus ==
          0xa00000120#64 && t.pc == 0x80002000#64) = true := by decide

/-- TRAP-18: instruction fetch outside RAM. -/
theorem test_TRAP_18_instruction :
    gives (step (onState ({ State.reset with
        pc := 0x1000#64
        csr := { CsrFile.reset with mtvec := 0x80000100#64 } }) [] []))
      (fun t => t.csr.mstatus == 0xa00001800#64 && t.csr.mepc == 0x1000#64 && t.csr.mcause == 0x1#64 && t.csr.mtval == 0x1000#64
          && t.pc == 0x80000100#64) = true := by decide

/-! ### Witnesses: for each statement of Certificates/Slice0/Obligations.lean with hypotheses, a state and operands that meet them all
(per clause, at a boundary of its range) -/

/-- A platform with one device window and one extra read-only CSR. -/
def plat : Platform :=
  { ramBase := 0x80000000, ramSize := 0x100000, windows := [⟨0x10000000, 0x100⟩], extraRoCsrs := [(0xF12#12, 0x25#64)] }

/-- M-mode at the start of RAM, no translation. -/
def bare (regs : List (Reg × Word)) (bytes : List Host.Cell) : State := onState (State.resetOn plat 0x80000000#64 []) regs bytes

/-- The same in another mode, with the tables T and a given mstatus. -/
def paged (p : Priv) (mstatus : Word) (regs : List (Reg × Word)) (bytes : List Host.Cell) : State :=
  onState { State.resetOn plat 0x80000000#64 [] with
    priv := p
    csr := { CsrFile.reset with satp := 0x8000000000080004#64, mstatus := mstatus } } regs (tableBytes ++ bytes)

/-- The state with its CSRs changed. -/
def onCsr (f : CsrFile → CsrFile) (s : State) : State := { s with csr := f s.csr }

/-- Consecutive physical addresses. -/
def from_ (a : Word) (k : Nat) : Word := a + BitVec.ofNat 64 k

theorem witness_DecodeOfEncode : [Instr.beq 31 31 0x1FFE#13, .beq 0 0 0x1000#13, .jal 31 0x1FFFFE#21, .jal 0 0x100000#21,
    .lui 31 0xFFFFF#20].all Instr.wellFormed = true := by decide

theorem witness_EncodeOfDecode : decode 0xFE731EE3#32 = .ok (.bne 6 7 0x1FFC#13) := by decide

theorem witness_AbsentEncodings : (0x00000012#32).extractLsb' 0 2 ≠ 0b11#2 ∧ (0x0000001F#32).extractLsb' 2 3 = 0b111#3 ∧
    (0x0000000B#32).extractLsb' 0 7 = 0b0001011#7 ∧ (0xFFFFFFD3#32).extractLsb' 0 7 = 0b1010011#7 := by decide

/-- On the last word of RAM, and through the tables. -/
theorem witness_StepRunsDecodedInstruction :
    (let s : State := { bare [] [(0x800FFFFC, 0x93#8), (0x800FFFFD, 0x02#8), (0x800FFFFE, 0xF3#8), (0x800FFFFF, 0xFF#8)] with
        pc := 0x800FFFFC#64 }
     selectInterrupt s = none ∧ s.pc.toNat % 4 = 0 ∧ translate s .fetch s.pc = .ok 0x800FFFFC#64 ∧
     s.platform.ramBase ≤ 0x800FFFFC ∧ 0x800FFFFC + 4 ≤ s.platform.ramBase + s.platform.ramSize ∧
     (∀ k, k < 4 → Memory.read s.mem (0x800FFFFC + k) = (0xFFF30293#32).extractLsb' (8 * k) 8) ∧
     decode 0xFFF30293#32 = .ok (.addi 5 6 0xFFF#12)) ∧
    (let s : State := { paged .user 0#64 [] [(0x80000000, 0x13#8)] with pc := 0x7000#64 }
     selectInterrupt s = none ∧ s.pc.toNat % 4 = 0 ∧ translate s .fetch s.pc = .ok 0x80000000#64 ∧
     (∀ k, k < 4 → Memory.read s.mem (0x80000000 + k) = (0x00000013#32).extractLsb' (8 * k) 8) ∧
     decode 0x00000013#32 = .ok (.addi 0 0 0)) := by decide

theorem witness_FetchAndDecodeExceptions_misaligned :
    let s : State := { bare [] [] with pc := 0x80000002#64 }
    selectInterrupt s = none ∧ s.pc.toNat % 4 ≠ 0 := by decide
theorem witness_FetchAndDecodeExceptions_untranslated :
    let s : State := { paged .user 0#64 [] [] with pc := 0x1000#64 }
    selectInterrupt s = none ∧ s.pc.toNat % 4 = 0 ∧ translate s .fetch s.pc = .error ⟨.instrPageFault, 0x1000#64⟩ := by decide
theorem witness_FetchAndDecodeExceptions_outside :
    let s : State := { bare [] [] with pc := 0x80100000#64 }
    selectInterrupt s = none ∧ s.pc.toNat % 4 = 0 ∧ translate s .fetch s.pc = .ok 0x80100000#64 ∧
      ¬ (s.platform.ramBase ≤ 0x80100000 ∧ 0x80100000 + 4 ≤ s.platform.ramBase + s.platform.ramSize) := by decide
theorem witness_FetchAndDecodeExceptions_illegal :
    let s := bare [] []
    selectInterrupt s = none ∧ s.pc.toNat % 4 = 0 ∧ translate s .fetch s.pc = .ok 0x80000000#64 ∧
      s.platform.ramBase ≤ 0x80000000 ∧ 0x80000000 + 4 ≤ s.platform.ramBase + s.platform.ramSize ∧
      (∀ k, k < 4 → Memory.read s.mem (0x80000000 + k) = (0#32).extractLsb' (8 * k) 8) ∧ decode 0#32 = .error .compressed := by
  decide

/-- Two interrupts can be taken, and the one of lower rank number is the machine external one; with MIE clear in M-mode, none can. -/
theorem witness_InterruptSelection :
    (let s : State := { bare [] [] with csr := { CsrFile.reset with mip := 0x880#64, mie := 0x880#64, mstatus := 0xA00000008#64 } }
     [Irq.machineExternal, .machineTimer].all (deliverable s) = true ∧
     [Irq.supervisorExternal, .machineSoftware, .supervisorSoftware, .supervisorTimer].any (deliverable s) = false) ∧
    (let s : State := { bare [] [] with csr := { CsrFile.reset with mip := 0xAAA#64, mie := 0xAAA#64 } }
     irqPriority.any (deliverable s) = false) := by decide

/-- The last bytes of RAM, and a word that crosses from one page to another that does not follow it in RAM. -/
theorem witness_LoadsFromRam :
    (∀ n ∈ [1, 2, 4, 8], BytesAt (bare [(6, 0x80100000#64 - BitVec.ofNat 64 n)] []) .load (0x80100000#64 - BitVec.ofNat 64 n) n
        (from_ (0x80100000#64 - BitVec.ofNat 64 n)) ∧
      AllInRam (bare [] []) n (from_ (0x80100000#64 - BitVec.ofNat 64 n))) ∧
    (let s := paged .supervisor 0x40000#64 [(6, 0x1FFE#64)] []
     let pa := fun k => if k < 2 then 0x80008FFE#64 + BitVec.ofNat 64 k else 0x80009000#64 + BitVec.ofNat 64 (k - 2)
     BytesAt s .load 0x1FFE#64 4 pa ∧ AllInRam s 4 pa) := by
  unfold BytesAt AllInRam; decide

/-- Each width at the window's first byte, and at the last byte, misaligned, for the widths that have such a place. -/
theorem witness_LoadsFromDevices :
    (∀ n ∈ [1, 2, 4, 8], BytesAt (bare [] []) .load 0x10000000#64 n (from_ 0x10000000#64) ∧
      AllInWindow (bare [] []) ⟨0x10000000, 0x100⟩ n (from_ 0x10000000#64) ∧ (0x10000000#64).toNat % n = 0) ∧
    (∀ n ∈ [2, 4, 8], BytesAt (bare [] []) .load (0x100000FF#64 - BitVec.ofNat 64 n) n (from_ (0x100000FF#64 - BitVec.ofNat 64 n)) ∧
      AllInWindow (bare [] []) ⟨0x10000000, 0x100⟩ n (from_ (0x100000FF#64 - BitVec.ofNat 64 n)) ∧
      (0x100000FF#64 - BitVec.ofNat 64 n).toNat % n ≠ 0) := by
  unfold BytesAt AllInWindow; decide

theorem witness_StoresToRam :
    (∀ n ∈ [1, 2, 4, 8], BytesAt (bare [] []) .store (0x80100000#64 - BitVec.ofNat 64 n) n (from_ (0x80100000#64 - BitVec.ofNat 64 n)) ∧
      AllInRam (bare [] []) n (from_ (0x80100000#64 - BitVec.ofNat 64 n))) ∧ Memory.wf (bare [] []).mem = true ∧
    (let s : State := { bare [] [] with resv := some 0x800FFFF8#56 }
     InReservedGranule s (from_ 0x800FFFFF#64 0) ∧ ¬ InReservedGranule s (from_ 0x800FFFF7#64 0)) := by
  refine ⟨by unfold BytesAt AllInRam; decide, by decide, ⟨_, rfl, by decide⟩, ?_⟩
  rintro ⟨a, ha, he⟩
  cases ha
  exact absurd he (by decide)

theorem witness_StoresToDevices :
    (∀ n ∈ [1, 2, 4, 8], BytesAt (bare [] []) .store 0x10000000#64 n (from_ 0x10000000#64) ∧
      AllInWindow (bare [] []) ⟨0x10000000, 0x100⟩ n (from_ 0x10000000#64) ∧ (0x10000000#64).toNat % n = 0) ∧
    (∀ n ∈ [2, 4, 8], BytesAt (bare [] []) .store (0x100000FF#64 - BitVec.ofNat 64 n) n (from_ (0x100000FF#64 - BitVec.ofNat 64 n)) ∧
      AllInWindow (bare [] []) ⟨0x10000000, 0x100⟩ n (from_ (0x100000FF#64 - BitVec.ofNat 64 n)) ∧
      (0x100000FF#64 - BitVec.ofNat 64 n).toNat % n ≠ 0) ∧
    reservationLegal { bare [] [] with resv := some 0x800FFFFC#56 } = true := by
  unfold BytesAt AllInWindow; decide

/-- The first byte in no region; the first byte not translated; the last byte of eight past the end of RAM; the second page of a word
not readable (95_test_vectors.md SV39-18). -/
theorem witness_FirstFailingByteTraps :
    FailsAtByte (bare [] []) .load 0x1000#64 0 ⟨.loadAccessFault, 0x1000#64⟩ ∧
    FailsAtByte (paged .user 0#64 [] []) .store 0x2000#64 0 ⟨.storePageFault, 0x2000#64⟩ ∧
    FailsAtByte (bare [] []) .store 0x800FFFF9#64 7 ⟨.storeAccessFault, 0x80100000#64⟩ ∧
    FailsAtByte (paged .user 0#64 [] []) .load 0x1FFE#64 2 ⟨.loadPageFault, 0x2000#64⟩ := by
  refine ⟨⟨from_ 0, .ram, ?_, by decide, by decide, .inr ⟨0x1000#64, by decide, by decide, by decide⟩⟩,
    ⟨from_ 0, .ram, ?_, by decide, by decide, .inl (by decide)⟩,
    ⟨from_ 0x800FFFF9#64, .ram, ?_, by decide, by decide, .inr ⟨0x80100000#64, by decide, by decide, by decide⟩⟩,
    ⟨from_ 0x80008FFE#64, .ram, ?_, by decide, by decide, .inl (by decide)⟩⟩
  all_goals unfold BytesAt; decide

/-- For each branch: operands that take it to an aligned and to a misaligned target, and operands that do not. -/
theorem witness_ConditionalBranches :
    let s := bare [(6, 0xFFFFFFFFFFFFFFFF#64), (7, 0#64)] []
    let a := s.reg 6
    let b := s.reg 7
    (BitVec.ofInt 64 (s.pc.toInt + (0x1000#13).toInt)).toNat % 4 = 0 ∧
      (BitVec.ofInt 64 (s.pc.toInt + (0x0FFE#13).toInt)).toNat % 4 ≠ 0 ∧
      a = a ∧ ¬ a = b ∧ a ≠ b ∧ ¬ a ≠ a ∧ a.toInt < b.toInt ∧ ¬ b.toInt < a.toInt ∧ b.toInt ≥ a.toInt ∧ ¬ a.toInt ≥ b.toInt ∧
      b.toNat < a.toNat ∧ ¬ a.toNat < b.toNat ∧ a.toNat ≥ b.toNat ∧ ¬ b.toNat ≥ a.toNat := by decide

theorem witness_JumpsAndLinks :
    let s := bare [(6, 0xFFFFFFFFFFFFFFFF#64)] []
    (BitVec.ofInt 64 (s.pc.toInt + (0x100000#21).toInt)).toNat % 4 = 0 ∧
      (BitVec.ofInt 64 (s.pc.toInt + (0x0FFFFE#21).toInt)).toNat % 4 ≠ 0 ∧
      (BitVec.ofInt 64 (((s.reg 6).toInt + (2 : BitVec 12).toInt) / 2 * 2)).toNat % 4 = 0 ∧
      (BitVec.ofInt 64 (((s.reg 6).toInt + (3 : BitVec 12).toInt) / 2 * 2)).toNat % 4 ≠ 0 := by decide

/-- The last word and the last doubleword of RAM. -/
theorem witness_atomics :
    (bare [] []).platform.wf = true ∧ Memory.wf (bare [] []).mem = true ∧
    (∀ K ∈ [Access.load, .store], ∀ n ∈ [4, 8], AtomicAt (bare [(6, 0x80100000#64 - BitVec.ofNat 64 n)] [(0x800FFFFF, 0x80#8)]) K
      (0x80100000#64 - BitVec.ofNat 64 n) n (0x80100000#64 - BitVec.ofNat 64 n) (0x80#64 <<< (8 * (n - 1)))) := by
  unfold AtomicAt; decide

theorem witness_StoreConditionalResults :
    (∃ a, ({ bare [] [] with resv := some 0x800FFFF8#56 } : State).resv = some a ∧ a.toNat = (0x800FFFF8#64).toNat) ∧
    ¬ (∃ a, ({ bare [] [] with resv := some 0x800FFFF8#56 } : State).resv = some a ∧ a.toNat = (0x800FFFFC#64).toNat) ∧
    ¬ (∃ a, (bare [] []).resv = some a ∧ a.toNat = (0x800FFFFC#64).toNat) := by
  refine ⟨⟨_, rfl, by decide⟩, ?_, ?_⟩
  · rintro ⟨a, ha, he⟩
    cases ha
    exact absurd he (by decide)
  · rintro ⟨a, ha, -⟩
    cases ha

/-- Misaligned, untranslated, and one word past RAM. -/
theorem witness_AtomicAddressFaults :
    (0x80001002#64).toNat % 4 ≠ 0 ∧ (0x80001004#64).toNat % 8 ≠ 0 ∧
    translate (paged .user 0#64 [] []) .load 0x2000#64 = .error ⟨.loadPageFault, 0x2000#64⟩ ∧
    translate (paged .user 0#64 [] []) .store 0x2000#64 = .error ⟨.storePageFault, 0x2000#64⟩ ∧
    translate (bare [] []) .store 0x80100000#64 = .ok 0x80100000#64 ∧
    ¬ ((bare [] []).platform.ramBase ≤ 0x80100000 ∧
      0x80100000 + 4 ≤ (bare [] []).platform.ramBase + (bare [] []).platform.ramSize) := by decide

/-- Legal: the mode just high enough, the extra CSR, a set with rs1 = 0 on a read-only CSR. Not legal: the mode one too low, a write to
a read-only CSR, an address with no CSR. -/
theorem witness_CsrAccessChecks :
    let u : State := { bare [] [] with priv := .user }
    let v : State := { bare [] [] with priv := .supervisor }
    csrReadLegal v 0x100#12 = true ∧ csrReadLegal u 0x100#12 = false ∧ csrWriteLegal (bare [] []) 0x300#12 = true ∧
      csrReadLegal v 0x300#12 = false ∧ csrReadLegal (bare [] []) 0xF12#12 = true ∧ csrWriteLegal (bare [] []) 0xF12#12 = false ∧
      csrReadLegal u 0xC02#12 = true ∧ csrReadLegal (bare [] []) 0x7C0#12 = false ∧ csrDoesWrite .readSet 0 = false ∧
      csrDoesRead .readWrite 0 = false := by decide

/-- Every row in M-mode, the nine rows of the S-level in S-mode. -/
theorem witness_CsrReadWriteForms :
    writableCsrs.all (fun c => minPrivOf c.addr ≤ Priv.machine.code.toNat) = true ∧
      (writableCsrs.filter (fun c => minPrivOf c.addr ≤ Priv.supervisor.code.toNat)).length = 9 := by decide

theorem witness_ReadOnlyCsrReads :
    (bare [] []).platform.wf = true ∧ (0xF12#12, 0x25#64) ∈ (bare [] []).platform.extraRoCsrs ∧
      minPrivOf 0xF12#12 ≤ (bare [] []).priv.code.toNat := by decide

theorem witness_MstatusWriteRule : (bare [] []).priv = .machine := by decide

/-- Not delegated in U-mode; delegated in M-mode. -/
theorem witness_TrapEntryMachine :
    ({ bare [] [] with priv := .user } : State).csr.medeleg.getLsbD 8 = false ∧
      ({ bare [] [] with csr := { CsrFile.reset with medeleg := 0xB3FF#64 } } : State).priv = .machine := by decide

theorem witness_TrapEntrySupervisor :
    let s : State := { bare [] [] with priv := .user, csr := { CsrFile.reset with medeleg := 0x8000#64, mideleg := 0x200#64 } }
    s.csr.medeleg.getLsbD 15 = true ∧ s.csr.mideleg.getLsbD 9 = true ∧ s.priv ≠ .machine := by decide

theorem witness_MretReturns :
    ({ bare [] [] with priv := .supervisor } : State).priv ≠ .machine ∧
      [0xA00000000#64, 0xA00000800#64, 0xA00001800#64].all (fun m => mppLegal { bare [] [] with csr := { CsrFile.reset with
        mstatus := m } }) = true := by decide

/-- CallsAndBreakpoints, SretReturns and WaitAndFenceVma ask only for a mode. -/
theorem witness_modes : [Priv.user, .supervisor, .machine].all (fun p => ({ bare [] [] with priv := p } : State).priv == p) = true := by
  decide

theorem witness_ReservedPrivilegeStops_state :
    (bare [] []).priv = .machine ∧ (0xA00001000#64).getLsbD 12 = true ∧ (0xA00001000#64).getLsbD 11 = false ∧
      exec .mret { bare [] [] with csr := { CsrFile.reset with mstatus := 0xA00001000#64 } } = .fault .reservedPrivilege :=
  ⟨rfl, rfl, rfl, rfl⟩

/-- A step that fetches the MRET there. -/
theorem witness_ReservedPrivilegeStops_step :
    step { bare [] [(0x80000000, 0x73#8), (0x80000002, 0x20#8), (0x80000003, 0x30#8)] with
      csr := { CsrFile.reset with mstatus := 0xA00001000#64 } } = .fault .reservedPrivilege := rfl

theorem witness_TranslationInactive : ¬ TranslationOn (bare [] []) ∧ ¬ TranslationOn (paged .machine 0#64 [] []) := by
  unfold TranslationOn; decide

/-- The first address above the low half, and the last one below the high half. -/
theorem witness_NonCanonicalAddressFaults :
    TranslationOn (paged .user 0#64 [] []) ∧ ¬ Canonical 0x0000004000000000#64 ∧ ¬ Canonical 0xFFFFFFBFFFFFFFFF#64 := by
  unfold TranslationOn Canonical; decide

/-- The root table, and the two levels below it for addresses under entry 0. -/
theorem witness_walk (va : Word) (h0 : va.toNat / 2 ^ 30 % 512 = 0) (h1 : va.toNat / 2 ^ 21 % 512 = 0) :
    let s := paged .supervisor 0x40000#64 [] []
    WalkReaches s va 2 0x80004000 ∧ WalkReaches s va 1 0x80005000 ∧ WalkReaches s va 0 0x80006000 := by
  intro s
  have a2 : pteAddress va 2 0x80004000 = 0x80004000 := by unfold pteAddress; omega
  have a1 : pteAddress va 1 0x80005000 = 0x80005000 := by unfold pteAddress; omega
  have r2 : s.csr.satp.toNat % 2 ^ 44 * 4096 = 0x80004000 := by decide
  have w2 : WalkReaches s va 2 0x80004000 := r2 ▸ .root
  have w1 := WalkReaches.down 1 0x80004000 0x20001401#64 w2 (by rw [a2]; unfold PteAt; decide)
    (by unfold PteOk; decide) (by unfold PteLeaf; decide)
  rw [show (0x20001401#64).toNat / 2 ^ 10 % 2 ^ 44 * 4096 = 0x80005000 by decide] at w1
  have w0 := WalkReaches.down 0 0x80005000 0x20001801#64 w1 (by rw [a1]; unfold PteAt; decide)
    (by unfold PteOk; decide) (by unfold PteLeaf; decide)
  rw [show (0x20001801#64).toNat / 2 ^ 10 % 2 ^ 44 * 4096 = 0x80006000 by decide] at w0
  exact ⟨w2, w1, w0⟩

/-- S-mode over the tables T, with SUM set. -/
def tabled : State := paged .supervisor 0x40000#64 [] []

/-- What the tables hold at each place a walk can end: a leaf of each size that allows the load, a leaf that does not, a misaligned
2 MiB leaf. -/
theorem witness_WalkFollowsTables_leaves :
    (PteAt tabled (pteAddress 0x1000#64 0 0x80006000) 0x200020D7#64 ∧ PteOk 0x200020D7#64 ∧ PteLeaf 0x200020D7#64 ∧
      MayAccess tabled .load 0x200020D7#64 ∧ ¬ MayAccess tabled .fetch 0x200020D7#64) ∧
    (PteAt tabled (pteAddress 0x80000000#64 2 0x80004000) 0x200000CF#64 ∧ PteOk 0x200000CF#64 ∧ PteLeaf 0x200000CF#64 ∧
      MayAccess tabled .load 0x200000CF#64 ∧ (0x200000CF#64).toNat / 2 ^ 10 % 2 ^ (9 * 2) = 0) ∧
    (PteAt tabled (pteAddress 0x200000#64 1 0x80005000) 0x200004CF#64 ∧ PteOk 0x200004CF#64 ∧ PteLeaf 0x200004CF#64 ∧
      (0x200004CF#64).toNat / 2 ^ 10 % 2 ^ (9 * 1) ≠ 0) := by
  unfold PteAt PteOk PteLeaf MayAccess
  refine ⟨?_, ?_, ?_⟩ <;> decide

/-- Translation is on, the two canonical addresses next to the gap; an entry with W and no R, an entry with bit 54 set, an entry that
is 0; and a root table outside RAM. -/
theorem witness_WalkFollowsTables_faults :
    TranslationOn tabled ∧ Canonical 0x0000003FFFFFFFFF#64 ∧ Canonical 0xFFFFFFC000000000#64 ∧
    (PteAt tabled (pteAddress 0x5000#64 0 0x80006000) 0x200030C5#64 ∧ ¬ PteOk 0x200030C5#64) ∧
    (PteAt tabled (pteAddress 0x4000#64 0 0x80006000) 0x0040000020002CC3#64 ∧ ¬ PteOk 0x0040000020002CC3#64) ∧
    (PteAt tabled (pteAddress 0x6000#64 0 0x80006000) 0#64 ∧ ¬ PteOk 0#64) ∧
    TranslationOn (onCsr (fun f => { f with satp := 0x8000000000000001#64 }) tabled) ∧
    ¬ (tabled.platform.ramBase ≤ pteAddress 0x80000000#64 2 ((0x8000000000000001#64).toNat % 2 ^ 44 * 4096)) := by
  unfold TranslationOn Canonical PteAt PteOk
  refine ⟨?_, ?_, ?_, ?_, ?_, ?_, ?_, ?_⟩ <;> decide

/-- A pointer at the last level, and a 2 MiB leaf that is aligned. -/
theorem witness_WalkFollowsTables_more :
    let s := paged .supervisor 0#64 [] [(0x80005010, 0xCF#8), (0x80005013, 0x20#8), (0x80006038, 0x01#8), (0x8000603B, 0x20#8)]
    (PteAt s (pteAddress 0x400000#64 1 0x80005000) 0x200000CF#64 ∧ PteOk 0x200000CF#64 ∧ PteLeaf 0x200000CF#64 ∧
      (0x200000CF#64).toNat / 2 ^ 10 % 2 ^ (9 * 1) = 0) ∧
    (PteAt s (pteAddress 0x7000#64 0 0x80006000) 0x20000001#64 ∧ PteOk 0x20000001#64 ∧ ¬ PteLeaf 0x20000001#64) := by
  unfold PteAt PteOk PteLeaf; decide

theorem witness_TranslationFaultKinds :
    translate (paged .user 0#64 [] []) .load 0x2000#64 = .error ⟨.loadPageFault, 0x2000#64⟩ ∧
      translate (paged .user 0#64 [] []) .load 0x1FFF#64 = .ok 0x80008FFF#64 := by decide

/-- A payload that ends at the end of RAM, and the last entry pc there is. -/
theorem witness_ResetState : ∃ s, hostReset plat 0x800FFFFC#64 0x800FFFFC [0x13#8, 0#8, 0#8, 0#8] = .ok s := ⟨_, rfl⟩

/-- The empty payload (log 19): accepted in RAM and at its end, refused one byte past it and below RAM. -/
theorem witness_ResetRefusals_empty :
    [0x80000000, 0x80100000].all (fun b => match hostReset plat 0x80000000#64 b [] with | .ok _ => true | .error _ => false) = true ∧
      [0, 0x7FFFFFFF, 0x80100001].all
        (fun b => match hostReset plat 0x80000000#64 b [] with | .ok _ => false | .error e => e == .payloadOutsideRam) = true := by
  decide

/-- The model's choice (log 26): a platform with an empty window is refused. -/
theorem test_empty_window_refused :
    hostReset { plat with windows := [⟨0x10000000, 0⟩] } 0x80000000#64 0x80000000 [] = .error .badPlatform := rfl

/-- Accepted; a payload one byte too long; an entry pc at the end of RAM; a misaligned one. -/
theorem witness_ResetRefusals :
    plat.wf = true ∧ (plat.ramBase ≤ 0x800FFFFF ∧ 0x800FFFFF + 1 ≤ plat.ramBase + plat.ramSize) ∧
      ¬ (plat.ramBase ≤ 0x800FFFFF ∧ 0x800FFFFF + 2 ≤ plat.ramBase + plat.ramSize) ∧
      ¬ (plat.ramBase ≤ 0x80100000 ∧ 0x80100000 + 4 ≤ plat.ramBase + plat.ramSize) ∧ (0x80000002#64).toNat % 4 ≠ 0 := by decide

/-- An instruction that retires and one that traps, from states that meet the invariant. -/
theorem witness_InvariantKeptByStep :
    (bare [] [(0x80000000, 0x13#8)]).inv = true ∧ gives (step (bare [] [(0x80000000, 0x13#8)])) (fun t => t.result == some .ok) = true ∧
      (paged .supervisor 0xA00000000#64 [] []).inv = true ∧
      gives (step (paged .supervisor 0xA00000000#64 [] [])) (fun t => t.result == some (.trapped 2 false 0#64)) = true := by decide

theorem witness_ReachableStatesNeverStop : Reachable State.reset :=
  .reset Config.testPlatform 0x80000000#64 0x80000000 [] _ (by decide)

/-- InstretCountsRetirements, TrappedStepsWriteNothing, UserStepsKeepCsrs and SupervisorStepsKeepMachineState ask for a step that
retires or traps in a mode. -/
theorem witness_steps : [Priv.user, .supervisor, .machine].all (fun p =>
    gives (step { bare [] [(0x80000000, 0x13#8)] with priv := p }) (fun t => t.result == some .ok && t.priv == p) &&
      gives (step { bare [] [(0x80000000, 0x73#8)] with priv := p }) (fun t => t.result != some .ok && t.priv == .machine)) = true := by
  decide

/-- ModeChanges: a trap, MRET and SRET each change the mode. -/
theorem witness_ModeChanges :
    gives (step { bare [] [(0x80000000, 0x73#8)] with priv := .user }) (fun t => t.priv == .machine) = true ∧
      gives (exec .mret (bare [] [])) (fun t => t.priv == .user) = true ∧
      gives (exec .sret (bare [] [])) (fun t => t.priv == .user) = true := by decide

/-- ReservationChanges: LR arms, SC drops, a trap drops, an ADDI leaves. -/
theorem witness_ReservationChanges :
    let s : State := { bare [(6, 0x80001000#64)] [] with resv := some 0x80002000#56 }
    gives (exec (.lrD 5 6 false false) s) (fun t => t.resv == some 0x80001000#56) = true ∧
      gives (exec (.scD 5 6 7 false false) s) (fun t => t.resv == none) = true ∧
      gives (exec .ecall s) (fun t => t.resv == none && t.result != some .ok) = true ∧
      gives (exec (.addi 5 6 0) s) (fun t => t.resv == s.resv && t.result == some .ok) = true := by decide

theorem witness_MemoryReadsLastWrite : Memory.wf (bare [] [(0, 1#8), (0x800FFFFF, 0xFF#8)]).mem = true := by decide

/-- A mode below every M-level CSR, and the extra CSR; an address that is not implemented (log 27). -/
theorem witness_HostInterfaceEffects :
    let u : State := { bare [] [] with priv := .user }
    u.platform.wf = true ∧ (0xF12#12, 0x25#64) ∈ u.platform.extraRoCsrs ∧ writableCsrs.length = 19 ∧
      writableCsrs.all (fun c => (hostReadCsr u c.addr).isSome) = true ∧ hostReadCsr u 0x7C0#12 = none := by decide

theorem witness_LoadImmediateExpansion : (31 : Reg) ≠ 0 := by decide

end Sys2Proof.Tests
end

section
/-! PROOFS. The statements of 10_state.md: the hart step, the invariant and the runs, what a step counts and which mode it leaves, the
reads and writes of the csr_file, the register_file and the host interface. -/

namespace Sys2Proof.Machine

/-! ### The invariant under the ways a step ends (10_state.md R34, R47 to R58; 45_atomics.md R360) -/

/-- R440 to R445: a trap keeps the invariant. -/
theorem takeTrap_keeps_inv (c : Cause) (tval : Word) {s : State} (h : s.inv = true) : (takeTrap c tval s.pc s).inv = true := by
  obtain ⟨hplat, hmem, hram, hpc, hcsr, -⟩ := (inv_iff_parts s).1 h
  obtain ⟨hcsr', hpc'⟩ := takeTrap_legal c tval s hcsr hpc
  refine (inv_iff_parts _).2 ⟨?_, ?_, memoryInRam_congr (takeTrap_platform ..) (takeTrap_mem ..) hram, hpc', hcsr', ?_⟩
  · rwa [takeTrap_platform]
  · rwa [takeTrap_mem]
  · rw [reservationLegal, takeTrap_resv]

/-- What a retiring instruction owes the invariant: instret, which the invariant does not constrain, is all that retire adds. -/
theorem inv_retire {npc : Word} {s1 : State} (hplat : s1.platform.wf = true) (hmem : Memory.wf s1.mem = true)
    (hram : memoryInRam s1 = true) (hnpc : npc.toNat % 4 = 0) (hcsr : CsrFile.Legal s1.csr) (hresv : reservationLegal s1 = true) :
    (retire npc s1).inv = true :=
  (inv_iff_parts _).2 ⟨hplat, hmem, hram, hnpc, hcsr, hresv⟩

/-- R360 (b), (d): a reservation that LR arms is on an aligned address in RAM, whose 56 bits hold it. -/
theorem reservationLegal_of_armed {s : State} {pa : Word} (hp : s.platform.wf = true) (hr : s.resv = some (pa.setWidth 56))
    (ha : pa.toNat % 4 = 0) (hin : inRam s.platform pa.toNat 4 = true) : reservationLegal s = true := by
  obtain ⟨-, -, -, hend, -⟩ := (Platform.wf_iff _).1 hp
  have hlow : (pa.setWidth 56).toNat = pa.toNat := by
    rw [inRam_iff] at hin
    rw [BitVec.toNat_setWidth]
    omega
  simp only [reservationLegal, hr, hlow, ha, hin, BEq.rfl, Bool.and_self]

/-- R90 (5): every commit keeps the invariant. -/
theorem commit_keeps_inv {i : Instr} {s s1 : State} {npc : Word} (hc : Commit i s npc s1) (h : s.inv = true) :
    (retire npc s1).inv = true := by
  obtain ⟨hplat, hmem, hram, hpc, hcsr, hresv⟩ := (inv_iff_parts s).1 h
  have hpc4 : (s.pc + 4).toNat % 4 = 0 := add_four_aligned hpc
  induction hc with
  | plain i s npc s1 _ hcs hm hr hp hn =>
    refine inv_retire (hp ▸ hplat) (hm ▸ hmem) (memoryInRam_congr hp hm hram) ?_ (hcs ▸ hcsr) (reservationLegal_congr hp (.inl hr) hresv)
    rcases hn with rfl | hn
    · exact hpc4
    · exact hn
  | memory i s s1 _ hcs hp hg hr =>
    refine inv_retire (hp ▸ hplat) (hg.1 hmem) ?_ hpc4 (hcs ▸ hcsr) (reservationLegal_congr hp hr hresv)
    rw [memoryInRam, List.all_eq_true, hp]
    exact hg.2 hram
  | reserve i s s1 pa _ hcs hp hm hr ha hin =>
    exact inv_retire (hp ▸ hplat) (hm ▸ hmem) (memoryInRam_congr hp hm hram) hpc4 (hcs ▸ hcsr)
      (reservationLegal_of_armed (hp ▸ hplat) hr ha (hp ▸ hin))
  | csrWrite i s s1 a c v _ _ _ hcs hp hm hr =>
    exact inv_retire (hp ▸ hplat) (hm ▸ hmem) (memoryInRam_congr hp hm hram) hpc4 (hcs ▸ csrStore_legal _ c v hcsr)
      (reservationLegal_congr hp (.inl hr) hresv)
  | mret s p =>
    have ⟨hmepc, _⟩ := hcsr
    exact inv_retire hplat hmem hram hmepc (mstatusMret_legal _ hcsr) hresv
  | sret s =>
    have ⟨_, hsepc, _⟩ := hcsr
    exact inv_retire hplat hmem hram hsepc (mstatusSret_legal _ hcsr) hresv

/-- Settles O47: a step takes a trap or commits an instruction, and both keep the invariant. -/
theorem invariantKeptByStep : Obligations.InvariantKeptByStep := by
  intro s t h hstep
  rcases step_next hstep with ⟨c, tval, rfl⟩ | ⟨i, npc, s1, rfl, -, hc⟩
  · exact takeTrap_keeps_inv c tval h
  · exact commit_keeps_inv hc h

/-! ### Runs (10_state.md R79; 70_reset_and_hazards.md R480 to R483) -/

/-- R483: what a reset that succeeds has checked, and the state it makes. -/
theorem hostReset_ok {p : Platform} {entryPc : Word} {base : Nat} {payload : List Byte} {s : State}
    (h : hostReset p entryPc base payload = .ok s) :
    p.wf = true ∧ inRam p base payload.length = true ∧ entryPc.toNat % 4 = 0 ∧
      s = State.resetOn p entryPc (Memory.writeBytes [] base payload) := by
  unfold hostReset at h
  split at h
  · cases h
  next hwf =>
    split at h
    · cases h
    next hin =>
      split at h
      · cases h
      next hentry =>
        push Not at hentry
        cases h
        exact ⟨by simpa using hwf, by simpa using hin, (low2_eq_zero _).1 hentry.1, rfl⟩

/-- R480: the CSR storage after reset is legal; each of its registers is a constant. -/
theorem reset_csr_legal : CsrFile.Legal CsrFile.reset := by
  have hzero : ∀ m : Word, ∀ j, m.getLsbD j = false → (0 : Word).getLsbD j = false := fun _ _ _ => BitVec.getLsbD_zero
  exact ⟨rfl, rfl, rfl, rfl, by decide, fun _ _ => rfl, hzero _, hzero _, hzero _, hzero _, .inl rfl⟩

/-- R480, R481: a payload that lies in RAM is loaded into a memory that lies in RAM. -/
theorem payload_inRam {p : Platform} {base : Nat} {payload : List Byte} (h : inRam p base payload.length = true) :
    ∀ c ∈ Memory.writeBytes [] base payload, inRam p c.1 1 = true := by
  intro c hc
  rw [inRam_iff] at h ⊢
  rcases mem_writeBytes hc with hnil | hrange
  · cases hnil
  · omega

/-- R480 to R483: a reset that succeeds starts in the invariant. -/
theorem hostReset_inv {p : Platform} {entryPc : Word} {base : Nat} {payload : List Byte} {s : State}
    (h : hostReset p entryPc base payload = .ok s) : s.inv = true := by
  obtain ⟨hwf, hin, hentry, rfl⟩ := hostReset_ok h
  exact (inv_iff_parts _).2 ⟨hwf, Memory.writeBytes_wf rfl base payload, List.all_eq_true.2 (payload_inRam hin), hentry,
    reset_csr_legal, rfl⟩

/-- The position of a posted bit lies in the register and among the bits mip may hold (10_state.md R49). -/
theorem HostIrq.bit_legal (i : HostIrq) : i.bit < 64 ∧ mieMask.getLsbD i.bit = true := by
  cases i <;> decide

/-- R79 (d), R49: a posted bit is one that mip may hold. -/
theorem hostPostInterrupt_keeps_inv (i : HostIrq) (level : Bool) {s : State} (h : s.inv = true) :
    (hostPostInterrupt i level s).inv = true := by
  obtain ⟨hplat, hmem, hram, hpc, ⟨a, b, c, d, e, f, g, hmip, rest⟩, hresv⟩ := (inv_iff_parts s).1 h
  refine (inv_iff_parts _).2 ⟨hplat, hmem, hram, hpc, ⟨a, b, c, d, e, f, g, fun j hj => ?_, rest⟩, hresv⟩
  have hne : j ≠ i.bit := by
    rintro rfl
    rw [i.bit_legal.2] at hj
    cases hj
  rw [hostPostInterrupt, setBit_getLsbD _ _ _ _ i.bit_legal.1, if_neg hne]
  exact hmip j hj

theorem reachable_inv {s : State} (h : Reachable s) : s.inv = true := by
  induction h with
  | reset p entryPc base payload s h => exact hostReset_inv h
  | step s t _ hstep ih => exact invariantKeptByStep s t ih hstep
  | post s i level _ ih => exact hostPostInterrupt_keeps_inv i level ih

/-- D43: where MPP names a mode, as R47 asks, a step has a next state. -/
theorem step_of_inv {s : State} (h : s.inv = true) : ∃ t, step s = .next t := by
  obtain ⟨-, -, -, -, ⟨-, -, -, -, hmpp, -⟩, -⟩ := (inv_iff_parts s).1 h
  rcases step_answers s with ⟨c, tval, he⟩ | ⟨i, npc, s1, he, -⟩ | ⟨-, hnone, -⟩
  · exact ⟨_, he⟩
  · exact ⟨_, he⟩
  · exact absurd hnone (privOfMpp_ne_none hmpp)

/-- Settles O48: every reachable state meets the invariant, and a state that meets it has a next state. -/
theorem reachableStatesNeverStop : Obligations.ReachableStatesNeverStop :=
  fun _ h => ⟨reachable_inv h, step_of_inv (reachable_inv h)⟩

/-! ### Fetch, decode, execute (10_state.md R81, R90) -/

/-- R90 (2): an exception of the fetch is taken. -/
theorem step_of_fetch_error {s : State} {e : Exc} (hi : selectInterrupt s = none) (h : fetchAddr s = .error e) :
    Traps (step s) s e.cause e.tval := by
  rw [step_of_no_interrupt hi, fetchDecodeExecute, fetch, h]; rfl

/-- R90 (3): a word that is Illegal raises illegal-instruction with the word. -/
theorem step_of_illegal {s : State} {w : InstrWord} {e : Illegal} (hi : selectInterrupt s = none) (hf : fetch s = .ok w)
    (hd : decode w = .error e) : Traps (step s) s .illegalInstr (w.setWidth 64) := by
  rw [step_of_no_interrupt hi, fetchDecodeExecute, hf]
  simp only [hd]
  rfl

/-- R90 (4), (5): a decoded instruction is executed. -/
theorem step_of_decoded {s : State} {w : InstrWord} {i : Instr} (hi : selectInterrupt s = none) (hf : fetch s = .ok w)
    (hd : decode w = .ok i) : step s = exec i s := by
  rw [step_of_no_interrupt hi, fetchDecodeExecute, hf]
  simp only [hd]

/-- Settles O6: the four bytes are fetched as their word, and the step executes what it decodes to. -/
theorem stepRunsDecodedInstruction : Obligations.StepRunsDecodedInstruction :=
  fun _ _ _ _ hi ha ht h1 h2 hb hd => step_of_decoded hi (fetch_ok ha ht h1 h2 hb) hd

/-- Settles O7: each way the fetch or the decoder can raise, in the order of R81 and R90. -/
theorem fetchAndDecodeExceptions : Obligations.FetchAndDecodeExceptions := by
  intro s hi
  refine ⟨fun ha => ?misaligned, fun ha => ⟨fun e he => ?untranslated, fun pa ht =>
    ⟨fun hr => ?outside, fun h1 h2 w e hb hd => ?illegal⟩⟩⟩
  case misaligned => exact step_of_fetch_error hi (fetchAddr_misaligned ha)
  case untranslated => exact step_of_fetch_error hi (fetchAddr_untranslated ha he)
  case outside => exact step_of_fetch_error hi (fetchAddr_outside ha ht hr)
  case illegal => exact step_of_illegal hi (fetch_ok ha ht h1 h2 hb) hd

/-! ### The stop of log 10 -/

/-- R47: MPP is bits 12:11. -/
theorem getMpp_eq_two_iff (w : Word) : getMpp w = 2 ↔ w.getLsbD 12 = true ∧ w.getLsbD 11 = false := by
  have h11 : w.getLsbD 11 = (getMpp w).getLsbD 0 := by simp [getMpp]
  have h12 : w.getLsbD 12 = (getMpp w).getLsbD 1 := by simp [getMpp]
  rw [h11, h12]
  generalize getMpp w = x
  revert x
  decide

/-- R36, R47: MPP names no mode exactly when its bits 12:11 are 2. -/
theorem privOfMpp_eq_none_iff (w : Word) :
    privOfMpp (getMpp w) = none ↔ w.getLsbD 12 = true ∧ w.getLsbD 11 = false := by
  rw [← getMpp_eq_two_iff]
  generalize getMpp w = x
  revert x
  decide

theorem exec_fault {i : Instr} {s : State} {r : Fault} (h : exec i s = .fault r) :
    i = .mret ∧ s.priv = .machine ∧ privOfMpp (getMpp s.csr.mstatus) = none := by
  rcases exec_answers i s with ⟨e, he⟩ | ⟨npc, s1, he, -⟩ | ⟨hi, hp, hn, -⟩
  · rw [h] at he; cases he
  · rw [h] at he; cases he
  · exact ⟨hi, hp, hn⟩

theorem exec_ne_refused (i : Instr) (s : State) (r : Refusal) : exec i s ≠ .refused r := by
  intro h
  rcases exec_answers i s with ⟨e, he⟩ | ⟨npc, s1, he, -⟩ | ⟨-, -, -, he⟩ <;> (rw [h] at he; cases he)

/-- R90: a step that does not go on has fetched and decoded an instruction, and stops as that instruction does. -/
theorem step_next_or_exec (s : State) :
    (∃ t, step s = .next t) ∨ ∃ w i, fetch s = .ok w ∧ decode w = .ok i ∧ step s = exec i s := by
  cases hi : selectInterrupt s with
  | some irq => exact .inl ⟨_, by rw [step, hartStep, hi]⟩
  | none =>
    cases hf : fetch s with
    | error e => exact .inl ⟨_, by rw [step_of_no_interrupt hi, fetchDecodeExecute, hf]; rfl⟩
    | ok w =>
      cases hd : decode w with
      | error e => exact .inl ⟨_, step_of_illegal hi hf hd⟩
      | ok i => exact .inr ⟨w, i, rfl, hd, step_of_decoded hi hf hd⟩

/-- Settles O38: of everything an instruction can answer, only an MRET that finds no mode in MPP stops. -/
theorem reservedPrivilegeStops : Obligations.ReservedPrivilegeStops := by
  intro s
  refine ⟨?mretStops, fun i r h => ?onlyMret, fun r h => ?stepStops, fun i r => exec_ne_refused i s r, fun r h => ?stepRefuses⟩
  case mretStops =>
    rintro ⟨hp, hmpp⟩
    show execMret s = _
    rw [execMret, if_pos hp, xretM, (privOfMpp_eq_none_iff _).2 hmpp]
  case onlyMret =>
    obtain ⟨hi, hp, hn⟩ := exec_fault h
    exact ⟨hi, hp, (privOfMpp_eq_none_iff _).1 hn⟩
  case stepStops =>
    rcases step_next_or_exec s with ⟨t, ht⟩ | ⟨w, i, hf, hd, hx⟩
    · rw [h] at ht; cases ht
    · rw [h] at hx
      obtain ⟨rfl, hp, hn⟩ := exec_fault hx.symm
      exact ⟨⟨hp, (privOfMpp_eq_none_iff _).1 hn⟩, hx.symm, w, hf, hd⟩
  case stepRefuses =>
    rcases step_next_or_exec s with ⟨t, ht⟩ | ⟨w, i, -, -, hx⟩
    · rw [h] at ht; cases ht
    · exact exec_ne_refused i s r (hx.symm.trans h)

/-! ### What a step counts, and the mode it leaves (10_state.md R36, R61, R91) -/

/-- R61: before retire counts it, no instruction changes instret. -/
theorem commit_instret {i : Instr} {s s1 : State} {npc : Word} (hc : Commit i s npc s1) : s1.csr.instret = s.csr.instret := by
  induction hc with
  | plain i s npc s1 _ hcs => rw [hcs]
  | memory i s s1 _ hcs => rw [hcs]
  | reserve i s s1 pa _ hcs => rw [hcs]
  | csrWrite i s s1 a c v _ _ _ hcs => rw [hcs, csrStore_instret]
  | mret => rfl
  | sret => rfl

theorem commit_platform {i : Instr} {s s1 : State} {npc : Word} (hc : Commit i s npc s1) : s1.platform = s.platform := by
  induction hc with
  | plain i s npc s1 _ _ _ _ hp => exact hp
  | memory i s s1 _ _ hp => exact hp
  | reserve i s s1 pa _ _ hp => exact hp
  | csrWrite i s s1 a c v _ _ _ _ hp => exact hp
  | mret => rfl
  | sret => rfl

/-- R36: of the instructions that retire, only MRET and SRET may change the mode. -/
theorem commit_priv {i : Instr} {s s1 : State} {npc : Word} (hc : Commit i s npc s1) :
    s1.priv = s.priv ∨ i = .mret ∨ i = .sret := by
  induction hc with
  | plain i s npc s1 hp => exact .inl hp
  | memory i s s1 hp => exact .inl hp
  | reserve i s s1 pa hp => exact .inl hp
  | csrWrite i s s1 a c v _ _ hp => exact .inl hp
  | mret => exact .inr (.inl rfl)
  | sret => exact .inr (.inr rfl)

/-- R440: a trap enters S or M. -/
theorem takeTrap_priv_ne_user (c : Cause) (tval epc : Word) (s : State) : (takeTrap c tval epc s).priv ≠ .user := by
  unfold takeTrap
  split
  · rw [enterS_priv]; decide
  · rw [enterM_priv]; decide

/-- Settles O49: a trap leaves instret, and a commit leaves it to retire, which adds 1. -/
theorem instretCountsRetirements : Obligations.InstretCountsRetirements := by
  intro s t h
  rcases step_next h with ⟨c, tval, rfl⟩ | ⟨i, npc, s1, rfl, -, hc⟩
  · exact .inr ⟨_, _, _, takeTrap_result .., takeTrap_instret ..⟩
  · exact .inl ⟨retire_result .., by rw [retire_csr, commit_instret hc]⟩

/-- Settles O51: a trap enters S or M, and of the commits only MRET and SRET change the mode. -/
theorem modeChanges : Obligations.ModeChanges := by
  intro s t h
  rcases step_next h with ⟨c, tval, rfl⟩ | ⟨i, npc, s1, rfl, hx, hc⟩
  · exact ⟨takeTrap_platform .., .inr (.inl ⟨⟨_, _, _, takeTrap_result ..⟩, takeTrap_priv_ne_user c tval s.pc s⟩)⟩
  · refine ⟨(retire_platform ..).trans (commit_platform hc), ?_⟩
    rcases commit_priv hc with hp | rfl | rfl
    · exact .inl hp
    · exact .inr (.inr (.inl hx))
    · exact .inr (.inr (.inr hx))

/-! ### Reads of CSRs (10_state.md R42, R59 to R62, R309) -/

theorem csrRead_listed {a : CsrAddr} {c : Csr} (h : csrAt a = some c) (s : State) : csrRead s a = csrValue s c := by
  rw [csrRead, h]

theorem afterCsrRead_listed {a : CsrAddr} {c : Csr} (h : csrAt a = some c) (s : State) :
    afterCsrRead s a = { s with draws := s.draws + csrDraws c } := by
  rw [afterCsrRead, h]

theorem csrImplemented_listed {a : CsrAddr} {c : Csr} (h : csrAt a = some c) (s : State) : csrImplemented s a = true :=
  (csrImplemented_iff s a).2 (.inl (by rw [h]; rfl))

/-- R62: on well-formed parameters an extra CSR is implemented and reads as its constant, with nothing drawn. -/
theorem csrRead_extra {s : State} (hp : s.platform.wf = true) {a : CsrAddr} {c : Word} (hm : (a, c) ∈ s.platform.extraRoCsrs) :
    csrImplemented s a = true ∧ csrRead s a = c ∧ afterCsrRead s a = s := by
  obtain ⟨hnone, hextra, hpriv⟩ := extraCsr_of_mem hp hm
  refine ⟨(csrImplemented_iff s a).2 (.inr ⟨⟨c, hm⟩, hpriv⟩), ?_, ?_⟩
  · rw [csrRead, hnone, hextra]; rfl
  · rw [afterCsrRead, hnone]

/-- R42: a read changes at most the draw counter. -/
theorem afterCsrRead_eq (s : State) (a : CsrAddr) : afterCsrRead s a = { s with draws := (afterCsrRead s a).draws } := by
  cases h : csrAt a with
  | none => rw [afterCsrRead, h]
  | some c => rw [afterCsrRead_listed h]

/-- R300, R307: set and clear with a zero source field read the CSR and write only x[rd]. -/
theorem csrOp_read {k : CsrKind} (hk : k ≠ .readWrite) {s : State} {a : CsrAddr} (h : csrReadLegal s a = true) (rd : Reg) (src : Word)
    (w : InstrWord) : csrOp k rd a 0 src w s = .next (retire (s.pc + 4) ((afterCsrRead s a).setReg rd (csrRead s a))) := by
  have hr : csrDoesRead k rd = true := by simp [csrDoesRead, hk]
  have hw : csrDoesWrite k 0 = false := by simp [csrDoesWrite, hk]
  have hl : csrLegal k rd a 0 s = true := (csrLegal_iff ..).2 ⟨fun _ => h, fun h' => by rw [hw] at h'; cases h'⟩
  rw [csrOp_legal hl, csrCommit, csrOld]
  simp only [hr, hw, if_true, Bool.false_eq_true, if_false]

/-- The four forms that read and do not write (R302, R303, R305, R306 with a zero field). -/
def readForms (rd : Reg) (a : CsrAddr) : List Instr := [.csrrs rd a 0, .csrrc rd a 0, .csrrsi rd a 0, .csrrci rd a 0]

section
variable {s : State} {rd : Reg} {a : CsrAddr} {i : Instr} (hi : i ∈ readForms rd a) (h : csrReadLegal s a = true)
include hi h

theorem exec_readForm :
    exec i s = .next (retire (s.pc + 4) ((afterCsrRead s a).setReg rd (csrRead s a))) := by
  simp only [readForms, List.mem_cons, List.not_mem_nil, or_false] at hi
  rcases hi with rfl | rfl | rfl | rfl <;> exact csrOp_read (by decide) h ..

/-- A read that draws nothing writes x[rd] and the pc, as any register result does. -/
theorem exec_readForm_completes (hd : afterCsrRead s a = s) : CompletesReg (exec i s) s rd (csrRead s a) (s.pc + 4) := by
  rw [exec_readForm hi h, hd]
  exact writeBack_completes rd _ s

/-- R309: a read of cycle or time writes x[rd] with a draw, and uses the draw up. -/
theorem exec_readForm_draws {c : Csr} (hc : csrAt a = some c) (hd : csrDraws c = 1) :
    ∃ t, exec i s = .next t ∧ Retired s t (s.pc + 4) ∧ KeepsMem s t ∧ t.resv = s.resv ∧ t.platform = s.platform ∧
      t.events = s.events ∧ t.draws = s.draws + 1 ∧ WritesReg s t rd (csrValue s c) := by
  refine ⟨_, exec_readForm hi h, retired_retire (by simp) (by simp) _, fun _ => by simp, by simp, by simp, by simp, ?_, ?_⟩
  · simp [afterCsrRead_listed hc, hd]
  · rw [csrRead_listed hc]
    exact writesReg_retire_setReg (afterCsrRead_regs ..) _ _ _

end

/-- R41: an address of minimum privilege 0 may be read in every mode. -/
theorem csrReadLegal_listed {a : CsrAddr} {c : Csr} (hc : csrAt a = some c) (hp : minPrivOf a = 0) (s : State) :
    csrReadLegal s a = true :=
  (csrReadLegal_iff s a).2 ⟨csrImplemented_listed hc s, by omega⟩

/-- Settles O31: instret and an extra CSR draw nothing, cycle and time draw once. -/
theorem readOnlyCsrReads : Obligations.ReadOnlyCsrReads := by
  intro s rd a i hi
  refine ⟨?instret, fun c hwf hm hp => ?extra, ?counters⟩
  case instret =>
    rintro rfl
    exact exec_readForm_completes hi (csrReadLegal_listed (c := .instret) rfl rfl s) rfl
  case extra =>
    obtain ⟨himpl, hread, hafter⟩ := csrRead_extra hwf hm
    exact hread ▸ exec_readForm_completes hi ((csrReadLegal_iff s a).2 ⟨himpl, hp⟩) hafter
  case counters =>
    rintro (rfl | rfl)
    · exact exec_readForm_draws hi (csrReadLegal_listed (c := .cycle) rfl rfl s) rfl rfl
    · exact exec_readForm_draws hi (csrReadLegal_listed (c := .time) rfl rfl s) rfl rfl

/-! ### The write of mstatus (10_state.md R47; 43_zicsr.md R301) -/

/-- R41, R43: every CSR address that is not read-only may be written in M-mode. -/
theorem csrLegal_machine {s : State} (hp : s.priv = .machine) {a : CsrAddr} (hi : csrImplemented s a = true)
    (hro : a.toNat / 2 ^ 10 ≠ 3) (k : CsrKind) (rd : Reg) (f : BitVec 5) : csrLegal k rd a f s = true := by
  have hr : csrReadLegal s a = true :=
    (csrReadLegal_iff s a).2 ⟨hi, by rw [hp]; exact Nat.le_of_lt_succ (Nat.mod_lt _ (by decide))⟩
  exact (csrLegal_iff ..).2 ⟨fun _ => hr, fun _ => (csrWriteLegal_iff s a).2 ⟨hr, hro⟩⟩

/-- R300: read-write with rd = 0 skips the read, and so reads for nothing what x0 discards. -/
theorem writesReg_csrOld {s t : State} {k : CsrKind} {rd : Reg} {a : CsrAddr} (h : WritesReg s t rd (csrOld k rd a s)) :
    WritesReg s t rd (csrRead s a) := by
  obtain ⟨hrd, hothers⟩ := h
  refine ⟨hrd.trans ?_, hothers⟩
  by_cases h0 : rd = 0
  · rw [if_pos h0, if_pos h0]
  · have hread : csrDoesRead k rd = true := by simpa [csrDoesRead] using .inr h0
    rw [if_neg h0, if_neg h0, csrOld, if_pos hread]

/-- R47: the positions of the writable fields of mstatus. -/
theorem mstatusMask_getLsbD (j : Nat) : mstatusMask.getLsbD j = decide (j ∈ [1, 3, 5, 7, 8, 11, 12, 18, 19]) := by
  by_cases hj : j < 64
  · have hall : ∀ k : Fin 64, mstatusMask.getLsbD k.val = decide (k.val ∈ [1, 3, 5, 7, 8, 11, 12, 18, 19]) := by decide
    exact hall ⟨j, hj⟩
  · rw [BitVec.getLsbD_of_ge _ _ (by omega), eq_comm, decide_eq_false_iff_not]
    simp only [List.mem_cons, List.not_mem_nil, or_false]
    omega

/-- R47: the write rule of mstatus, bit by bit. -/
theorem mstatusWrite_getLsbD (old v : Word) (j : Nat) :
    (mstatusWrite old v).getLsbD j =
      if (j = 11 ∨ j = 12) ∧ getMpp v = 2 then old.getLsbD j
      else if j ∈ [1, 3, 5, 7, 8, 11, 12, 18, 19] then v.getLsbD j else old.getLsbD j := by
  have hmerge := mergeMasked_getLsbD old mstatusMask v j
  simp only [mstatusMask_getLsbD, decide_eq_true_eq] at hmerge
  rw [mstatusWrite]
  by_cases h2 : getMpp v = 2
  · rw [if_pos h2, setMpp_getLsbD, hmerge]
    by_cases h11 : j = 11
    · rw [if_pos h11, if_pos ⟨.inl h11, h2⟩]
      simp [getMpp, h11]
    · by_cases h12 : j = 12
      · rw [if_neg h11, if_pos h12, if_pos ⟨.inr h12, h2⟩]
        simp [getMpp, h12]
      · rw [if_neg h11, if_neg h12, if_neg fun (h : (j = 11 ∨ j = 12) ∧ getMpp v = 2) => h.1.elim h11 h12]
  · rw [if_neg h2, hmerge, if_neg fun (h : (j = 11 ∨ j = 12) ∧ getMpp v = 2) => h2 h.2]

/-- R301: CSRRW of a listed CSR that M-mode may write commits. -/
theorem exec_csrrw_machine {s : State} (hp : s.priv = .machine) {a : CsrAddr} (hi : csrImplemented s a = true)
    (hro : a.toNat / 2 ^ 10 ≠ 3) (rd rs1 : Reg) :
    exec (.csrrw rd a rs1) s = .next (csrCommit .readWrite rd a rs1 (s.reg rs1) s) :=
  csrOp_legal (csrLegal_machine hp hi hro ..) ..

/-- Settles O32: the write rule of R47, bit by bit, at the bits the statement names. -/
theorem mstatusWriteRule : Obligations.MstatusWriteRule := by
  intro s rd rs1 hp
  have hat : csrAt 0x300#12 = some .mstatus := rfl
  obtain ⟨-, -, -, -, -, -, -, hwrites⟩ := csrCommit_frame .readWrite rd 0x300#12 rs1 (s.reg rs1) s
  have hbits : ∀ j, (csrCommit .readWrite rd 0x300#12 rs1 (s.reg rs1) s).csr.mstatus.getLsbD j =
      (mstatusWrite s.csr.mstatus (s.reg rs1)).getLsbD j := fun j => by rw [csrCommit_csr hat]; rfl
  refine ⟨_, exec_csrrw_machine hp (csrImplemented_listed hat s) (by decide) rd rs1, writesReg_csrOld hwrites,
    fun j hj => ?fields, fun j hj => ?mpp, fun j hj => ?others⟩
  case fields =>
    have hmpp : ¬ (j = 11 ∨ j = 12) := by rintro (rfl | rfl) <;> exact absurd hj (by decide)
    have hw : j ∈ [1, 3, 5, 7, 8, 11, 12, 18, 19] := by simp only [List.mem_cons] at hj ⊢; tauto
    rw [hbits, mstatusWrite_getLsbD, if_neg (fun h => hmpp h.1), if_pos hw]
  case mpp =>
    have hmpp : j = 11 ∨ j = 12 := by simpa using hj
    have hw : j ∈ [1, 3, 5, 7, 8, 11, 12, 18, 19] := by rcases hmpp with rfl | rfl <;> decide
    simp only [hbits, mstatusWrite_getLsbD, getMpp_eq_two_iff, hmpp, hw, true_and, if_true]
  case others =>
    have hmpp : ¬ (j = 11 ∨ j = 12) := by rintro (rfl | rfl) <;> exact absurd (by decide) hj
    rw [hbits, mstatusWrite_getLsbD, if_neg (fun h => hmpp h.1), if_neg hj]

/-! ### Registers (10_state.md R31, R83) -/

/-- Settles O56: what State.reg and State.setReg say of x0, and State.reg_setReg of every register. -/
theorem registerReadsLastWrite : Obligations.RegisterReadsLastWrite :=
  fun s r q v => ⟨State.reg_zero s, State.setReg_zero s v, State.reg_setReg s r q v⟩

/-! ### The host interface (10_state.md R79 (c), (d)) -/

theorem hostReadCsr_listed {a : CsrAddr} {c : Csr} (h : csrAt a = some c) (s : State) :
    hostReadCsr s a = some (csrValue s c, { s with draws := s.draws + csrDraws c }) := by
  rw [hostReadCsr, if_pos (csrImplemented_listed h s), csrRead_listed h, afterCsrRead_listed h]

theorem hostReadCsr_writable {c : WritableCsr} (hc : c ∈ writableCsrs) (s : State) :
    hostReadCsr s c.addr = some (c.view s.csr, s) := by
  obtain ⟨k, hat, hdraws, -, hview, -⟩ := writableCsr_spec hc
  rw [hostReadCsr_listed hat, hview, hdraws]
  rfl

theorem hostReadCsr_extra {s : State} (hp : s.platform.wf = true) {a : CsrAddr} {c : Word} (hm : (a, c) ∈ s.platform.extraRoCsrs) :
    hostReadCsr s a = some (c, s) := by
  obtain ⟨himpl, hread, hafter⟩ := csrRead_extra hp hm
  rw [hostReadCsr, if_pos himpl, hread, hafter]

/-- R79 (c), log 17: introspection changes at most the draw counter. -/
theorem hostReadCsr_frame {s t : State} {a : CsrAddr} {v : Word} (h : hostReadCsr s a = some (v, t)) : t = { s with draws := t.draws } := by
  unfold hostReadCsr at h
  split at h
  · cases h
    exact afterCsrRead_eq s a
  · cases h

theorem hostReadReg_eq (s : State) (r : Reg) :
    hostReadReg s r = if h : r = 0 then 0 else s.regs[r.toNat - 1]'(by omega) := by
  rw [hostReadReg, State.reg]
  split <;> rfl

theorem hostReadPriv_eq (s : State) :
    hostReadPriv s = match s.priv with | .user => 0 | .supervisor => 1 | .machine => 3 := by
  rw [hostReadPriv]
  cases s.priv <;> rfl

theorem hostPostInterrupt_mip_getLsbD (i : HostIrq) (level : Bool) (s : State) (j : Nat) :
    (hostPostInterrupt i level s).csr.mip.getLsbD j = if j = i.bit then level else s.csr.mip.getLsbD j :=
  setBit_getLsbD _ _ _ _ i.bit_legal.1

/-- Settles O57: each read of introspection by the kind of CSR it reads, and the posted bit of mip. -/
theorem hostInterfaceEffects : Obligations.HostInterfaceEffects := by
  intro s i level a r
  refine ⟨⟨hostReadReg_eq s r, rfl, hostReadPriv_eq s⟩, fun c hc => hostReadCsr_writable hc s, hostReadCsr_listed (c := .instret) rfl s,
    fun c hp hm => hostReadCsr_extra hp hm, hostReadCsr_listed (c := .cycle) rfl s,
    hostReadCsr_listed (c := .time) rfl s, ?posted, ?kept, rfl,
    fun v t h => hostReadCsr_frame h⟩
  case posted => rw [hostPostInterrupt_mip_getLsbD, if_pos rfl]
  case kept =>
    intro j hj
    rw [hostPostInterrupt_mip_getLsbD, if_neg (fun h => hj (List.mem_singleton.2 h))]

end Sys2Proof.Machine
end

section
/-! PROOFS. The statements of 20_memory.md: RAM, Sv39 translation and its faults, and the loads and stores of a device window. -/

namespace Sys2Proof.Machine

/-! ### RAM (20_memory.md R101, R140) -/

/-- Settles O55: what Memory.read_write, Memory.write_wf and Memory.ext_read say of memory in canonical form. -/
theorem memoryReadsLastWrite : Obligations.MemoryReadsLastWrite := fun _ _ k v hm =>
  ⟨fun a => Memory.read_write hm k a v, Memory.write_wf hm k v, fun hn h => Memory.ext_read hm hn h⟩

/-! ### When translation walks, and the fault codes (20_memory.md R112, R120, R121) -/

/-- Settles O40: without active translation, translate does not come to the walk. -/
theorem translationInactive : Obligations.TranslationInactive := by
  intro s K va hoff
  refine translate_inactive ?_ K va
  rwa [← Bool.not_eq_true, translationActive_iff]

theorem translate_noncanonical {s : State} {va : Word} (hon : TranslationOn s) (hc : ¬ Canonical va) (K : Access) :
    translate s K va = .error (pageFault K va) := by
  rw [translate, if_pos ((translationActive_iff s).2 hon), if_neg (mt (canonical_iff va).1 hc)]

/-- Settles O41: the test of R121 comes before the walk. -/
theorem nonCanonicalAddressFaults : Obligations.NonCanonicalAddressFaults :=
  fun _ K _ hon hc => translate_noncanonical hon hc K

@[simp] theorem pageFault_tval (K : Access) (va : Word) : (pageFault K va).tval = va := by cases K <;> rfl
@[simp] theorem accessFault_tval (K : Access) (va : Word) : (accessFault K va).tval = va := by cases K <;> rfl

/-- R112: the page fault and the access fault of a kind, by number. -/
def Access.faultCodes : Access → List Nat
  | .fetch => [12, 1]
  | .load => [13, 5]
  | .store => [15, 7]

theorem pageFault_code_mem (K : Access) (va : Word) : (pageFault K va).cause.code ∈ K.faultCodes := by
  cases K <;> simp [pageFault, ExcCause.code, Access.faultCodes]

theorem accessFault_code_mem (K : Access) (va : Word) : (accessFault K va).cause.code ∈ K.faultCodes := by
  cases K <;> simp [accessFault, ExcCause.code, Access.faultCodes]

/-- Settles O43: translate_error names the two faults, translate_ok the offset and the bound. -/
theorem translationFaultKinds : Obligations.TranslationFaultKinds := by
  intro s K va
  refine ⟨⟨rfl, rfl, rfl, rfl, rfl, rfl⟩, fun e he => ?codes, fun e he => translate_error he, fun pa hpa => translate_ok hpa⟩
  rcases translate_error he with rfl | rfl
  · exact ⟨pageFault_tval K va, pageFault_code_mem K va⟩
  · exact ⟨accessFault_tval K va, accessFault_code_mem K va⟩

/-! ### The walk at the level it reaches (20_memory.md R123 to R129) -/

section
variable {s : State} {va : Word} {i a : Nat} {pte : Word} (hp : PteAt s (pteAddress va i a) pte)
include hp

theorem walk_not_ok (hok : ¬ PteOk pte) (K : Access) : walk s K va i a = .error (pageFault K va) := by
  rw [walk_of_pteAt hp, if_neg (mt (pteValid_iff pte).1 hok)]

theorem walk_leaf (hok : PteOk pte) (hl : PteLeaf pte) (K : Access) : walk s K va i a = leafResult s K va i pte := by
  rw [walk_of_pteAt hp, if_pos ((pteValid_iff pte).2 hok), if_pos ((pteLeaf_iff pte).2 hl)]

end

theorem walk_pointer_zero {s : State} {va : Word} {a : Nat} {pte : Word} (hp : PteAt s (pteAddress va 0 a) pte) (hok : PteOk pte)
    (hl : ¬ PteLeaf pte) (K : Access) : walk s K va 0 a = .error (pageFault K va) := by
  rw [walk_of_pteAt hp, if_pos ((pteValid_iff pte).2 hok), if_neg (mt (pteLeaf_iff pte).1 hl)]

/-- R125, R126: the two tests of a leaf. -/
theorem leafAllowed_iff {i : Nat} (hi : i ≤ 2) (s : State) (K : Access) (pte : Word) :
    (checkPermission s K pte && superpageAligned i pte) = true ↔ MayAccess s K pte ∧ pte.toNat / 2 ^ 10 % 2 ^ (9 * i) = 0 := by
  rw [Bool.and_eq_true, checkPermission_iff, superpageAligned_iff hi]

/-- Settles O42: translate goes on as the walk from where the relation reaches, and the entry there decides. -/
theorem walkFollowsTables : Obligations.WalkFollowsTables := by
  intro s K va i a hon hc hreach
  have hi := walkReaches_le hreach
  rw [translate_of_reaches hon hc hreach K]
  refine ⟨fun hout => ?outside, fun pte hp => ⟨fun hok => walk_not_ok hp hok K, ?pointer, ?refusedLeaf, ?allowedLeaf⟩⟩
  case outside =>
    refine walk_outside ?_ K
    rwa [← Bool.not_eq_true, inRam_iff]
  case pointer =>
    rintro hok hl rfl
    exact walk_pointer_zero hp hok hl K
  case refusedLeaf =>
    intro hok hl hno
    rw [walk_leaf hp hok hl, leafResult, if_neg (mt (leafAllowed_iff hi s K pte).1 hno)]
  case allowedLeaf =>
    intro hok hl hmay hal
    rw [walk_leaf hp hok hl, leafResult, if_pos ((leafAllowed_iff hi s K pte).2 ⟨hmay, hal⟩), physAddr_eq hi hal]

/-! ### The value of a load (41_loads_stores.md R251 to R257) -/

/-- The low `n` bytes of a value, sign-extended or zero-extended: what the seven loads do with the value of MemRead. -/
def extendLow : (signed : Bool) → (n : Nat) → Word → Word
  | true, n, v => (v.extractLsb' 0 (8 * n)).signExtend 64
  | false, n, v => (v.extractLsb' 0 (8 * n)).setWidth 64

theorem extendLow_eight (v : Word) : extendLow true 8 v = v := by
  rw [extendLow, BitVec.extractLsb'_eq_self, BitVec.signExtend_eq]

theorem extendLow_getLsbD (signed : Bool) {n : Nat} (hn : 0 < n) (v : Word) {j : Nat} (hj : j < 64) :
    (extendLow signed n v).getLsbD j = if j < 8 * n then v.getLsbD j else signed && v.getLsbD (8 * n - 1) := by
  have htop : 8 * n - 1 < 8 * n := by omega
  cases signed with
  | true =>
    rw [extendLow, BitVec.getLsbD_signExtend, BitVec.msb_eq_getLsbD_last, BitVec.getLsbD_extractLsb', BitVec.getLsbD_extractLsb']
    by_cases hlow : j < 8 * n <;> simp [hj, hlow, htop]
  | false =>
    rw [extendLow, BitVec.getLsbD_setWidth, BitVec.getLsbD_extractLsb']
    simp [hj]

/-- The bits an extension adds repeat the top bit of the result when it is signed, and are 0 otherwise. -/
theorem extendLow_fill (signed : Bool) {n : Nat} (hn : 0 < n) (v : Word) {j : Nat} (hlo : 8 * n ≤ j) (hj : j < 64) :
    (extendLow signed n v).getLsbD j = (signed && (extendLow signed n v).getLsbD (8 * n - 1)) := by
  rw [extendLow_getLsbD signed hn v hj, extendLow_getLsbD signed hn v (by omega), if_neg (by omega), if_pos (by omega)]

/-- A value of `n` bytes that MemRead has zero-extended is extended as it was. -/
theorem extendLow_setWidth (signed : Bool) {n : Nat} (hn : n ≤ 8) (x : BitVec (8 * n)) :
    extendLow signed n (x.setWidth 64) = if signed then x.signExtend 64 else x.setWidth 64 := by
  have hx : (x.setWidth 64).extractLsb' 0 (8 * n) = x := by
    rw [← BitVec.setWidth_eq_extractLsb' (by omega), BitVec.setWidth_setWidth_of_le _ (by omega), BitVec.setWidth_eq]
  cases signed <;> simp only [extendLow, hx] <;> rfl

/-! ### Loads from a device window (20_memory.md R107, R110) -/

/-- A load whose MemRead succeeds, with at most the host's part of a device read: it writes x[rd] and retires. -/
theorem loadInto_completes {s : State} {va v : Word} {n d : Nat} {ev : List DevEvent}
    (h : memRead s va n = .ok (v, { s with draws := d, events := ev })) (rd : Reg) (ext : Word → Word) :
    ∃ t, loadInto rd va n ext s = .next t ∧ Retired s t (s.pc + 4) ∧ WritesReg s t rd (ext v) ∧ KeepsMem s t ∧
      t.resv = s.resv ∧ t.platform = s.platform ∧ t.draws = d ∧ t.events = ev := by
  rw [loadInto, h]
  exact ⟨_, rfl, retired_retire (by simp) (by simp) _, writesReg_retire_setReg rfl _ rd _, fun _ => by simp, by simp, by simp,
    by simp, by simp⟩

/-- What O17 says of one load that answers `o`: its accesses, the value `v` it gives x[rd], and its frame. -/
def LoadsFromWindow (o : Result) (s : State) (rd : Reg) (ea : Word) (n : Nat) (signed : Bool) (pa : Nat → Word) : Prop :=
  ∃ t v, o = .next t ∧ Retired s t (s.pc + 4) ∧ WritesReg s t rd v ∧ KeepsMem s t ∧ t.resv = s.resv ∧
    t.platform = s.platform ∧
    (ea.toNat % n = 0 →
      v = (if signed then (Config.devRead s.draws (pa 0) n).signExtend 64 else (Config.devRead s.draws (pa 0) n).setWidth 64) ∧
      t.draws = s.draws + 1 ∧ t.events = s.events ++ [.read (pa 0) n]) ∧
    (ea.toNat % n ≠ 0 →
      (∀ k, k < n → v.extractLsb' (8 * k) 8 = Config.devRead (s.draws + k) (pa k) 1) ∧
      (∀ j, 8 * n ≤ j → j < 64 → v.getLsbD j = (signed && v.getLsbD (8 * n - 1))) ∧
      t.draws = s.draws + n ∧ t.events = s.events ++ (List.range n).map (fun k => .read (pa k) 1))

/-- R107: byte `k` of single-byte device reads is the `k`-th draw, and an extension keeps it. -/
theorem extendLow_devReadBytes (signed : Bool) (s : State) {n : Nat} (hn : n ≤ 8) (pa : Nat → Word) {k : Nat} (hk : k < n) :
    (extendLow signed n (devReadBytes s ((List.range n).map pa)).1).extractLsb' (8 * k) 8 =
      Config.devRead (s.draws + k) (pa k) 1 := by
  obtain ⟨hbits, -⟩ := devReadBytes_spec s n pa
  refine BitVec.eq_of_getLsbD_eq fun b hb => ?_
  rw [BitVec.getLsbD_extractLsb', extendLow_getLsbD signed (by omega) _ (by omega), if_pos (by omega), hbits _ (by omega),
    if_pos (by omega), show (8 * k + b) / 8 = k by omega, show (8 * k + b) % 8 = b by omega]
  simp [hb]

theorem loadInto_window {s : State} {va : Word} {n : Nat} {pa : Nat → Word} {w : Window} (rd : Reg) (signed : Bool)
    (hn : n = 1 ∨ n = 2 ∨ n = 4 ∨ n = 8) (h : BytesAt s .load va n pa) (hw : AllInWindow s w n pa) :
    LoadsFromWindow (loadInto rd va n (extendLow signed n) s) s rd va n signed pa := by
  have hread := memRead_window hn h hw
  by_cases ha : va.toNat % n = 0
  · rw [if_pos ha] at hread
    obtain ⟨t, ht, hret, hreg, hmem, hresv, hplat, hdraws, hev⟩ := loadInto_completes hread rd (extendLow signed n)
    exact ⟨t, _, ht, hret, hreg, hmem, hresv, hplat,
      fun _ => ⟨extendLow_setWidth signed (by omega) _, hdraws, hev⟩, fun hno => absurd ha hno⟩
  · obtain ⟨-, hstate⟩ := devReadBytes_spec s n pa
    rw [if_neg ha, ← Prod.mk.eta (p := devReadBytes s _), hstate] at hread
    obtain ⟨t, ht, hret, hreg, hmem, hresv, hplat, hdraws, hev⟩ := loadInto_completes hread rd (extendLow signed n)
    exact ⟨t, _, ht, hret, hreg, hmem, hresv, hplat, fun h0 => absurd h0 ha,
      fun _ => ⟨fun k hk => extendLow_devReadBytes signed s (by omega) pa hk,
        fun j hlo hj => extendLow_fill signed (by omega) _ hlo hj, hdraws, hev⟩⟩

/-- R254: of the seven loads, LD alone is written without an extension. -/
theorem exec_ld_eq_loadInto (s : State) (rd rs1 : Reg) (imm : BitVec 12) :
    exec (.ld rd rs1 imm) s = loadInto rd (s.reg rs1 + imm.signExtend 64) 8 (extendLow true 8) s := by
  rw [funext extendLow_eight]
  rfl

/-- Settles O17: each load is loadInto with the extension of its width. -/
theorem loadsFromDevices : Obligations.LoadsFromDevices := by
  intro s rd rs1 imm win pa
  refine ⟨loadInto_window rd true (.inl rfl), loadInto_window rd true (by decide), loadInto_window rd true (by decide),
    fun h hw => ?_, loadInto_window rd false (.inl rfl), loadInto_window rd false (by decide), loadInto_window rd false (by decide)⟩
  rw [exec_ld_eq_loadInto]
  exact loadInto_window rd true (by decide) h hw

/-! ### Stores to a device window (20_memory.md R107, R111; 45_atomics.md R360 (e)) -/

/-- Log 15: no byte of a device window has the reserved granule, which lies in RAM as RAM is made of whole granules. -/
theorem not_inReservedGranule_of_window {s : State} {w : Window} {n : Nat} {pa : Nat → Word} (hw : AllInWindow s w n pa)
    (hl : reservationLegal s = true) {k : Nat} (hk : k < n) : ¬ InReservedGranule s (pa k) := by
  rintro ⟨a, hres, hgran⟩
  obtain ⟨hwf, hmem, hin⟩ := hw
  obtain ⟨hbase, hsize, -⟩ := (Platform.wf_iff _).1 hwf
  obtain ⟨hlo, hhi⟩ := hin k hk
  have hram : s.platform.ramBase ≤ a.toNat ∧ a.toNat + 4 ≤ s.platform.ramBase + s.platform.ramSize := by
    simp only [reservationLegal, hres, Bool.and_eq_true, inRam_iff] at hl
    exact hl.2
  have hout := inRegion_ram_false_of_window hwf hmem hlo hhi
  omega

theorem resvAfterWrite_window {s : State} {w : Window} {n : Nat} {pa : Nat → Word} (hw : AllInWindow s w n pa)
    (hl : reservationLegal s = true) : resvAfterWrite s.resv ((List.range n).map pa) = s.resv :=
  (resvAfterWrite_spec s n pa).2 fun _ hk => not_inReservedGranule_of_window hw hl hk

theorem byte_setWidth_eq_ofNat (v : Word) (k : Nat) :
    (v.extractLsb' (8 * k) 8).setWidth 64 = BitVec.ofNat 64 (v.toNat / 2 ^ (8 * k) % 256) := by
  apply BitVec.eq_of_toNat_eq
  rw [BitVec.toNat_setWidth, BitVec.extractLsb'_toNat, Nat.shiftRight_eq_div_pow, BitVec.toNat_ofNat]

/-- What O19 says of one store that answers `o`: its accesses and its frame. -/
def StoresToWindow (o : Result) (s : State) (ea : Word) (n : Nat) (v : Word) (pa : Nat → Word) : Prop :=
  ∃ t, o = .next t ∧ Retired s t (s.pc + 4) ∧ KeepsRegs s t ∧ KeepsMem s t ∧ t.resv = s.resv ∧
    t.platform = s.platform ∧ t.draws = s.draws ∧
    (ea.toNat % n = 0 → t.events = s.events ++ [.write (pa 0) n (BitVec.ofNat 64 (v.toNat % 2 ^ (8 * n)))]) ∧
    (ea.toNat % n ≠ 0 → t.events = s.events ++
      (List.range n).map fun k => .write (pa k) 1 (BitVec.ofNat 64 (v.toNat / 2 ^ (8 * k) % 256)))

theorem storeAt_window {s : State} {va : Word} {n : Nat} {pa : Nat → Word} {w : Window} (v : Word)
    (hn : n = 1 ∨ n = 2 ∨ n = 4 ∨ n = 8) (h : BytesAt s .store va n pa) (hw : AllInWindow s w n pa)
    (hl : reservationLegal s = true) : StoresToWindow (storeAt va n v s) s va n v pa := by
  have hwrite := memWrite_window hn h hw v
  simp only [resvAfterWrite_window hw hl, leWord_leBytes, byte_setWidth_eq_ofNat] at hwrite
  rw [storeAt, hwrite]
  refine ⟨_, rfl, retired_retire rfl rfl _, fun _ => rfl, fun _ => rfl, rfl, rfl, rfl, fun ha => ?_, fun ha => ?_⟩
  · rw [retire_events, if_pos ha]
  · rw [retire_events, if_neg ha]

/-- Settles O19: each store is storeAt at its width. -/
theorem storesToDevices : Obligations.StoresToDevices := by
  intro s rs1 rs2 imm win pa
  exact ⟨storeAt_window _ (.inl rfl), storeAt_window _ (by decide), storeAt_window _ (by decide), storeAt_window _ (by decide)⟩

end Sys2Proof.Machine
end

section
/-! PROOFS. The statements of 30_encoding.md: the decoder and the encoder as inverses, the opcode table, the encodings that are absent,
and the expansion of `li`. -/

namespace Sys2Proof

/-! ### Decoding an encoded instruction (30_encoding.md R171, R176) -/

/-- The lemmas of Laws/PerInstr.lean as one, over the constructors of Instr. -/
theorem encodesItsRow : ∀ i : Instr, Laws.EncodesItsRow.Statement i
  | .lui .. => Laws.EncodesItsRow.lui ..
  | .auipc .. => Laws.EncodesItsRow.auipc ..
  | .addi .. => Laws.EncodesItsRow.addi ..
  | .slti .. => Laws.EncodesItsRow.slti ..
  | .sltiu .. => Laws.EncodesItsRow.sltiu ..
  | .xori .. => Laws.EncodesItsRow.xori ..
  | .ori .. => Laws.EncodesItsRow.ori ..
  | .andi .. => Laws.EncodesItsRow.andi ..
  | .slli .. => Laws.EncodesItsRow.slli ..
  | .srli .. => Laws.EncodesItsRow.srli ..
  | .srai .. => Laws.EncodesItsRow.srai ..
  | .add .. => Laws.EncodesItsRow.add ..
  | .sub .. => Laws.EncodesItsRow.sub ..
  | .sll .. => Laws.EncodesItsRow.sll ..
  | .slt .. => Laws.EncodesItsRow.slt ..
  | .sltu .. => Laws.EncodesItsRow.sltu ..
  | .xor .. => Laws.EncodesItsRow.xor ..
  | .srl .. => Laws.EncodesItsRow.srl ..
  | .sra .. => Laws.EncodesItsRow.sra ..
  | .or .. => Laws.EncodesItsRow.or ..
  | .and .. => Laws.EncodesItsRow.and ..
  | .addiw .. => Laws.EncodesItsRow.addiw ..
  | .slliw .. => Laws.EncodesItsRow.slliw ..
  | .srliw .. => Laws.EncodesItsRow.srliw ..
  | .sraiw .. => Laws.EncodesItsRow.sraiw ..
  | .addw .. => Laws.EncodesItsRow.addw ..
  | .subw .. => Laws.EncodesItsRow.subw ..
  | .sllw .. => Laws.EncodesItsRow.sllw ..
  | .srlw .. => Laws.EncodesItsRow.srlw ..
  | .sraw .. => Laws.EncodesItsRow.sraw ..
  | .lb .. => Laws.EncodesItsRow.lb ..
  | .lh .. => Laws.EncodesItsRow.lh ..
  | .lw .. => Laws.EncodesItsRow.lw ..
  | .ld .. => Laws.EncodesItsRow.ld ..
  | .lbu .. => Laws.EncodesItsRow.lbu ..
  | .lhu .. => Laws.EncodesItsRow.lhu ..
  | .lwu .. => Laws.EncodesItsRow.lwu ..
  | .sb .. => Laws.EncodesItsRow.sb ..
  | .sh .. => Laws.EncodesItsRow.sh ..
  | .sw .. => Laws.EncodesItsRow.sw ..
  | .sd .. => Laws.EncodesItsRow.sd ..
  | .fence .. => Laws.EncodesItsRow.fence ..
  | .fenceI .. => Laws.EncodesItsRow.fenceI ..
  | .beq .. => Laws.EncodesItsRow.beq ..
  | .bne .. => Laws.EncodesItsRow.bne ..
  | .blt .. => Laws.EncodesItsRow.blt ..
  | .bge .. => Laws.EncodesItsRow.bge ..
  | .bltu .. => Laws.EncodesItsRow.bltu ..
  | .bgeu .. => Laws.EncodesItsRow.bgeu ..
  | .jal .. => Laws.EncodesItsRow.jal ..
  | .jalr .. => Laws.EncodesItsRow.jalr ..
  | .csrrw .. => Laws.EncodesItsRow.csrrw ..
  | .csrrs .. => Laws.EncodesItsRow.csrrs ..
  | .csrrc .. => Laws.EncodesItsRow.csrrc ..
  | .csrrwi .. => Laws.EncodesItsRow.csrrwi ..
  | .csrrsi .. => Laws.EncodesItsRow.csrrsi ..
  | .csrrci .. => Laws.EncodesItsRow.csrrci ..
  | .mul .. => Laws.EncodesItsRow.mul ..
  | .mulh .. => Laws.EncodesItsRow.mulh ..
  | .mulhsu .. => Laws.EncodesItsRow.mulhsu ..
  | .mulhu .. => Laws.EncodesItsRow.mulhu ..
  | .div .. => Laws.EncodesItsRow.div ..
  | .divu .. => Laws.EncodesItsRow.divu ..
  | .rem .. => Laws.EncodesItsRow.rem ..
  | .remu .. => Laws.EncodesItsRow.remu ..
  | .mulw .. => Laws.EncodesItsRow.mulw ..
  | .divw .. => Laws.EncodesItsRow.divw ..
  | .divuw .. => Laws.EncodesItsRow.divuw ..
  | .remw .. => Laws.EncodesItsRow.remw ..
  | .remuw .. => Laws.EncodesItsRow.remuw ..
  | .lrW .. => Laws.EncodesItsRow.lrW ..
  | .lrD .. => Laws.EncodesItsRow.lrD ..
  | .scW .. => Laws.EncodesItsRow.scW ..
  | .scD .. => Laws.EncodesItsRow.scD ..
  | .amoswapW .. => Laws.EncodesItsRow.amoswapW ..
  | .amoaddW .. => Laws.EncodesItsRow.amoaddW ..
  | .amoxorW .. => Laws.EncodesItsRow.amoxorW ..
  | .amoandW .. => Laws.EncodesItsRow.amoandW ..
  | .amoorW .. => Laws.EncodesItsRow.amoorW ..
  | .amominW .. => Laws.EncodesItsRow.amominW ..
  | .amomaxW .. => Laws.EncodesItsRow.amomaxW ..
  | .amominuW .. => Laws.EncodesItsRow.amominuW ..
  | .amomaxuW .. => Laws.EncodesItsRow.amomaxuW ..
  | .amoswapD .. => Laws.EncodesItsRow.amoswapD ..
  | .amoaddD .. => Laws.EncodesItsRow.amoaddD ..
  | .amoxorD .. => Laws.EncodesItsRow.amoxorD ..
  | .amoandD .. => Laws.EncodesItsRow.amoandD ..
  | .amoorD .. => Laws.EncodesItsRow.amoorD ..
  | .amominD .. => Laws.EncodesItsRow.amominD ..
  | .amomaxD .. => Laws.EncodesItsRow.amomaxD ..
  | .amominuD .. => Laws.EncodesItsRow.amominuD ..
  | .amomaxuD .. => Laws.EncodesItsRow.amomaxuD ..
  | .ecall .. => Laws.EncodesItsRow.ecall ..
  | .ebreak .. => Laws.EncodesItsRow.ebreak ..
  | .sret .. => Laws.EncodesItsRow.sret ..
  | .mret .. => Laws.EncodesItsRow.mret ..
  | .wfi .. => Laws.EncodesItsRow.wfi ..
  | .sfenceVma .. => Laws.EncodesItsRow.sfenceVma ..

/-- Settles O1: the row that the encoded word matches decides the decoding, and builds the instruction. -/
theorem decodeOfEncode : Obligations.DecodeOfEncode := by
  intro i hwf
  obtain ⟨r, hr, hm, hbuild⟩ := encodesItsRow i
  rw [decode_of_row hr hm, hbuild hwf]

/-! ### Encoding a decoded instruction (30_encoding.md R162, R171, R173) -/

/-- The formats of R162 and their variants, with two more where the rows of R171 fix a register field too. -/
inductive WordFormat where
  | R
  /-- R with its rd field fixed (SFENCE.VMA). -/
  | RFixedRd
  | I
  | IShift64
  | S
  | B
  | U
  | J
  | amo
  /-- R-amo with its rs2 field fixed (LR). -/
  | amoFixedRs2
  | fence
  /-- I-sys: the whole word is fixed. -/
  | whole

namespace WordFormat

/-- The bits that a row of this format fixes. -/
def mask : WordFormat → InstrWord
  | .R => 0xFE00707F#32
  | .RFixedRd => 0xFE007FFF#32
  | .I | .S | .B | .fence => 0x0000707F#32
  | .IShift64 => 0xFC00707F#32
  | .U | .J => 0x0000007F#32
  | .amo => 0xF800707F#32
  | .amoFixedRs2 => 0xF9F0707F#32
  | .whole => 0xFFFFFFFF#32

/-- The word of this format with the fixed fields of `p` and the free fields of `w`. -/
def assemble (p w : InstrWord) : WordFormat → InstrWord
  | .R => wordR (p.extractLsb' 25 7) (fieldRs2 w) (fieldRs1 w) (p.extractLsb' 12 3) (fieldRd w) (p.extractLsb' 0 7)
  | .RFixedRd => wordR (p.extractLsb' 25 7) (fieldRs2 w) (fieldRs1 w) (p.extractLsb' 12 3) (p.extractLsb' 7 5) (p.extractLsb' 0 7)
  | .I => wordI (fieldImmI w) (fieldRs1 w) (p.extractLsb' 12 3) (fieldRd w) (p.extractLsb' 0 7)
  | .IShift64 => wordShift64 (p.extractLsb' 26 6) (fieldShamt64 w) (fieldRs1 w) (p.extractLsb' 12 3) (fieldRd w) (p.extractLsb' 0 7)
  | .S => wordS (fieldImmS w) (fieldRs2 w) (fieldRs1 w) (p.extractLsb' 12 3) (p.extractLsb' 0 7)
  | .B => wordB (fieldImmB w) (fieldRs2 w) (fieldRs1 w) (p.extractLsb' 12 3) (p.extractLsb' 0 7)
  | .U => wordU (fieldImmU w) (fieldRd w) (p.extractLsb' 0 7)
  | .J => wordJ (fieldImmJ w) (fieldRd w) (p.extractLsb' 0 7)
  | .amo => wordAmo (p.extractLsb' 27 5) (fieldAq w) (fieldRl w) (fieldRs2 w) (fieldRs1 w) (p.extractLsb' 12 3) (fieldRd w)
      (p.extractLsb' 0 7)
  | .amoFixedRs2 => wordAmo (p.extractLsb' 27 5) (fieldAq w) (fieldRl w) (p.extractLsb' 20 5) (fieldRs1 w) (p.extractLsb' 12 3)
      (fieldRd w) (p.extractLsb' 0 7)
  | .fence => wordFence (fieldFm w) (fieldPred w) (fieldSucc w) (fieldRs1 w) (p.extractLsb' 12 3) (fieldRd w) (p.extractLsb' 0 7)
  | .whole => p

/-- A word with the fixed bits `p` is put together again from `p` and its own free fields. -/
theorem assemble_eq {w p : InstrWord} (f : WordFormat) (h : w &&& f.mask = p) : f.assemble p w = w := by
  have fixed := fixedBits h
  cases f with
  | R => exact wordR_eq (fixed 25 7 rfl) (fixed 12 3 rfl) (fixed 0 7 rfl)
  | RFixedRd => exact wordR_rd_eq (fixed 25 7 rfl) (fixed 12 3 rfl) (fixed 7 5 rfl) (fixed 0 7 rfl)
  | I => exact wordI_eq (fixed 12 3 rfl) (fixed 0 7 rfl)
  | IShift64 => exact wordShift64_eq (fixed 26 6 rfl) (fixed 12 3 rfl) (fixed 0 7 rfl)
  | S => exact wordS_eq (fixed 12 3 rfl) (fixed 0 7 rfl)
  | B => exact wordB_eq (fixed 12 3 rfl) (fixed 0 7 rfl)
  | U => exact wordU_eq (fixed 0 7 rfl)
  | J => exact wordJ_eq (fixed 0 7 rfl)
  | amo => exact wordAmo_eq (fixed 27 5 rfl) (fixed 12 3 rfl) (fixed 0 7 rfl)
  | amoFixedRs2 => exact wordAmo_rs2_eq (fixed 27 5 rfl) (fixed 20 5 rfl) (fixed 12 3 rfl) (fixed 0 7 rfl)
  | fence => exact wordFence_eq (fixed 12 3 rfl) (fixed 0 7 rfl)
  | whole => exact h.symm.trans BitVec.and_allOnes

/-- Whether the immediate that a word of this format holds is one that the format can hold: R165 and R167 alone ask something. -/
def immWellFormed (w : InstrWord) : WordFormat → Bool
  | .B => evenB (fieldImmB w)
  | .J => evenJ (fieldImmJ w)
  | _ => true

theorem immWellFormed_true (w : InstrWord) (f : WordFormat) : f.immWellFormed w = true := by
  cases f with
  | B => exact evenB_fieldImmB w
  | J => exact evenJ_fieldImmJ w
  | _ => rfl

end WordFormat

/-- The row fixes the bits of the format, and the encoder writes what it builds in that format. -/
def Row.HasFormat (r : Row) (f : WordFormat) : Prop :=
  r.mask = f.mask ∧ ∀ w, (r.build w).wellFormed = f.immWellFormed w ∧ encode (r.build w) = f.assemble r.pattern w

/-- The formats of the rows of R171, in the order of the table, as runs of rows that share one. -/
def opcodeTableFormats : List WordFormat :=
  [ -- LUI to ANDI, SLLI to AND, ADDIW to SRAW
    (2, .U), (6, .I), (3, .IShift64), (10, .R), (1, .I), (8, .R),
    -- LB to FENCE.I
    (7, .I), (4, .S), (1, .fence), (1, .I),
    -- BEQ to JALR, CSRRW to CSRRCI
    (6, .B), (1, .J), (1, .I), (6, .I),
    -- MUL to REMUW, LR.W to AMOMAXU.D
    (13, .R), (2, .amoFixedRs2), (20, .amo),
    -- ECALL to SFENCE.VMA
    (5, .whole), (1, .RFixedRd)].flatMap fun run => List.replicate run.1 run.2

/-- R162, R171: row by row, the fixed bits and the encoder's word compute to those of the format. -/
theorem opcodeTable_hasFormats : List.Forall₂ Row.HasFormat opcodeTable opcodeTableFormats := by
  repeat refine .cons ⟨rfl, fun _ => ⟨rfl, rfl⟩⟩ ?_
  exact .nil

theorem row_hasFormat {r : Row} (hr : r ∈ opcodeTable) : ∃ f, r.HasFormat f := by
  obtain ⟨k, hk, rfl⟩ := List.mem_iff_getElem.1 hr
  exact ⟨_, opcodeTable_hasFormats.get hk (opcodeTable_hasFormats.length_eq ▸ hk)⟩

/-- Settles O2: a word is put together again from the fixed bits of its row and the free fields the instruction holds. -/
theorem encodeOfDecode : Obligations.EncodeOfDecode := by
  intro w i h
  obtain ⟨r, hr, hm, rfl⟩ := decode_ok h
  obtain ⟨f, hmask, hbuild⟩ := row_hasFormat hr
  obtain ⟨hwf, henc⟩ := hbuild w
  rw [rowMatches_iff, hmask] at hm
  exact ⟨hwf.trans (f.immWellFormed_true w), henc.trans (f.assemble_eq hm)⟩

/-! ### The table as a partition of the words that are instructions (30_encoding.md R171) -/

theorem decode_ok_iff (w : InstrWord) : (∃ i, decode w = .ok i) ↔ ∃ r ∈ opcodeTable, rowMatches w r = true := by
  constructor
  · rintro ⟨i, h⟩
    obtain ⟨r, hr, hm, -⟩ := decode_ok h
    exact ⟨r, hr, hm⟩
  · rintro ⟨r, hr, hm⟩
    exact ⟨_, decode_of_row hr hm⟩

/-- Settles O3: a word that matches a row matches it alone (find_row). -/
theorem tableRowsDisjoint : Obligations.TableRowsDisjoint := by
  intro w
  rw [decode_ok_iff]
  by_cases hmatch : ∃ r ∈ opcodeTable, rowMatches w r = true
  · obtain ⟨r, hr, hm⟩ := hmatch
    rw [find_row opcodeTable_pairwise hr hm]
    exact ⟨Nat.le_refl 1, fun _ => rfl, fun _ => ⟨r, hr, hm⟩⟩
  · have hnone : opcodeTable.filter (rowMatches w) = [] := List.filter_eq_nil_iff.2 fun r hr hm => hmatch ⟨r, hr, hm⟩
    rw [hnone]
    exact ⟨Nat.zero_le 1, fun h => absurd h hmatch, fun h => absurd h (by decide)⟩

/-! ### Encodings that are absent (30_encoding.md R160, R172, R175) -/

/-- A major opcode of a compressed or longer instruction, of a custom space, or of a floating-point instruction. -/
def OpcodeAbsent (op : BitVec 7) : Prop :=
  op.extractLsb' 0 2 ≠ 0b11#2 ∨ op.extractLsb' 2 3 = 0b111#3 ∨
    op ∈ [0b0001011#7, 0b0101011#7, 0b1011011#7, 0b1111011#7, 0b0000111#7, 0b0100111#7, 0b1000011#7, 0b1000111#7, 0b1001011#7,
      0b1001111#7, 0b1010011#7]

/-- R170: every row fixes the major opcode, and none of them to an absent one. -/
theorem opcodeTable_opcodes : ∀ r ∈ opcodeTable,
    r.mask.extractLsb' 0 7 = BitVec.allOnes 7 ∧ ¬ OpcodeAbsent (r.pattern.extractLsb' 0 7) := by
  unfold OpcodeAbsent
  decide

theorem decode_opcode {w : InstrWord} {i : Instr} (h : decode w = .ok i) : ¬ OpcodeAbsent (w.extractLsb' 0 7) := by
  obtain ⟨r, hr, hm, -⟩ := decode_ok h
  obtain ⟨hmask, hop⟩ := opcodeTable_opcodes r hr
  rwa [fixedBits ((rowMatches_iff w r).1 hm) 0 7 hmask]

/-- Settles O4: what decodes has the major opcode of a row. -/
theorem absentEncodingsAreIllegal : Obligations.AbsentEncodingsAreIllegal := by
  intro w habsent
  cases h : decode w with
  | error e => exact ⟨e, rfl⟩
  | ok i =>
    refine absurd ?_ (decode_opcode h)
    rwa [OpcodeAbsent, BitVec.extractLsb'_extractLsb'_of_le (by decide), BitVec.extractLsb'_extractLsb'_of_le (by decide)]

end Sys2Proof

namespace Sys2Proof.Machine

/-! ### The expansion of `li` (30_encoding.md R179; 40_integer_alu.md R200, R221) -/

theorem lowWord_add (a b : Word) : lowWord (a + b) = lowWord a + lowWord b := by
  apply BitVec.eq_of_toNat_eq
  simp only [lowWord_toNat, BitVec.toNat_add]
  omega

theorem lowWord_signExtend {n : Nat} (x : BitVec n) : lowWord (x.signExtend 64) = x.signExtend 32 := by
  rw [signExtend_eq_ofInt, lowWord_ofInt, signExtend_eq_ofInt]

/-- R179: `hi(v)` rounds to the nearest multiple of 2^12, and `lo(v)`, read as signed, is the rest. -/
theorem hi20_append_add_lo12 (v : BitVec 32) : (hi20 v ++ 0#12) + (lo12 v).signExtend 32 = v := by
  have hhi : (hi20 v).toNat = (v.toNat + 2048) % 2 ^ 32 / 2 ^ 12 := by
    rw [hi20, BitVec.extractLsb'_toNat, BitVec.toNat_add, Nat.shiftRight_eq_div_pow]
    exact Nat.mod_eq_of_lt (by omega)
  have hlo : ((lo12 v).signExtend 32).toNat = v.toNat % 2 ^ 12 + if v.toNat % 2 ^ 12 < 2 ^ 11 then 0 else 2 ^ 32 - 2 ^ 12 := by
    rw [BitVec.toNat_signExtend, BitVec.msb_eq_decide, lo12]
    simp only [BitVec.toNat_setWidth, BitVec.extractLsb'_toNat, Nat.shiftRight_zero, decide_eq_true_eq]
    split_ifs <;> omega
  apply BitVec.eq_of_toNat_eq
  rw [BitVec.toNat_add, BitVec.toNat_append, BitVec.toNat_ofNat, Nat.zero_mod, Nat.or_zero, Nat.shiftLeft_eq, hhi, hlo]
  have := v.isLt
  split_ifs <;> omega

/-- R179, R200, R221: the upper immediate and the lower one add up, as ADDIW adds, to the sign-extended word. -/
theorem aluAddw_hi20_lo12 (v : BitVec 32) : aluAddw (immU (hi20 v)) (immI (lo12 v)) = v.signExtend 64 := by
  rw [aluAddw, lowWord_add, immU, immI, lowWord_signExtend, lowWord_signExtend, BitVec.signExtend_eq, hi20_append_add_lo12, sextWord]

/-- Settles O58: LUI leaves the upper part in x[rd], and ADDIW adds the lower part to it. -/
theorem loadImmediateExpansion : Obligations.LoadImmediateExpansion := by
  intro s rd imm hrd
  obtain ⟨t, ht, ⟨htpc, -⟩, ⟨htrd, htregs⟩, -⟩ := writeBack_completes rd (immU (hi20 imm)) s
  obtain ⟨u, hu, ⟨hupc, -⟩, ⟨hurd, huregs⟩, -⟩ := writeBack_completes rd (aluAddw (t.reg rd) (immI (lo12 imm))) t
  rw [if_neg hrd] at htrd hurd
  refine ⟨_, _, t, u, rfl, ht, hu, ?_, ?_, fun r hr => (huregs r hr).trans (htregs r hr)⟩
  · rw [hurd, htrd, aluAddw_hi20_lo12]
  · rw [hupc, htpc, BitVec.add_assoc]
    rfl

end Sys2Proof.Machine
end

section
/-! PROOFS. The statements of 40_integer_alu.md. Every instruction of this family is a writeBack (R230), so each statement is one equation
for each instruction, between the value the model computes and its pseudocode on integers. -/

namespace Sys2Proof.Machine

/-- R230: a write of `v` completes with the value `w` that the rule gives, once the two are equal. -/
theorem writeBack_completes_of_eq {rd : Reg} {v w : Word} {s : State} (h : v = w) :
    CompletesReg (writeBack rd v s) s rd w (s.pc + 4) :=
  h ▸ writeBack_completes rd v s

/-! ### Upper immediates (R200, R201) -/

theorem add_immU_eq (a : Word) (imm : BitVec 20) : a + immU imm = BitVec.ofInt 64 (a.toInt + imm.toInt * 4096) := by
  rw [immU_eq, BitVec.ofInt_add, BitVec.ofInt_toInt]

/-- Settles O9, by the U-immediate as a signed number of 4096s. -/
theorem upperImmediateResults : Obligations.UpperImmediateResults := fun _ _ imm =>
  ⟨writeBack_completes_of_eq (immU_eq imm), writeBack_completes_of_eq (add_immU_eq _ imm)⟩

/-! ### Register-immediate instructions (R202 to R210) -/

theorem immI_toInt (imm : BitVec 12) : (immI imm).toInt = imm.toInt :=
  BitVec.toInt_signExtend_of_le (by decide)

theorem immI_toNat (imm : BitVec 12) : ((immI imm).toNat : Int) = imm.toInt % 2 ^ 64 := by
  rw [immI_eq, BitVec.toNat_ofInt, Int.toNat_of_nonneg (Int.emod_nonneg _ (by decide))]
  rfl

theorem add_immI_eq (a : Word) (imm : BitVec 12) : a + immI imm = BitVec.ofInt 64 (a.toInt + imm.toInt) := by
  rw [← ofInt_add_toInt, immI_toInt]

theorem aluSlt_immI_eq (a : Word) (imm : BitVec 12) : aluSlt a (immI imm) = if a.toInt < imm.toInt then 1 else 0 := by
  rw [aluSlt, immI_toInt]

theorem aluSltu_immI_eq (a : Word) (imm : BitVec 12) :
    aluSltu a (immI imm) = if (a.toNat : Int) < imm.toInt % 2 ^ 64 then 1 else 0 := by
  simp only [aluSltu, ← immI_toNat, Int.ofNat_lt]

/-- Settles O10: the immediate read as an integer in the additions and comparisons, the shifts as a product and two quotients. -/
theorem immediateArithmeticResults : Obligations.ImmediateArithmeticResults := by
  intro s rd rs1 imm shamt a gives
  refine ⟨?addi, ?slti, ?sltiu, ?xori, ?ori, ?andi, ?slli, ?srli, ?srai⟩
  case addi => exact writeBack_completes_of_eq (add_immI_eq a imm)
  case slti => exact writeBack_completes_of_eq (aluSlt_immI_eq a imm)
  case sltiu => exact writeBack_completes_of_eq (aluSltu_immI_eq a imm)
  case xori => exact writeBack_completes_of_eq (congrArg (a ^^^ ·) (immI_eq imm))
  case ori => exact writeBack_completes_of_eq (congrArg (a ||| ·) (immI_eq imm))
  case andi => exact writeBack_completes_of_eq (congrArg (a &&& ·) (immI_eq imm))
  case slli => exact writeBack_completes_of_eq (aluSll_eq a _)
  case srli => exact writeBack_completes_of_eq (aluSrl_eq a _)
  case srai => exact writeBack_completes_of_eq (aluSra_eq a _)

/-! ### Register-register instructions (R211 to R220): shift amounts modulo 64 (R168) -/

/-- Settles O11: sum and difference modulo 2^64, the shifts by an amount modulo 64; the comparisons and the bitwise operations are the
statement's own. -/
theorem registerArithmeticResults : Obligations.RegisterArithmeticResults := by
  intro s rd rs1 rs2 a b gives
  refine ⟨?add, ?sub, ?sll, ?slt, ?sltu, ?xor, ?srl, ?sra, ?or, ?and⟩
  case add => exact writeBack_completes_of_eq (ofNat_add_toNat a b).symm
  case sub => exact writeBack_completes_of_eq (ofInt_sub_toInt a b).symm
  case sll => exact writeBack_completes_of_eq (by rw [aluSll_eq, shiftAmount64_eq])
  case srl => exact writeBack_completes_of_eq (by rw [aluSrl_eq, shiftAmount64_eq])
  case sra => exact writeBack_completes_of_eq (by rw [aluSra_eq, shiftAmount64_eq])
  case slt | sltu | xor | or | and => exact writeBack_completes rd _ s

/-! ### Word instructions (R221 to R229): shift amounts modulo 32 (R168) -/

theorem aluAddw_immI_eq (a : Word) (imm : BitVec 12) :
    aluAddw a (immI imm) = BitVec.ofInt 64 (Int.bmod (a.toInt + imm.toInt) (2 ^ 32)) := by
  rw [aluAddw_eq, immI_toInt]

theorem aluSllw_eq_ofInt (a : Word) (n : Nat) :
    aluSllw a n = BitVec.ofInt 64 (Int.bmod ((a.toNat : Int) * 2 ^ n) (2 ^ 32)) := by
  rw [aluSllw_eq, Nat.cast_mul, Nat.cast_pow, Nat.cast_ofNat]

theorem aluSrlw_eq_ofInt (a : Word) (n : Nat) :
    aluSrlw a n = BitVec.ofInt 64 (Int.bmod ((a.toNat : Int) % 2 ^ 32 / 2 ^ n) (2 ^ 32)) := by
  rw [aluSrlw_eq]
  push_cast
  rfl

/-- Settles O12: each word operation is its integer result, read as a signed 32-bit value. -/
theorem wordArithmeticResults : Obligations.WordArithmeticResults := by
  intro s rd rs1 rs2 imm shamt a b gives
  refine ⟨?addiw, ?slliw, ?srliw, ?sraiw, ?addw, ?subw, ?sllw, ?srlw, ?sraw⟩
  case addiw => exact writeBack_completes_of_eq (aluAddw_immI_eq a imm)
  case slliw => exact writeBack_completes_of_eq (aluSllw_eq_ofInt a _)
  case srliw => exact writeBack_completes_of_eq (aluSrlw_eq_ofInt a _)
  case sraiw => exact writeBack_completes_of_eq (aluSraw_eq a _)
  case addw => exact writeBack_completes_of_eq (aluAddw_eq a b)
  case subw => exact writeBack_completes_of_eq (aluSubw_eq a b)
  case sllw => exact writeBack_completes_of_eq (by rw [aluSllw_eq_ofInt, shiftAmount32_eq])
  case srlw => exact writeBack_completes_of_eq (by rw [aluSrlw_eq_ofInt, shiftAmount32_eq])
  case sraw => exact writeBack_completes_of_eq (by rw [aluSraw_eq, shiftAmount32_eq])

end Sys2Proof.Machine
end

section
/-! PROOFS. The statements of 41_loads_stores.md: the loads and stores of RAM, their exceptions, and the fences. Every load is loadInto with
the extension of its width and every store is storeAt, so each statement about them is one lemma for every width, taken at each. -/

namespace Sys2Proof.Machine

/-! ### Loads from RAM (41_loads_stores.md R250 to R257; 20_memory.md R103, R110) -/

/-- R103: the little-endian value of the bytes of RAM at the given addresses, extended from its top bit or with 0. -/
theorem isLoaded_extendLow (s : State) (signed : Bool) {n : Nat} (hn : 0 < n) (hn8 : n ≤ 8) (pa : Nat → Word) :
    IsLoaded s n signed pa (extendLow signed n (leWord (((List.range n).map pa).map fun p => Memory.read s.mem p.toNat))) := by
  intro j hj
  rw [extendLow_getLsbD signed hn _ hj, leBit]
  by_cases hlow : j < 8 * n
  · rw [if_pos hlow, if_pos hlow, leWord_map_getLsbD _ _ _ _ hj, if_pos hlow]
  · rw [if_neg hlow, if_neg hlow, leWord_map_getLsbD _ _ _ _ (by omega), if_pos (by omega),
      show (8 * n - 1) / 8 = n - 1 by omega, show (8 * n - 1) % 8 = 7 by omega]

theorem loadInto_ram {s : State} {va : Word} {n : Nat} {pa : Nat → Word} (rd : Reg) (signed : Bool) (hn : 0 < n) (hn8 : n ≤ 8)
    (h : BytesAt s .load va n pa) (hr : AllInRam s n pa) :
    ∃ v, IsLoaded s n signed pa v ∧ CompletesReg (loadInto rd va n (extendLow signed n) s) s rd v (s.pc + 4) := by
  obtain ⟨t, ht, hret, hreg, hmem, hresv, hplat, hdraws, hev⟩ :=
    loadInto_completes (memRead_ram hn h hr) rd (extendLow signed n)
  exact ⟨_, isLoaded_extendLow s signed hn hn8 pa, t, ht, hret, hreg, hmem, hresv, hplat, hdraws, hev⟩

/-- Settles O16: each load is loadInto with the extension of its width. -/
theorem loadsFromRam : Obligations.LoadsFromRam := by
  intro s rd rs1 imm pa ea gives
  refine ⟨?lb, ?lh, ?lw, ?ld, ?lbu, ?lhu, ?lwu⟩
  case lb | lh | lw => exact loadInto_ram rd true (by decide) (by decide)
  case ld =>
    intro h hr
    rw [exec_ld_eq_loadInto]
    exact loadInto_ram rd true (by decide) (by decide) h hr
  case lbu | lhu | lwu => exact loadInto_ram rd false (by decide) (by decide)

/-! ### Stores to RAM (41_loads_stores.md R258 to R261; 20_memory.md R111; 45_atomics.md R360 (e)) -/

/-- R111: the addresses of one access differ, so each byte written reads as written, and every other byte as before. -/
theorem storesBytes_writeAll {s t : State} {va : Word} {n : Nat} {pa : Nat → Word} (v : Word) (hn8 : n ≤ 8)
    (h : BytesAt s .store va n pa) (hm : Memory.wf s.mem = true)
    (ht : t.mem = Memory.writeAll s.mem ((List.range n).map pa) ((List.range n).map fun k => v.extractLsb' (8 * k) 8)) :
    StoresBytes s t n pa v := by
  rw [StoresBytes, ht]
  exact Memory.read_writeAll hm n pa _ fun _ _ hj hk => h.inj hn8 hj hk

theorem storeAt_ram {s : State} {va : Word} {n : Nat} {pa : Nat → Word} (v : Word) (hn : 0 < n) (hn8 : n ≤ 8)
    (h : BytesAt s .store va n pa) (hr : AllInRam s n pa) (hm : Memory.wf s.mem = true) :
    ∃ t, storeAt va n v s = .next t ∧ Retired s t (s.pc + 4) ∧ KeepsRegs s t ∧ StoresBytes s t n pa v ∧
      ResvAfterStore s t n pa ∧ NoHost s t := by
  rw [storeAt, memWrite_ram hn h hr]
  exact ⟨_, rfl, retired_retire rfl rfl _, fun _ => rfl, storesBytes_writeAll v hn8 h hm rfl, resvAfterWrite_spec s n pa,
    rfl, rfl, rfl⟩

/-- Settles O18: each store is storeAt at its width. -/
theorem storesToRam : Obligations.StoresToRam := by
  intro s rs1 rs2 imm pa ea gives
  refine ⟨?sb, ?sh, ?sw, ?sd⟩
  case sb | sh | sw | sd => exact storeAt_ram (s.reg rs2) (by decide) (by decide)

/-! ### Exceptions (41_loads_stores.md R264; 20_memory.md R110 to R112) -/

/-- Settles O20: the checks stop at the first byte that fails, before any transfer. -/
theorem firstFailingByteTraps : Obligations.FirstFailingByteTraps := by
  intro s r1 r2 imm k e ea trapsWith
  refine ⟨?lb, ?lh, ?lw, ?ld, ?lbu, ?lhu, ?lwu, ?sb, ?sh, ?sw, ?sd⟩
  case lb | lh | lw | ld | lbu | lhu | lwu => exact fun hk h => loadInto_traps hk h r2 _
  case sb | sh | sw | sd => exact fun hk h => storeAt_traps hk h (s.reg r2)

/-! ### Fences (41_loads_stores.md R262, R263) -/

/-- Settles O21: both fences retire at pc + 4, whatever their fields. -/
theorem fencesOnlyAdvance : Obligations.FencesOnlyAdvance := fun s _ _ _ _ _ _ =>
  ⟨retire_completes (s.pc + 4) s, retire_completes (s.pc + 4) s⟩

end Sys2Proof.Machine
end

section
/-! PROOFS. The statements of 42_control_transfer.md. The branches share `branch` (R290) and the jumps end in transferTo from the state that
holds the link (R280), so each statement is one lemma for the shared operation, taken at the condition or the target of each instruction. -/

namespace Sys2Proof.Machine

/-! ### Conditional branches (42_control_transfer.md R281 to R286, R290) -/

theorem cmpLt_iff (a b : Word) : cmpLt a b = true ↔ a.toInt < b.toInt := decide_eq_true_iff

theorem cmpLtu_iff (a b : Word) : cmpLtu a b = true ↔ a.toNat < b.toNat := decide_eq_true_iff

theorem not_cmpLt_iff (a b : Word) : (!cmpLt a b) = true ↔ a.toInt ≥ b.toInt := by
  rw [Bool.not_eq_true', ← Bool.not_eq_true, cmpLt_iff, not_lt]

theorem not_cmpLtu_iff (a b : Word) : (!cmpLtu a b) = true ↔ a.toNat ≥ b.toNat := by
  rw [Bool.not_eq_true', ← Bool.not_eq_true, cmpLtu_iff, not_lt]

/-- R280, R290: a taken branch retires at its target or traps on it; one that is not taken retires at pc + 4, whatever the target. -/
theorem branch_outcome {cond : Bool} {taken : Prop} (h : cond = true ↔ taken) (imm : BitVec 13) (s : State) :
    let target : Word := BitVec.ofInt 64 (s.pc.toInt + imm.toInt)
    (taken → target.toNat % 4 = 0 → CompletesOnlyPc (branch cond imm s) s target) ∧
    (taken → target.toNat % 4 ≠ 0 → Traps (branch cond imm s) s .instrAddrMisaligned target) ∧
    (¬ taken → CompletesOnlyPc (branch cond imm s) s (s.pc + 4)) := by
  intro target
  have htaken (ht : taken) : branch cond imm s = transferTo target s s := by
    rw [branch, if_pos (h.2 ht), immB, add_signExtend]
  refine ⟨fun ht haligned => ?_, fun ht hmis => ?_, fun hnot => ?_⟩
  · rw [htaken ht, transferTo_aligned haligned]
    exact retire_completes target s
  · rw [htaken ht]
    exact transferTo_misaligned hmis s s
  · rw [branch, if_neg (mt h.1 hnot)]
    exact retire_completes (s.pc + 4) s

/-- Settles O22: each branch is `branch` at its comparison. -/
theorem conditionalBranches : Obligations.ConditionalBranches := by
  intro s rs1 rs2 imm a b target branches
  refine ⟨?beq, ?bne, ?blt, ?bge, ?bltu, ?bgeu⟩
  case beq => exact branch_outcome beq_iff_eq imm s
  case bne => exact branch_outcome bne_iff_ne imm s
  case blt => exact branch_outcome (cmpLt_iff a b) imm s
  case bge => exact branch_outcome (not_cmpLt_iff a b) imm s
  case bltu => exact branch_outcome (cmpLtu_iff a b) imm s
  case bgeu => exact branch_outcome (not_cmpLtu_iff a b) imm s

/-! ### Jumps (42_control_transfer.md R287, R288) -/

/-- R280: writeBack_completes with any next pc in place of pc + 4. -/
theorem retire_setReg_completes (rd : Reg) (v npc : Word) (s : State) :
    CompletesReg (.next (retire npc (s.setReg rd v))) s rd v npc := by
  refine ⟨_, rfl, retired_retire ?_ ?_ _, writesReg_retire_setReg rfl _ rd v, fun a => ?_, ?_, ?_, ?_, ?_⟩ <;> simp

/-- R280: a jump with link commits the link and the target together, or traps on the target with the link unwritten. -/
theorem transferTo_link_outcome (rd : Reg) (v : Word) (s : State) {t target : Word} (h : t = target) :
    (target.toNat % 4 = 0 → CompletesReg (transferTo t (s.setReg rd v) s) s rd v target) ∧
    (target.toNat % 4 ≠ 0 → Traps (transferTo t (s.setReg rd v) s) s .instrAddrMisaligned target) := by
  subst h
  refine ⟨fun haligned => ?_, fun hmis => transferTo_misaligned hmis _ s⟩
  rw [transferTo_aligned haligned]
  exact retire_setReg_completes rd v t s

/-- R288: JALR's target is the sum of the register and the offset, rounded down to an even number. -/
theorem add_immI_clear_bit0 (a : Word) (imm : BitVec 12) :
    (a + immI imm) &&& ~~~1#64 = BitVec.ofInt 64 ((a.toInt + imm.toInt) / 2 * 2) := by
  rw [add_immI_eq, clear_bit0]

/-- Settles O23: both jumps are transferTo from the linked state, whose target is computed before rd is written. -/
theorem jumpsAndLinks : Obligations.JumpsAndLinks := by
  intro s rd rs1 imm off jumps
  refine ⟨?jal, ?jalr⟩
  case jal => exact transferTo_link_outcome rd (s.pc + 4) s (add_signExtend s.pc off)
  case jalr => exact transferTo_link_outcome rd (s.pc + 4) s (add_immI_clear_bit0 (s.reg rs1) imm)

end Sys2Proof.Machine
end

section
/-! PROOFS. The statements of 43_zicsr.md. The six instructions share csrOp (R300) and differ in its kind and its source field, so each
statement is one lemma about csrOp, taken at the kind and the source of each instruction. -/

namespace Sys2Proof.Machine

/-! ### When a check fails (43_zicsr.md R307, R308; 10_state.md R41 to R44, R46) -/

theorem csrDoesRead_readWrite (rd : Reg) : csrDoesRead .readWrite rd = decide (rd ≠ 0) := by
  rw [Bool.eq_iff_iff]
  simp [csrDoesRead]

theorem csrDoesWrite_of_ne {k : CsrKind} (hk : k ≠ .readWrite) (f : BitVec 5) : csrDoesWrite k f = decide (f ≠ 0) := by
  rw [Bool.eq_iff_iff]
  simp [csrDoesWrite, hk]

/-- The six instructions (R301 to R306), each with whether it reads and whether it writes its CSR (R307). -/
def zicsrForms (rd : Reg) (a : CsrAddr) (rs1 : Reg) : List (Instr × Bool × Bool) :=
  [(.csrrw rd a rs1, decide (rd ≠ 0), true), (.csrrs rd a rs1, true, decide (rs1 ≠ 0)),
    (.csrrc rd a rs1, true, decide (rs1 ≠ 0)), (.csrrwi rd a rs1, decide (rd ≠ 0), true),
    (.csrrsi rd a rs1, true, decide (rs1 ≠ 0)), (.csrrci rd a rs1, true, decide (rs1 ≠ 0))]

/-- R300 to R306: each of the six instructions is csrOp, which reads and writes as the list says. -/
theorem exec_zicsrForm {rd rs1 : Reg} {a : CsrAddr} {i : Instr} {reads writes : Bool}
    (hi : (i, reads, writes) ∈ zicsrForms rd a rs1) (s : State) :
    ∃ k src, exec i s = csrOp k rd a rs1 src (encode i) s ∧ reads = csrDoesRead k rd ∧ writes = csrDoesWrite k rs1 := by
  have hset := csrDoesWrite_of_ne (k := .readSet) (by decide) rs1
  have hclear := csrDoesWrite_of_ne (k := .readClear) (by decide) rs1
  simp only [zicsrForms, List.mem_cons, List.not_mem_nil, or_false, Prod.mk.injEq] at hi
  rcases hi with ⟨rfl, rfl, rfl⟩ | ⟨rfl, rfl, rfl⟩ | ⟨rfl, rfl, rfl⟩ | ⟨rfl, rfl, rfl⟩ | ⟨rfl, rfl, rfl⟩ | ⟨rfl, rfl, rfl⟩
  · exact ⟨.readWrite, s.reg rs1, rfl, (csrDoesRead_readWrite rd).symm, rfl⟩
  · exact ⟨.readSet, s.reg rs1, rfl, rfl, hset.symm⟩
  · exact ⟨.readClear, s.reg rs1, rfl, rfl, hclear.symm⟩
  · exact ⟨.readWrite, immCsr rs1, rfl, (csrDoesRead_readWrite rd).symm, rfl⟩
  · exact ⟨.readSet, immCsr rs1, rfl, rfl, hset.symm⟩
  · exact ⟨.readClear, immCsr rs1, rfl, rfl, hclear.symm⟩

/-- Settles O29: csrOp checks csrLegal, which asks for each access the instruction makes what the statement asks. -/
theorem csrAccessChecks : Obligations.CsrAccessChecks := by
  rintro s rd rs1 a ⟨i, reads, writes⟩ hi implemented readLegal writeLegal legal
  obtain ⟨k, src, hexec, rfl, rfl⟩ := exec_zicsrForm hi s
  have himplemented : csrImplemented s a = true ↔ implemented := by rw [csrImplemented_iff, csrAt_isSome_iff]
  have hread : csrReadLegal s a = true ↔ readLegal := by rw [csrReadLegal_iff, himplemented]
  have hwrite : csrWriteLegal s a = true ↔ writeLegal := by rw [csrWriteLegal_iff, hread]
  have hlegal : csrLegal k rd a rs1 s = true ↔ legal := by rw [csrLegal_iff, hread, hwrite]
  rw [← hlegal, hexec]
  refine ⟨fun h => csrOp_illegal h src _, fun h => ?_⟩
  obtain ⟨hpc, hresult, hpriv, hmem, -⟩ := csrCommit_frame k rd a rs1 src s
  exact ⟨_, csrOp_legal h src _, hresult, hpc, hpriv, fun b => by rw [hmem]⟩

/-! ### The writable CSRs (43_zicsr.md R300 to R306; 10_state.md R45, R47 to R58) -/

/-- R300: read-write, which may skip the read, does not write what it read. -/
theorem csrNew_csrOld (k : CsrKind) (rd : Reg) (a : CsrAddr) (src : Word) (s : State) :
    csrNew k (csrOld k rd a s) src = csrNew k (csrRead s a) src := by
  cases k <;> rfl

theorem csrLegal_of_writeLegal {s : State} {a : CsrAddr} (h : csrWriteLegal s a = true) (k : CsrKind) (rd : Reg) (f : BitVec 5) :
    csrLegal k rd a f s = true :=
  (csrLegal_iff ..).2 ⟨fun _ => ((csrWriteLegal_iff s a).1 h).1, fun _ => h⟩

section
variable {c : WritableCsr} (hc : c ∈ writableCsrs) {s : State} (hp : minPrivOf c.addr ≤ s.priv.code.toNat)
include hc hp

theorem csrWriteLegal_writable : csrWriteLegal s c.addr = true := by
  obtain ⟨_, hat, -, hro, -⟩ := writableCsr_spec hc
  exact (csrWriteLegal_iff ..).2 ⟨(csrReadLegal_iff ..).2 ⟨csrImplemented_listed hat s, hp⟩, hro⟩

/-- R300: csrOp on a row of the table gives x[rd] the row's view and, when it writes, stores its new value by the row's write rule. -/
theorem csrOp_writable (k : CsrKind) (rd : Reg) (f : BitVec 5) (src : Word) (w : InstrWord) :
    CompletesCsr (csrOp k rd c.addr f src w s) s rd (c.view s.csr)
      (if csrDoesWrite k f then c.after s.csr (csrNew k (c.view s.csr) src) else s.csr) := by
  obtain ⟨reg, hat, hdraws, -, hview, hafter⟩ := writableCsr_spec hc
  have hread : csrRead s c.addr = c.view s.csr := (csrRead_listed hat s).trans (hview s)
  obtain ⟨hpc, hresult, hpriv, hmem, hresv, hplatform, hevents, hwrites⟩ := csrCommit_frame k rd c.addr f src s
  refine ⟨_, csrOp_legal (csrLegal_of_writeLegal (csrWriteLegal_writable hc hp) k rd f) src w, hpc, hresult, hpriv, ?csr,
    hread ▸ writesReg_csrOld hwrites, fun a => by rw [hmem], hresv, hplatform, ?draws, hevents⟩
  case csr => rw [csrCommit_csr hat, csrNew_csrOld, hread, hafter]
  case draws => rw [csrCommit_draws hat, hdraws, Nat.add_zero, ite_self]

/-- R301, R304: read-write always writes, whatever its source field. -/
theorem csrOp_readWrite_writable (rd : Reg) (f : BitVec 5) (src : Word) (w : InstrWord) :
    CompletesCsr (csrOp .readWrite rd c.addr f src w s) s rd (c.view s.csr) (c.after s.csr src) :=
  csrOp_writable hc hp .readWrite rd f src w

/-- R302, R303, R305, R306, R307: set and clear write exactly when their source field is not zero. -/
theorem csrOp_setClear_writable {k : CsrKind} (hk : k ≠ .readWrite) (rd : Reg) (f : BitVec 5) (src : Word) (w : InstrWord) :
    CompletesCsr (csrOp k rd c.addr f src w s) s rd (c.view s.csr)
      (if f = 0 then s.csr else c.after s.csr (csrNew k (c.view s.csr) src)) := by
  have h := csrOp_writable hc hp k rd f src w
  simp only [csrDoesWrite_of_ne hk, decide_eq_true_eq, ite_not] at h
  exact h

end

/-- Settles O30: a register form is csrOp with x[rs1] as source, an immediate form with the zero-extended uimm. -/
theorem csrReadWriteForms : Obligations.CsrReadWriteForms := by
  intro s rd rs1 uimm c hc hp old x u gives
  have hu : u = immCsr uimm := BitVec.ofNat_toNat 64 uimm
  rw [hu]
  refine ⟨?csrrw, ?csrrs, ?csrrc, ?csrrwi, ?csrrsi, ?csrrci⟩
  case csrrw => exact csrOp_readWrite_writable hc hp rd rs1 x _
  case csrrs => exact csrOp_setClear_writable hc hp (k := .readSet) (by decide) rd rs1 x _
  case csrrc => exact csrOp_setClear_writable hc hp (k := .readClear) (by decide) rd rs1 x _
  case csrrwi => exact csrOp_readWrite_writable hc hp rd uimm (immCsr uimm) _
  case csrrsi => exact csrOp_setClear_writable hc hp (k := .readSet) (by decide) rd uimm (immCsr uimm) _
  case csrrci => exact csrOp_setClear_writable hc hp (k := .readClear) (by decide) rd uimm (immCsr uimm) _

end Sys2Proof.Machine
end

section
/-! PROOFS. The statements of 44_muldiv.md. Every instruction of this family is a writeBack (R343: no operands trap), so each statement is
one equation for each instruction, between the value the model computes and its exact product, quotient or remainder. -/

namespace Sys2Proof.Machine

/-! ### Products (R330 to R333, R338) -/

/-- Settles O13: each product is the exact integer product, its low or its high half, or its low 32 bits sign-extended. -/
theorem multiplyResults : Obligations.MultiplyResults := by
  intro s rd rs1 rs2 a b gives
  refine ⟨?mul, ?mulh, ?mulhsu, ?mulhu, ?mulw⟩
  case mul => exact writeBack_completes_of_eq (ofInt_mul_toInt a b).symm
  case mulh => exact writeBack_completes_of_eq (mulHigh_eq a b)
  case mulhsu => exact writeBack_completes_of_eq (mulHighSU_eq a b)
  case mulhu => exact writeBack_completes_of_eq (mulHighU_eq a b)
  case mulw => exact writeBack_completes_of_eq (mulWord_eq a b)

/-! ### 64-bit divisions (R334 to R337) -/

/-- Settles O14: in the signed divisions the overflow case is the exact result, wrapped; the unsigned ones are the statement's own. -/
theorem divideResults : Obligations.DivideResults := by
  intro s rd rs1 rs2 a b gives
  refine ⟨?div, ?divu, ?rem, ?remu⟩
  case div => exact writeBack_completes_of_eq (divSigned_eq (by decide) a b)
  case rem => exact writeBack_completes_of_eq (remSigned_eq (by decide) a b)
  case divu | remu => exact writeBack_completes rd _ s

/-! ### Word divisions (R339 to R342): each is one integer, narrowed to 32 bits and then sign-extended (R231) -/

/-- R343: all ones, the quotient by zero, is -1. -/
theorem allOnes_eq_ofInt (n : Nat) : BitVec.allOnes n = BitVec.ofInt n (-1) := by
  rw [← BitVec.neg_one_eq_allOnes, BitVec.ofInt_neg]
  rfl

theorem eq_zero_iff_toNat {n : Nat} (b : BitVec n) : b = 0 ↔ b.toNat = 0 :=
  BitVec.toNat_eq

section
variable {n : Nat} (a b : BitVec n)

theorem divSigned_eq_ofInt (h : 1 < n) : divSigned a b = BitVec.ofInt n (if b.toNat = 0 then -1 else a.toInt.tdiv b.toInt) := by
  simp only [divSigned_eq h, eq_zero_iff_toNat, allOnes_eq_ofInt, apply_ite (BitVec.ofInt n)]

theorem divUnsigned_eq_ofInt : divUnsigned a b = BitVec.ofInt n (if b.toNat = 0 then -1 else (a.toNat / b.toNat : Nat)) := by
  simp only [divUnsigned, eq_zero_iff_toNat, allOnes_eq_ofInt, apply_ite (BitVec.ofInt n), BitVec.ofInt_natCast]

theorem remSigned_eq_ofInt (h : 1 < n) : remSigned a b = BitVec.ofInt n (if b.toNat = 0 then a.toInt else a.toInt.tmod b.toInt) := by
  simp only [remSigned_eq h, eq_zero_iff_toNat, apply_ite (BitVec.ofInt n), BitVec.ofInt_toInt]

theorem remUnsigned_eq_ofInt :
    remUnsigned a b = BitVec.ofInt n (if b.toNat = 0 then a.toNat else (a.toNat % b.toNat : Nat)) := by
  simp only [remUnsigned, eq_zero_iff_toNat, apply_ite (BitVec.ofInt n), BitVec.ofInt_natCast, BitVec.ofNat_toNat, BitVec.setWidth_eq]

end

theorem lowWord_toInt_low (a : Word) : (lowWord a).toInt = Int.bmod (a.toNat % 2 ^ 32 : Nat) (2 ^ 32) := by
  rw [lowWord_toInt, bmod_toNat_low]

/-- R231: a word result that is an integer narrowed to 32 bits completes with that integer, read as a signed 32-bit value. -/
theorem writeBack_sextWord_completes {rd : Reg} {r : BitVec 32} {v : Int} {s : State} (h : r = BitVec.ofInt 32 v) :
    CompletesReg (writeBack rd (sextWord r) s) s rd (BitVec.ofInt 64 (Int.bmod v (2 ^ 32))) (s.pc + 4) :=
  writeBack_completes_of_eq (h ▸ sextWord_ofInt v)

/-- Settles O15: each word division is the division of the two low words, read as the statement reads them. -/
theorem wordDivideResults : Obligations.WordDivideResults := by
  intro s rd rs1 rs2 a b sa sb gives
  have ha : (lowWord (s.reg rs1)).toNat = a := lowWord_toNat _
  have hb : (lowWord (s.reg rs2)).toNat = b := lowWord_toNat _
  have hsa : (lowWord (s.reg rs1)).toInt = sa := lowWord_toInt_low _
  have hsb : (lowWord (s.reg rs2)).toInt = sb := lowWord_toInt_low _
  refine ⟨?divw, ?divuw, ?remw, ?remuw⟩
  case divw => exact writeBack_sextWord_completes (by rw [divSigned_eq_ofInt _ _ (by decide), hb, hsa, hsb])
  case divuw => exact writeBack_sextWord_completes (by rw [divUnsigned_eq_ofInt, ha, hb])
  case remw => exact writeBack_sextWord_completes (by rw [remSigned_eq_ofInt _ _ (by decide), hb, hsa, hsb])
  case remuw => exact writeBack_sextWord_completes (by rw [remUnsigned_eq_ofInt, ha, hb])

end Sys2Proof.Machine
end

section
/-! PROOFS. The statements of 45_atomics.md. Every atomic begins with atomicAddr (R360) and is then loadReserved, storeConditional or amo at
its width, so each statement is one lemma for the shared operation, taken at each instruction; and what an instruction does to the
reservation is read off the ways it commits. -/

namespace Sys2Proof.Machine

/-! ### Each instruction as a shared operation (45_atomics.md R361 to R382) -/

section
variable {s : State} {rd rs1 rs2 : Reg} {aq rl : Bool}

theorem exec_lrW : exec (.lrW rd rs1 aq rl) s = loadReserved rd rs1 4 (fun v => sextWord (lowWord v)) s := rfl
theorem exec_lrD : exec (.lrD rd rs1 aq rl) s = loadReserved rd rs1 8 (fun v => v) s := rfl
theorem exec_scW : exec (.scW rd rs1 rs2 aq rl) s = storeConditional rd rs1 rs2 4 s := rfl
theorem exec_scD : exec (.scD rd rs1 rs2 aq rl) s = storeConditional rd rs1 rs2 8 s := rfl
theorem exec_amoswapW : exec (.amoswapW rd rs1 rs2 aq rl) s = amoWord rd rs1 rs2 (fun _ r => r) s := rfl
theorem exec_amoaddW : exec (.amoaddW rd rs1 rs2 aq rl) s = amoWord rd rs1 rs2 (fun m r => m + r) s := rfl
theorem exec_amoxorW : exec (.amoxorW rd rs1 rs2 aq rl) s = amoWord rd rs1 rs2 (fun m r => m ^^^ r) s := rfl
theorem exec_amoandW : exec (.amoandW rd rs1 rs2 aq rl) s = amoWord rd rs1 rs2 (fun m r => m &&& r) s := rfl
theorem exec_amoorW : exec (.amoorW rd rs1 rs2 aq rl) s = amoWord rd rs1 rs2 (fun m r => m ||| r) s := rfl
theorem exec_amominW : exec (.amominW rd rs1 rs2 aq rl) s = amoWord rd rs1 rs2 amoMin s := rfl
theorem exec_amomaxW : exec (.amomaxW rd rs1 rs2 aq rl) s = amoWord rd rs1 rs2 amoMax s := rfl
theorem exec_amominuW : exec (.amominuW rd rs1 rs2 aq rl) s = amoWord rd rs1 rs2 amoMinu s := rfl
theorem exec_amomaxuW : exec (.amomaxuW rd rs1 rs2 aq rl) s = amoWord rd rs1 rs2 amoMaxu s := rfl
theorem exec_amoswapD : exec (.amoswapD rd rs1 rs2 aq rl) s = amoDouble rd rs1 rs2 (fun _ r => r) s := rfl
theorem exec_amoaddD : exec (.amoaddD rd rs1 rs2 aq rl) s = amoDouble rd rs1 rs2 (fun m r => m + r) s := rfl
theorem exec_amoxorD : exec (.amoxorD rd rs1 rs2 aq rl) s = amoDouble rd rs1 rs2 (fun m r => m ^^^ r) s := rfl
theorem exec_amoandD : exec (.amoandD rd rs1 rs2 aq rl) s = amoDouble rd rs1 rs2 (fun m r => m &&& r) s := rfl
theorem exec_amoorD : exec (.amoorD rd rs1 rs2 aq rl) s = amoDouble rd rs1 rs2 (fun m r => m ||| r) s := rfl
theorem exec_amominD : exec (.amominD rd rs1 rs2 aq rl) s = amoDouble rd rs1 rs2 amoMin s := rfl
theorem exec_amomaxD : exec (.amomaxD rd rs1 rs2 aq rl) s = amoDouble rd rs1 rs2 amoMax s := rfl
theorem exec_amominuD : exec (.amominuD rd rs1 rs2 aq rl) s = amoDouble rd rs1 rs2 amoMinu s := rfl
theorem exec_amomaxuD : exec (.amomaxuD rd rs1 rs2 aq rl) s = amoDouble rd rs1 rs2 amoMaxu s := rfl

end

/-! ### The bytes and the value at an atomic's address (45_atomics.md R360 (b) to (d); 20_memory.md R103) -/

section
variable {s : State} {K : Access} {va pa old : Word} {n : Nat}

/-- R360 (b): translation keeps the offset in the page, so the physical address is aligned as the virtual one is, and no byte of the
access wraps around the address space. -/
theorem AtomicAt.toNat_add (h : AtomicAt s K va n pa old) (hn : n = 4 ∨ n = 8) {k : Nat} (hk : k < n) :
    (pa + BitVec.ofNat 64 k).toNat = pa.toNat + k := by
  obtain ⟨halign, htrans, -⟩ := h
  have hoffset := (translate_ok htrans).1
  have hlt := pa.isLt
  rw [BitVec.toNat_add, BitVec.toNat_ofNat]
  rcases hn with rfl | rfl <;> omega

/-- R106: PhysWrite at the address stores the low `n` bytes and leaves every other byte. -/
theorem AtomicAt.storesBytes (h : AtomicAt s K va n pa old) (hn : n = 4 ∨ n = 8) (hm : Memory.wf s.mem = true) {t : State} {v : Word}
    (ht : t.mem = physWrite s.mem pa.toNat n v) : StoresBytes s t n (fun k => pa + BitVec.ofNat 64 k) v := by
  rw [StoresBytes, ht]
  refine ⟨fun k hk => ?_, fun a hout => ?_⟩
  · rw [h.toNat_add hn hk, read_physWrite hm, if_pos (by omega), Nat.add_sub_cancel_left]
  · rw [read_physWrite hm, if_neg]
    rintro ⟨hlo, hhi⟩
    have hne := hout (a - pa.toNat) (by omega)
    rw [h.toNat_add hn (by omega)] at hne
    omega

theorem lowWord_eq_setWidth (v : Word) : lowWord v = v.setWidth 32 :=
  (BitVec.setWidth_eq_extractLsb' (by decide)).symm

theorem AtomicAt.lowWord_physRead (h : AtomicAt s K va 4 pa old) : lowWord (Machine.physRead s.mem pa.toNat 4) = old.setWidth 32 := by
  rw [h.physRead, ← lowWord_eq_setWidth]
  apply BitVec.eq_of_toNat_eq
  rw [lowWord_toNat, lowWord_toNat, BitVec.toNat_ofNat]
  omega

theorem AtomicAt.physRead_eight (h : AtomicAt s K va 8 pa old) : Machine.physRead s.mem pa.toNat 8 = old := by
  rw [h.physRead, Nat.mod_eq_of_lt old.isLt, BitVec.ofNat_toNat, BitVec.setWidth_eq]

end

/-! ### Load-reserved (45_atomics.md R361, R362) -/

/-- R361, R362: x[rd] is the extended value and the reservation holds the physical address, which lies below 2^56. -/
theorem loadReserved_completes {s : State} {rs1 : Reg} {n : Nat} {pa old v : Word} {ext : Word → Word} (rd : Reg)
    (hp : s.platform.wf = true) (h : AtomicAt s .load (s.reg rs1) n pa old) (hn : 0 < n)
    (hv : ext (physRead s.mem pa.toNat n) = v) :
    ∃ t a, loadReserved rd rs1 n ext s = .next t ∧ Retired s t (s.pc + 4) ∧ WritesReg s t rd v ∧ KeepsMem s t ∧
      t.resv = some a ∧ a.toNat = pa.toNat ∧ NoHost s t := by
  have hlow : (pa.setWidth 56).toNat = pa.toNat := by
    obtain ⟨-, -, -, hend, -⟩ := (Platform.wf_iff _).1 hp
    obtain ⟨-, -, -, hhi, -⟩ := h
    rw [BitVec.toNat_setWidth]
    omega
  rw [loadReserved, atomicAddr_ok h, ← hv]
  exact ⟨_, pa.setWidth 56, rfl, retired_retire (by simp) (by simp) _, writesReg_retire_setReg rfl _ rd _, fun _ => by simp, by simp,
    hlow, by simp, by simp, by simp⟩

/-- Settles O24: LR.W sign-extends the word it reads, LR.D takes the doubleword as it is. -/
theorem loadReservedResults : Obligations.LoadReservedResults := by
  intro s rd rs1 aq rl pa old gives
  refine ⟨fun hp h => ?lrW, fun hp h => ?lrD⟩
  case lrW =>
    rw [exec_lrW]
    refine loadReserved_completes rd hp h (by decide) ?_
    rw [h.lowWord_physRead, ← lowWord_eq_setWidth, sextWord, signExtend_eq_ofInt, lowWord_toInt]
  case lrD =>
    rw [exec_lrD]
    exact loadReserved_completes rd hp h (by decide) h.physRead_eight

/-! ### Store-conditional (45_atomics.md R363, R364, R383) -/

theorem reservedAt_iff (s : State) (pa : Word) : reservedAt s pa = true ↔ ∃ a, s.resv = some a ∧ a.toNat = pa.toNat := by
  cases hres : s.resv with
  | none => simp [reservedAt, hres]
  | some a =>
    have hlow : (a.setWidth 64).toNat = a.toNat := BitVec.toNat_setWidth_of_le (by decide)
    simp only [reservedAt, hres, beq_iff_eq, Option.some.injEq, exists_eq_left']
    rw [← BitVec.toNat_inj, hlow]

/-- R383: with the reservation on its address SC stores and writes 0, without it SC writes 1; both drop the reservation. -/
theorem storeConditional_completes {s : State} {rs1 : Reg} {n : Nat} {pa old : Word} (rd rs2 : Reg) (hn : n = 4 ∨ n = 8)
    (hm : Memory.wf s.mem = true) (h : AtomicAt s .store (s.reg rs1) n pa old) :
    ∃ t, storeConditional rd rs1 rs2 n s = .next t ∧ Retired s t (s.pc + 4) ∧ t.resv = none ∧ NoHost s t ∧
      ((∃ a, s.resv = some a ∧ a.toNat = pa.toNat) →
        WritesReg s t rd 0 ∧ StoresBytes s t n (fun k => pa + BitVec.ofNat 64 k) (s.reg rs2)) ∧
      (¬ (∃ a, s.resv = some a ∧ a.toNat = pa.toNat) → WritesReg s t rd 1 ∧ KeepsMem s t) := by
  rw [storeConditional, atomicAddr_ok h, ← reservedAt_iff]
  dsimp only
  by_cases hres : reservedAt s pa = true
  · rw [if_pos hres]
    exact ⟨_, rfl, retired_retire (by simp) (by simp) _, by simp, ⟨by simp, by simp, by simp⟩,
      fun _ => ⟨writesReg_retire_setReg rfl _ rd 0, h.storesBytes hn hm (by simp)⟩, fun hno => absurd hres hno⟩
  · rw [if_neg hres]
    exact ⟨_, rfl, retired_retire (by simp) (by simp) _, by simp, ⟨by simp, by simp, by simp⟩,
      fun hyes => absurd hyes hres, fun _ => ⟨writesReg_retire_setReg rfl _ rd 1, fun _ => by simp⟩⟩

/-- Settles O25: both forms are storeConditional at their width. -/
theorem storeConditionalResults : Obligations.StoreConditionalResults := by
  intro s rd rs1 rs2 aq rl pa old gives
  refine ⟨?scW, ?scD⟩
  case scW => exact storeConditional_completes rd rs2 (.inl rfl)
  case scD => exact storeConditional_completes rd rs2 (.inr rfl)

/-! ### AMOs (45_atomics.md R365 to R382, R384 to R386) -/

/-- R360 (e) 1: a write at one address drops the reservation iff that address has its granule. -/
theorem resvAfterWrite_singleton (s : State) (pa : Word) :
    (InReservedGranule s pa → resvAfterWrite s.resv [pa] = none) ∧
    (¬ InReservedGranule s pa → resvAfterWrite s.resv [pa] = s.resv) := by
  obtain ⟨hdrop, hkeep⟩ := resvAfterWrite_spec s 1 fun _ => pa
  exact ⟨fun h => hdrop ⟨0, by decide, h⟩, fun h => hkeep fun _ _ => h⟩

/-- R384: the new value is stored, the extended old value goes to x[rd]. -/
theorem amo_completes {s : State} {rs1 rs2 : Reg} {n : Nat} {pa old v new : Word} {op : Word → Word → Word} {ext : Word → Word}
    (rd : Reg) (hn : n = 4 ∨ n = 8) (hm : Memory.wf s.mem = true) (h : AtomicAt s .store (s.reg rs1) n pa old)
    (hv : ext (physRead s.mem pa.toNat n) = v) (hnew : op (physRead s.mem pa.toNat n) (s.reg rs2) = new) :
    CompletesAtomic (amo rd rs1 rs2 n op ext s) s rd v pa n new := by
  rw [amo, atomicAddr_ok h, ← hv, ← hnew]
  obtain ⟨hdrop, hkeep⟩ := resvAfterWrite_singleton s pa
  exact ⟨_, rfl, retired_retire (by simp) (by simp) _, writesReg_retire_setReg rfl _ rd _, h.storesBytes hn hm (by simp),
    ⟨by simp, by simp, by simp⟩, by simpa using hdrop, by simpa using hkeep⟩

/-- R385: a .W AMO works on the memory word and the low word of x[rs2]. -/
theorem amoWord_completes {i : Instr} {s : State} {rd rs1 rs2 : Reg} {pa old : Word} {op : BitVec 32 → BitVec 32 → BitVec 32}
    {new : BitVec 32} (hi : exec i s = amoWord rd rs1 rs2 op s)
    (hnew : op (old.setWidth 32) ((s.reg rs2).setWidth 32) = new) (hm : Memory.wf s.mem = true)
    (h : AtomicAt s .store (s.reg rs1) 4 pa old) :
    CompletesAtomic (exec i s) s rd ((old.setWidth 32 : BitVec 32).signExtend 64) pa 4 (new.setWidth 64) := by
  rw [hi]
  exact amo_completes rd (.inl rfl) hm h (by rw [h.lowWord_physRead, sextWord])
    (by rw [h.lowWord_physRead, lowWord_eq_setWidth, hnew])

/-- R386: a .D AMO works on the memory doubleword and x[rs2]. -/
theorem amoDouble_completes {i : Instr} {s : State} {rd rs1 rs2 : Reg} {pa old new : Word} {op : Word → Word → Word}
    (hi : exec i s = amoDouble rd rs1 rs2 op s) (hnew : op old (s.reg rs2) = new)
    (hm : Memory.wf s.mem = true) (h : AtomicAt s .store (s.reg rs1) 8 pa old) : CompletesAtomic (exec i s) s rd old pa 8 new := by
  rw [hi]
  exact amo_completes rd (.inr rfl) hm h h.physRead_eight (by rw [h.physRead_eight, hnew])

section
variable {n : Nat} (m r : BitVec n)

theorem amoMin_eq : amoMin m r = if m.slt r then m else r := by
  simp only [amoMin, BitVec.slt_iff_toInt_lt]

theorem amoMax_eq : amoMax m r = if r.slt m then m else r := by
  simp only [amoMax, BitVec.slt_iff_toInt_lt, gt_iff_lt]

theorem amoMinu_eq : amoMinu m r = if m.ult r then m else r := by
  simp only [amoMinu, BitVec.ult_iff_lt, BitVec.lt_def]

theorem amoMaxu_eq : amoMaxu m r = if r.ult m then m else r := by
  simp only [amoMaxu, BitVec.ult_iff_lt, BitVec.lt_def, gt_iff_lt]

end

/-- Settles O26: each .W AMO is amoWord, and its operation is the one the statement writes. -/
theorem wordAtomicResults : Obligations.WordAtomicResults := by
  intro s rd rs1 rs2 aq rl pa old m r gives
  refine ⟨?swap, ?add, ?xor, ?and, ?or, ?min, ?max, ?minu, ?maxu⟩
  case swap => exact amoWord_completes exec_amoswapW rfl
  case add => exact amoWord_completes exec_amoaddW (BitVec.add_def m r)
  case xor => exact amoWord_completes exec_amoxorW rfl
  case and => exact amoWord_completes exec_amoandW rfl
  case or => exact amoWord_completes exec_amoorW rfl
  case min => exact amoWord_completes exec_amominW (amoMin_eq m r)
  case max => exact amoWord_completes exec_amomaxW (amoMax_eq m r)
  case minu => exact amoWord_completes exec_amominuW (amoMinu_eq m r)
  case maxu => exact amoWord_completes exec_amomaxuW (amoMaxu_eq m r)

/-- Settles O27: each .D AMO is amoDouble, and its operation is the one the statement writes. -/
theorem doublewordAtomicResults : Obligations.DoublewordAtomicResults := by
  intro s rd rs1 rs2 aq rl pa m r gives
  refine ⟨?swap, ?add, ?xor, ?and, ?or, ?min, ?max, ?minu, ?maxu⟩
  case swap => exact amoDouble_completes exec_amoswapD rfl
  case add => exact amoDouble_completes exec_amoaddD (BitVec.add_def m r)
  case xor => exact amoDouble_completes exec_amoxorD rfl
  case and => exact amoDouble_completes exec_amoandD rfl
  case or => exact amoDouble_completes exec_amoorD rfl
  case min => exact amoDouble_completes exec_amominD (amoMin_eq m r)
  case max => exact amoDouble_completes exec_amomaxD (amoMax_eq m r)
  case minu => exact amoDouble_completes exec_amominuD (amoMinu_eq m r)
  case maxu => exact amoDouble_completes exec_amomaxuD (amoMaxu_eq m r)

/-! ### The checks of the address (45_atomics.md R360 (b) to (d); 60_exceptions.md R432) -/

/-- An instruction that raises whatever atomicAddr raises for its address. -/
def RaisesAtomicFaults (o : Result) (s : State) (K : Access) (va : Word) (n : Nat) : Prop :=
  ∀ e, atomicAddr s K va n = .error e → o = raise e s

section
variable (s : State) (rd rs1 rs2 : Reg) (n : Nat)

theorem loadReserved_raises (ext : Word → Word) : RaisesAtomicFaults (loadReserved rd rs1 n ext s) s .load (s.reg rs1) n := by
  intro e h
  rw [loadReserved, h]

theorem storeConditional_raises : RaisesAtomicFaults (storeConditional rd rs1 rs2 n s) s .store (s.reg rs1) n := by
  intro e h
  rw [storeConditional, h]

theorem amo_raises (op : Word → Word → Word) (ext : Word → Word) :
    RaisesAtomicFaults (amo rd rs1 rs2 n op ext s) s .store (s.reg rs1) n := by
  intro e h
  rw [amo, h]

end

theorem accessFault_of_ne_fetch {K : Access} (hK : K ≠ .fetch) (va : Word) :
    accessFault K va = ⟨if K = .load then .loadAccessFault else .storeAccessFault, va⟩ := by
  cases K with
  | fetch => exact absurd rfl hK
  | load | store => rfl

/-- R360, R432: the three checks in their order, each with the exception it raises. -/
theorem RaisesAtomicFaults.traps {o : Result} {s : State} {K : Access} {va : Word} {n : Nat} (h : RaisesAtomicFaults o s K va n)
    (hK : K ≠ .fetch) :
    let af : ExcCause := if K = .load then .loadAccessFault else .storeAccessFault
    (va.toNat % n ≠ 0 → Traps o s af va) ∧
    (va.toNat % n = 0 →
      (∀ e, translate s K va = .error e → Traps o s e.cause e.tval) ∧
      (∀ pa, translate s K va = .ok pa →
        ¬ (s.platform.ramBase ≤ pa.toNat ∧ pa.toNat + n ≤ s.platform.ramBase + s.platform.ramSize) → Traps o s af va)) := by
  intro af
  have hfault (he : atomicAddr s K va n = .error (accessFault K va)) : Traps o s af va := by
    rw [accessFault_of_ne_fetch hK] at he
    exact h _ he
  refine ⟨fun hmis => ?misaligned, fun halign => ⟨fun e he => ?untranslated, fun pa ht hout => ?outside⟩⟩
  case misaligned => exact hfault (atomicAddr_misaligned hmis)
  case untranslated => exact h e (atomicAddr_untranslated halign he)
  case outside => exact hfault (atomicAddr_outside halign ht hout)

/-- Settles O28: each of the 22 is one of the three shared operations, all of which raise what atomicAddr raises. -/
theorem atomicAddressFaults : Obligations.AtomicAddressFaults := by
  intro s rd rs1 rs2 aq rl
  simp only [List.forall_mem_append, List.forall_mem_cons, List.not_mem_nil, false_implies, implies_true, and_true, reduceCtorEq, if_true,
    if_false, exec_lrW, exec_lrD, exec_scW, exec_scD, amoWord, exec_amoswapW, exec_amoaddW, exec_amoxorW, exec_amoandW, exec_amoorW,
    exec_amominW, exec_amomaxW, exec_amominuW, exec_amomaxuW, amoDouble, exec_amoswapD, exec_amoaddD, exec_amoxorD, exec_amoandD,
    exec_amoorD, exec_amominD, exec_amomaxD, exec_amominuD, exec_amomaxuD]
  refine ⟨⟨?lrW, ?lrD, ?scW, ?scD, ?swapW, ?addW, ?xorW, ?andW, ?orW, ?minW, ?maxW, ?minuW, ?maxuW⟩,
    ⟨?swapD, ?addD, ?xorD, ?andD, ?orD, ?minD, ?maxD, ?minuD, ?maxuD⟩⟩
  case lrW => exact (loadReserved_raises s rd rs1 4 _).traps (by decide)
  case lrD => exact (loadReserved_raises s rd rs1 8 _).traps (by decide)
  case scW => exact (storeConditional_raises s rd rs1 rs2 4).traps (by decide)
  case scD => exact (storeConditional_raises s rd rs1 rs2 8).traps (by decide)
  case swapW | addW | xorW | andW | orW | minW | maxW | minuW | maxuW => exact (amo_raises s rd rs1 rs2 4 _ _).traps (by decide)
  case swapD | addD | xorD | andD | orD | minD | maxD | minuD | maxuD => exact (amo_raises s rd rs1 rs2 8 _ _).traps (by decide)

/-! ### The reservation (45_atomics.md R360 (e); 60_exceptions.md R445; 10_state.md R39) -/

/-- What an instruction that goes on has done: it took its exception, or it retired after a commit. -/
theorem exec_next {i : Instr} {s t : State} (h : exec i s = .next t) :
    (∃ c tval, t = takeTrap c tval s.pc s) ∨ ∃ npc s1, t = retire npc s1 ∧ Commit i s npc s1 := by
  rcases exec_answers i s with ⟨e, he⟩ | ⟨npc, s1, he, hc⟩ | ⟨-, -, -, he⟩
  · rw [h] at he; injection he with he; exact .inl ⟨_, _, he⟩
  · rw [h] at he; injection he with he; exact .inr ⟨npc, s1, he, hc⟩
  · rw [h] at he; cases he

/-- R360 (e): a commit keeps the reservation, or drops it in a STORE or AMO opcode, or arms it in an LR. -/
theorem commit_resv {i : Instr} {s s1 : State} {npc : Word} (hc : Commit i s npc s1) :
    s1.resv = s.resv ∨
    (s1.resv = none ∧ ((encode i).extractLsb' 0 7 = 0b0100011#7 ∨ (encode i).extractLsb' 0 7 = 0b0101111#7)) ∨
    (∃ rd rs1 aq rl, i = .lrW rd rs1 aq rl ∨ i = .lrD rd rs1 aq rl) := by
  induction hc with
  | plain i s npc s1 _ _ _ hr => exact .inl hr
  | memory i s s1 _ _ _ _ hr hop => exact hr.imp_right fun hnone => .inl ⟨hnone, hop⟩
  | reserve i s s1 pa _ _ _ _ _ _ _ hlr => exact .inr (.inr hlr)
  | csrWrite i s s1 a c v _ _ _ _ _ _ hr => exact .inl hr
  | mret => exact .inl rfl
  | sret => exact .inl rfl

/-- R361, R362: the opcode of LR is AMO. -/
theorem opcode_loadReserved {i : Instr} (h : ∃ rd rs1 aq rl, i = .lrW rd rs1 aq rl ∨ i = .lrD rd rs1 aq rl) :
    (encode i).extractLsb' 0 7 = 0b0101111#7 := by
  obtain ⟨rd, rs1, aq, rl, rfl | rfl⟩ := h <;> exact opcode_wordAmo ..

/-- R383, R445: no outcome of an SC leaves a reservation. -/
theorem storeConditional_resv {rd rs1 rs2 : Reg} {n : Nat} {s t : State} (h : storeConditional rd rs1 rs2 n s = .next t) :
    t.resv = none := by
  rw [storeConditional] at h
  split at h
  · injection h with h
    rw [← h, takeTrap_resv]
  · split at h
    all_goals
      injection h with h
      rw [← h, retire_resv, State.setReg_resv]

/-- Settles O54: a trap drops the reservation, and each way to commit keeps it, drops it or is an LR. -/
theorem reservationChanges : Obligations.ReservationChanges := by
  intro i s t h
  have hsc : (∃ rd rs1 rs2 aq rl, i = .scW rd rs1 rs2 aq rl ∨ i = .scD rd rs1 rs2 aq rl) → t.resv = none := by
    rintro ⟨rd, rs1, rs2, aq, rl, rfl | rfl⟩ <;> exact storeConditional_resv h
  rcases exec_next h with ⟨c, tval, rfl⟩ | ⟨npc, s1, rfl, hc⟩
  · have hnone := takeTrap_resv c tval s.pc s
    refine ⟨.inr (.inl hnone), hsc, fun _ => hnone, fun hok => ?_⟩
    rw [takeTrap_result] at hok
    cases hok
  · refine ⟨?changes, hsc, fun hno => absurd (retire_result ..) hno, fun _ hstore hamo => ?keeps⟩
    case changes =>
      rcases commit_resv hc with hkeep | ⟨hnone, -⟩ | hlr
      · exact .inl hkeep
      · exact .inr (.inl hnone)
      · exact .inr (.inr hlr)
    case keeps =>
      rcases commit_resv hc with hkeep | ⟨-, hop | hop⟩ | hlr
      · exact hkeep
      · exact absurd hop hstore
      · exact absurd hop hamo
      · exact absurd (opcode_loadReserved hlr) hamo

end Sys2Proof.Machine
end

section
/-! PROOFS. The statements of 46_system.md. ECALL and EBREAK are a raise whatever the mode (R390, R391); the other four test the mode first
(R392), and then return from a trap (R393, R394, where what becomes of mstatus is read bit by bit) or only retire (R395, R396). -/

namespace Sys2Proof.Machine

/-! ### Each instruction as its mode test and a shared operation -/

section
variable {s : State}

theorem exec_ecall_user (h : s.priv = .user) : exec .ecall s = raise ⟨.ecallFromU, 0⟩ s := by
  show execEcall s = _
  rw [execEcall, h]

theorem exec_ecall_supervisor (h : s.priv = .supervisor) : exec .ecall s = raise ⟨.ecallFromS, 0⟩ s := by
  show execEcall s = _
  rw [execEcall, h]

theorem exec_ecall_machine (h : s.priv = .machine) : exec .ecall s = raise ⟨.ecallFromM, 0⟩ s := by
  show execEcall s = _
  rw [execEcall, h]

theorem exec_ebreak : exec .ebreak s = raise ⟨.breakpoint, s.pc⟩ s := rfl
theorem exec_mret : exec .mret s = if s.priv = .machine then xretM s else raiseIllegal (encode .mret) s := rfl
theorem exec_sret : exec .sret s = if s.priv = .user then raiseIllegal (encode .sret) s else xretS s := rfl
theorem exec_wfi : exec .wfi s = if s.priv = .user then raiseIllegal (encode .wfi) s else .next (retire (s.pc + 4) s) := rfl
theorem exec_sfenceVma {rs1 rs2 : Reg} : exec (.sfenceVma rs1 rs2) s =
    if s.priv = .user then raiseIllegal (encode (.sfenceVma rs1 rs2)) s else .next (retire (s.pc + 4) s) := rfl

end

theorem raise_traps (e : Exc) (s : State) : Traps (raise e s) s e.cause e.tval := rfl

/-- R44, R392: the trap value of an illegal instruction is its word. -/
theorem raiseIllegal_traps (w : InstrWord) (s : State) : Traps (raiseIllegal w s) s .illegalInstr (w.setWidth 64) := rfl

/-! ### Environment calls and breakpoints (46_system.md R390, R391; 60_exceptions.md R420, R422) -/

/-- R422: an exception's cause word is its code, without the interrupt bit. -/
theorem causeWord_exception (c : ExcCause) : causeWord (.exception c) = BitVec.ofNat 64 c.code := by
  simp [causeWord, Cause.isInterrupt, Cause.code]

/-- R440 to R442: the mode entered holds the cause word and the trap value in its own registers. -/
theorem takeTrap_cause_tval (c : Cause) (tval epc : Word) (s : State) :
    ((takeTrap c tval epc s).priv = .machine ∧ (takeTrap c tval epc s).csr.mcause = causeWord c ∧
      (takeTrap c tval epc s).csr.mtval = tval) ∨
    ((takeTrap c tval epc s).priv = .supervisor ∧ (takeTrap c tval epc s).csr.scause = causeWord c ∧
      (takeTrap c tval epc s).csr.stval = tval) := by
  rw [takeTrap]
  split
  · exact .inr ⟨rfl, rfl, rfl⟩
  · exact .inl ⟨rfl, rfl, rfl⟩

/-- R91, R422: an exception reports its code and trap value in the value step returns and in the registers of the mode entered. -/
theorem Traps.reports {o : Result} {s : State} {c : ExcCause} {tval : Word} (h : Traps o s c tval) :
    ∃ t, o = .next t ∧ t.result = some (.trapped c.code false tval) ∧
      ((t.priv = .machine ∧ t.csr.mcause = BitVec.ofNat 64 c.code ∧ t.csr.mtval = tval) ∨
       (t.priv = .supervisor ∧ t.csr.scause = BitVec.ofNat 64 c.code ∧ t.csr.stval = tval)) := by
  refine ⟨_, h, takeTrap_result .., ?_⟩
  rw [← causeWord_exception]
  exact takeTrap_cause_tval ..

/-- Settles O35: each is a raise, of the cause the mode selects or of a breakpoint at pc, and a trap reports what it was raised with. -/
theorem callsAndBreakpoints : Obligations.CallsAndBreakpoints := by
  intro s trapsWith
  refine ⟨fun hp => ?user, fun hp => ?supervisor, fun hp => ?machine, ?ebreak⟩
  case user =>
    have h : Traps (exec .ecall s) s .ecallFromU 0 := exec_ecall_user hp ▸ raise_traps _ s
    exact ⟨h, h.reports⟩
  case supervisor =>
    have h : Traps (exec .ecall s) s .ecallFromS 0 := exec_ecall_supervisor hp ▸ raise_traps _ s
    exact ⟨h, h.reports⟩
  case machine =>
    have h : Traps (exec .ecall s) s .ecallFromM 0 := exec_ecall_machine hp ▸ raise_traps _ s
    exact ⟨h, h.reports⟩
  case ebreak =>
    have h : Traps (exec .ebreak s) s .breakpoint s.pc := exec_ebreak ▸ raise_traps _ s
    exact ⟨h, h.reports⟩

/-! ### Returns from a trap (46_system.md R393, R394; 60_exceptions.md R450) -/

/-- R36: the mode MPP names is the one with that code. -/
theorem code_of_privOfMpp {v : BitVec 2} {p : Priv} (h : privOfMpp v = some p) : p.code = v := by
  have hall : ∀ v : BitVec 2, ∀ p ∈ privOfMpp v, p.code = v := by decide
  exact hall v p h

/-- R47: a legal MPP names the mode with its code. -/
theorem privOfMpp_of_mppLegal {s : State} (h : mppLegal s = true) :
    ∃ p, privOfMpp (getMpp s.csr.mstatus) = some p ∧ p.code.toNat = s.csr.mstatus.toNat / 2 ^ 11 % 4 := by
  have hne : getMpp s.csr.mstatus ≠ 2 := by simpa [mppLegal] using h
  have hsome : privOfMpp (getMpp s.csr.mstatus) ≠ none := privOfMpp_ne_none ((getMpp_eq_two_iff _).not.1 hne)
  obtain ⟨p, hp⟩ := Option.ne_none_iff_exists'.1 hsome
  exact ⟨p, hp, by rw [code_of_privOfMpp hp, getMpp_eq]⟩

/-- R393: MRET changes no bit of mstatus outside MIE, MPIE and MPP. -/
theorem mstatusMret_keepsOtherBits (m : Word) : KeepsOtherBits m (mstatusMret m) [3, 7, 11, 12] := by
  intro j hj
  simp only [List.mem_cons, List.not_mem_nil, or_false, not_or] at hj
  obtain ⟨h3, h7, h11, h12⟩ := hj
  rw [mstatusMret_getLsbD, if_neg h11, if_neg h12, if_neg h7, if_neg h3]

/-- R394: SRET changes no bit of mstatus outside SIE, SPIE and SPP. -/
theorem mstatusSret_keepsOtherBits (m : Word) : KeepsOtherBits m (mstatusSret m) [1, 5, 8] := by
  intro j hj
  simp only [List.mem_cons, List.not_mem_nil, or_false, not_or] at hj
  obtain ⟨h1, h5, h8⟩ := hj
  rw [mstatusSret_getLsbD, if_neg h8, if_neg h5, if_neg h1]

/-- Settles O36: below M the mode test raises; in M the mode MPP names is entered with the rest of R393, and retire counts the MRET. -/
theorem mretReturns : Obligations.MretReturns := by
  intro s
  refine ⟨fun hp => ?illegal, fun hp hmpp => ?returns⟩
  case illegal =>
    rw [exec_mret, if_neg hp]
    exact raiseIllegal_traps (encode .mret) s
  case returns =>
    obtain ⟨p, hpriv, hcode⟩ := privOfMpp_of_mppLegal hmpp
    have bit := mstatusMret_getLsbD s.csr.mstatus
    rw [exec_mret, if_pos hp, xretM, hpriv]
    exact ⟨_, rfl, rfl, hcode, bit 3, bit 7, bit 11, bit 12, mstatusMret_keepsOtherBits _, rfl, rfl, fun _ => rfl, fun _ => rfl, rfl,
      rfl, rfl, rfl⟩

/-- Settles O37: in U the mode test raises; in S and M the mode SPP names is entered with the rest of R394, and retire counts the SRET. -/
theorem sretReturns : Obligations.SretReturns := by
  intro s
  refine ⟨fun hp => ?illegal, fun hp => ?returns⟩
  case illegal =>
    rw [exec_sret, if_pos hp]
    exact raiseIllegal_traps (encode .sret) s
  case returns =>
    have bit := mstatusSret_getLsbD s.csr.mstatus
    rw [exec_sret, if_neg hp, xretS]
    exact ⟨_, rfl, rfl, rfl, bit 1, bit 5, bit 8, mstatusSret_keepsOtherBits _, rfl, rfl, fun _ => rfl, fun _ => rfl, rfl, rfl, rfl, rfl⟩

/-! ### WFI and SFENCE.VMA (46_system.md R395, R396) -/

/-- Settles O39: each is the mode test before a bare retirement at pc + 4. -/
theorem waitAndFenceVma : Obligations.WaitAndFenceVma := by
  intro s rs1 rs2
  rw [exec_wfi, exec_sfenceVma]
  refine ⟨fun hp => ?illegal, fun hp => ?advance⟩
  case illegal =>
    rw [if_pos hp, if_pos hp]
    exact ⟨raiseIllegal_traps (encode .wfi) s, raiseIllegal_traps (encode (.sfenceVma rs1 rs2)) s⟩
  case advance =>
    rw [if_neg hp, if_neg hp]
    exact ⟨retire_completes (s.pc + 4) s, retire_completes (s.pc + 4) s⟩

end Sys2Proof.Machine
end

section
/-! PROOFS. The statements of 60_exceptions.md. A step ends in a trap or in a commit (step_next): a trap is enterM or enterS (R440 to R442),
which say what it writes, and a commit below M-mode writes only CSRs that the mode may write (R41 to R43). -/

namespace Sys2Proof.Machine

/-! ### Which mode a trap enters (60_exceptions.md R440) -/

theorem targetsS_iff (c : Cause) (s : State) : targetsS c s = true ↔ delegated c s = true ∧ s.priv ≠ .machine := by
  rw [targetsS, Bool.and_eq_true, bne_iff_ne]

theorem takeTrap_machine {c : Cause} {s : State} (h : delegated c s = false ∨ s.priv = .machine) (tval epc : Word) :
    takeTrap c tval epc s = enterM c tval epc s := by
  refine if_neg fun hS => ?_
  obtain ⟨hdel, hp⟩ := (targetsS_iff c s).1 hS
  rcases h with h | h
  · rw [h] at hdel; cases hdel
  · exact hp h

theorem takeTrap_supervisor {c : Cause} {s : State} (hdel : delegated c s = true) (hp : s.priv ≠ .machine) (tval epc : Word) :
    takeTrap c tval epc s = enterS c tval epc s :=
  if_pos ((targetsS_iff c s).2 ⟨hdel, hp⟩)

/-! ### A step that traps (60_exceptions.md R444, R445) -/

/-- R91: a step whose result is a trap has taken it, at the pc, with the trap value it reports. -/
theorem step_trapped {s t : State} {code : Nat} {intr : Bool} {tval : Word} (h : step s = .next t)
    (hres : t.result = some (.trapped code intr tval)) : ∃ c, t = takeTrap c tval s.pc s := by
  rcases step_next h with ⟨c, tval', rfl⟩ | ⟨i, npc, s1, rfl, -, -⟩
  · rw [takeTrap_result] at hres
    cases hres
    exact ⟨c, rfl⟩
  · cases hres

/-- R441, R442: the CSRs a trap writes are mstatus and those of the level it enters, which is S only from below M. -/
theorem takeTrap_csr (c : Cause) (tval epc : Word) (s : State) :
    let t := takeTrap c tval epc s
    (t.priv = .machine ∧ t.csr.mepc = epc ∧ t.csr.mtval = tval ∧
      t.csr = { s.csr with mepc := t.csr.mepc, mcause := t.csr.mcause, mtval := t.csr.mtval, mstatus := t.csr.mstatus }) ∨
    (t.priv = .supervisor ∧ s.priv ≠ .machine ∧ t.csr.sepc = epc ∧ t.csr.stval = tval ∧
      t.csr = { s.csr with sepc := t.csr.sepc, scause := t.csr.scause, stval := t.csr.stval, mstatus := t.csr.mstatus }) := by
  by_cases hS : targetsS c s = true
  · obtain ⟨hdel, hp⟩ := (targetsS_iff c s).1 hS
    rw [takeTrap_supervisor hdel hp]
    exact .inr ⟨rfl, hp, rfl, rfl, rfl⟩
  · rw [takeTrap, if_neg hS]
    exact .inl ⟨rfl, rfl, rfl, rfl⟩

/-- Settles O50: such a step is takeTrap, which leaves registers, memory and devices, and writes the CSRs of one level. -/
theorem trappedStepsWriteNothing : Obligations.TrappedStepsWriteNothing := by
  intro s t code intr tval h hres
  obtain ⟨c, rfl⟩ := step_trapped h hres
  exact ⟨takeTrap_regs .., takeTrap_mem .., ⟨takeTrap_platform .., takeTrap_draws .., takeTrap_events ..⟩, takeTrap_resv ..,
    takeTrap_csr c tval s.pc s⟩

/-! ### A step that retires below M-mode (60_exceptions.md R460 to R462; 10_state.md R41 to R43) -/

/-- R91: a step whose result is ok has committed an instruction. -/
theorem step_retired {s t : State} (h : step s = .next t) (hok : t.result = some .ok) :
    ∃ i npc s1, t = retire npc s1 ∧ Commit i s npc s1 := by
  rcases step_next h with ⟨c, tval, rfl⟩ | ⟨i, npc, s1, rfl, -, hc⟩
  · rw [takeTrap_result] at hok
    cases hok
  · exact ⟨i, npc, s1, rfl, hc⟩

theorem mem_csrTable_of_csrAt {a : CsrAddr} {c : Csr} (h : csrAt a = some c) : (a, c) ∈ csrTable := by
  obtain ⟨⟨b, d⟩, hf, rfl⟩ := Option.map_eq_some_iff.1 h
  obtain rfl : b = a := by simpa using List.find?_some hf
  exact List.mem_of_find?_eq_some hf

/-- R41, R43: a legal write is to an address of the mode's own level or a lower one that is not read-only. -/
theorem csrWriteLegal_addr {s : State} {a : CsrAddr} (h : csrWriteLegal s a = true) :
    minPrivOf a ≤ s.priv.code.toNat ∧ a.toNat / 2 ^ 10 ≠ 3 := by
  obtain ⟨hread, hro⟩ := (csrWriteLegal_iff s a).1 h
  exact ⟨((csrReadLegal_iff s a).1 hread).2, hro⟩

/-- R40: every listed address that U-mode reaches is read-only. -/
theorem csrTable_user : ∀ e ∈ csrTable, minPrivOf e.1 = 0 → e.1.toNat / 2 ^ 10 = 3 := by decide

/-- R40, R43: U-mode may write no listed CSR. -/
theorem csrWriteLegal_user {s : State} {a : CsrAddr} {c : Csr} (hp : s.priv = .user) (hc : csrAt a = some c) :
    ¬ csrWriteLegal s a = true := by
  intro h
  obtain ⟨hpriv, hro⟩ := csrWriteLegal_addr h
  rw [hp] at hpriv
  exact hro (csrTable_user _ (mem_csrTable_of_csrAt hc) (Nat.le_zero.1 hpriv))

/-- R460: in U-mode a commit changes neither the mode nor a CSR. -/
theorem commit_user {i : Instr} {s s1 : State} {npc : Word} (hc : Commit i s npc s1) (hp : s.priv = .user) :
    s1.priv = .user ∧ s1.csr = s.csr := by
  induction hc with
  | plain i s npc s1 hpriv hcsr => exact ⟨hpriv.trans hp, hcsr⟩
  | memory i s s1 hpriv hcsr => exact ⟨hpriv.trans hp, hcsr⟩
  | reserve i s s1 pa hpriv hcsr => exact ⟨hpriv.trans hp, hcsr⟩
  | csrWrite i s s1 a c v hat hlegal => exact absurd hlegal (csrWriteLegal_user hp hat)
  | mret s p hm => rw [hp] at hm; cases hm
  | sret s hs => exact absurd hp hs

/-- Settles O52: a commit in U-mode leaves the mode and the CSRs to retire, which counts it in instret. -/
theorem userStepsKeepCsrs : Obligations.UserStepsKeepCsrs := by
  intro s t hp h hok
  obtain ⟨i, npc, s1, rfl, hc⟩ := step_retired h hok
  obtain ⟨hpriv, hcsr⟩ := commit_user hc hp
  exact ⟨hpriv, by rw [retire_csr, hcsr]⟩

/-- R462: what S-mode keeps of the CSRs: the M-level ones, and the bits of mstatus, mie and mip that the S-level views do not write
(10_state.md R48, R50). A field left out of a proof is one that the update in question does not concern. -/
structure CsrFile.KeepsMachineLevel (f g : CsrFile) : Prop where
  mtvec : g.mtvec = f.mtvec := by rfl
  mscratch : g.mscratch = f.mscratch := by rfl
  mepc : g.mepc = f.mepc := by rfl
  mcause : g.mcause = f.mcause := by rfl
  mtval : g.mtval = f.mtval := by rfl
  medeleg : g.medeleg = f.medeleg := by rfl
  mideleg : g.mideleg = f.mideleg := by rfl
  mstatus : KeepsOtherBits f.mstatus g.mstatus [1, 5, 8, 18, 19] := by exact fun _ _ => rfl
  mie : KeepsOtherBits f.mie g.mie [1, 5, 9] := by exact fun _ _ => rfl
  mip : KeepsOtherBits f.mip g.mip [1] := by exact fun _ _ => rfl

theorem CsrFile.KeepsMachineLevel.of_eq {f g : CsrFile} (h : g = f) : f.KeepsMachineLevel g := by
  subst h
  exact {}

theorem KeepsOtherBits.mono {v w : Word} {l l' : List Nat} (h : KeepsOtherBits v w l) (hl : l ⊆ l') : KeepsOtherBits v w l' :=
  fun j hj => h j fun hm => hj (hl hm)

/-- R45: a write through a mask changes only bits of the mask. -/
theorem mergeMasked_keepsOtherBits {mask : Word} {l : List Nat} (hmask : ∀ k : Fin 64, mask.getLsbD k = true → k.val ∈ l)
    (old v : Word) : KeepsOtherBits old (mergeMasked old mask v) l := by
  intro j hj
  rw [mergeMasked_getLsbD, if_neg fun hbit => hj ?_]
  exact hmask ⟨j, BitVec.lt_of_getLsbD hbit⟩ hbit

/-- R40: the CSRs of the S level that are not read-only. -/
def supervisorCsrs : List Csr := [.sstatus, .sie, .sip, .stvec, .sscratch, .sepc, .scause, .stval, .satp]

theorem csrTable_supervisor :
    ∀ e ∈ csrTable, minPrivOf e.1 ≤ 1 → e.1.toNat / 2 ^ 10 ≠ 3 → e.2 ∈ supervisorCsrs := by decide

/-- R41, R43: the listed CSRs that S-mode may write. -/
theorem csrWriteLegal_supervisor {s : State} {a : CsrAddr} {c : Csr} (hp : s.priv = .supervisor) (hc : csrAt a = some c)
    (h : csrWriteLegal s a = true) : c ∈ supervisorCsrs := by
  obtain ⟨hpriv, hro⟩ := csrWriteLegal_addr h
  rw [hp] at hpriv
  exact csrTable_supervisor _ (mem_csrTable_of_csrAt hc) hpriv hro

/-- R48, R50, R462: no write rule of an S-level CSR reaches the M-level state; sstatus, sie and sip go through their masks. -/
theorem csrStore_keepsMachineLevel {c : Csr} (hc : c ∈ supervisorCsrs) (f : CsrFile) (v : Word) :
    f.KeepsMachineLevel (csrStore f c v) := by
  simp only [supervisorCsrs, List.mem_cons, List.not_mem_nil, or_false] at hc
  rcases hc with rfl | rfl | rfl | rfl | rfl | rfl | rfl | rfl | rfl
  · exact { mstatus := mergeMasked_keepsOtherBits (by decide) f.mstatus v }
  · exact { mie := mergeMasked_keepsOtherBits (by decide) f.mie v }
  · exact { mip := mergeMasked_keepsOtherBits (by decide) f.mip v }
  all_goals exact {}

/-- R462: in S-mode a commit does not enter M-mode and keeps the M-level state. -/
theorem commit_supervisor {i : Instr} {s s1 : State} {npc : Word} (hc : Commit i s npc s1) (hp : s.priv = .supervisor) :
    s1.priv ≠ .machine ∧ s.csr.KeepsMachineLevel s1.csr := by
  have hne : s.priv ≠ .machine := by rw [hp]; decide
  induction hc with
  | plain i s npc s1 hpriv hcsr => exact ⟨hpriv ▸ hne, .of_eq hcsr⟩
  | memory i s s1 hpriv hcsr => exact ⟨hpriv ▸ hne, .of_eq hcsr⟩
  | reserve i s s1 pa hpriv hcsr => exact ⟨hpriv ▸ hne, .of_eq hcsr⟩
  | csrWrite i s s1 a c v hat hlegal hpriv hcsr =>
    exact ⟨hpriv ▸ hne, hcsr ▸ csrStore_keepsMachineLevel (csrWriteLegal_supervisor hp hat hlegal) s.csr v⟩
  | mret s p hm => exact absurd hm hne
  | sret s hs =>
    refine ⟨?_, { mstatus := (mstatusSret_keepsOtherBits s.csr.mstatus).mono (by decide) }⟩
    show (if getBit s.csr.mstatus bitSPP then Priv.supervisor else .user) ≠ .machine
    split <;> decide

/-- Settles O53: a commit in S-mode keeps the M-level state, and instret, which retire adds to, is not of it. -/
theorem supervisorStepsKeepMachineState : Obligations.SupervisorStepsKeepMachineState := by
  intro s t hp h hok
  obtain ⟨i, npc, s1, rfl, hc⟩ := step_retired h hok
  obtain ⟨hpriv, hk⟩ := commit_supervisor hc hp
  exact ⟨hpriv, hk.mtvec, hk.mscratch, hk.mepc, hk.mcause, hk.mtval, hk.medeleg, hk.mideleg, hk.mstatus, hk.mie, hk.mip⟩

/-! ### Which interrupt a step takes (60_exceptions.md R431, R433) -/

/-- R431: an interrupt is deliverable when it is pending and enabled, and the level it goes to lets it through. -/
theorem deliverable_iff (s : State) (i : Irq) : deliverable s i = true ↔
    s.csr.mip.getLsbD i.code = true ∧ s.csr.mie.getLsbD i.code = true ∧
      (s.csr.mideleg.getLsbD i.code = false → s.priv ≠ .machine ∨ s.csr.mstatus.getLsbD 3 = true) ∧
      (s.csr.mideleg.getLsbD i.code = true → s.priv = .user ∨ (s.priv = .supervisor ∧ s.csr.mstatus.getLsbD 1 = true)) := by
  simp only [deliverable, getBit, bitSIE, bitMIE, Bool.and_eq_true, and_assoc]
  by_cases hdel : s.csr.mideleg.getLsbD i.code = true
  · simp [hdel]
  · simp [hdel]

theorem mem_irqPriority (i : Irq) : i ∈ irqPriority := by
  cases i <;> decide

/-- R433: with the interrupts listed by rising rank, a deliverable one that no deliverable one precedes is selected. -/
theorem selectInterrupt_eq_some {s : State} {i : Irq} {rank : Irq → Nat} (hrank : irqPriority.Pairwise fun j k => rank j < rank k)
    (hi : deliverable s i = true) (hmin : ∀ j, deliverable s j = true → rank i ≤ rank j) : selectInterrupt s = some i := by
  obtain ⟨before, after, hlist⟩ := List.append_of_mem (mem_irqPriority i)
  rw [hlist, List.pairwise_append] at hrank
  obtain ⟨-, -, hbefore⟩ := hrank
  refine List.find?_eq_some_iff_append.2 ⟨hi, before, after, hlist, fun j hj => ?_⟩
  have hlt : rank j < rank i := hbefore j hj i List.mem_cons_self
  rw [Bool.not_eq_true', ← Bool.not_eq_true]
  exact fun hd => absurd (hmin j hd) (Nat.not_le.2 hlt)

theorem selectInterrupt_eq_none {s : State} (h : ∀ i, ¬ deliverable s i = true) : selectInterrupt s = none :=
  List.find?_eq_none.2 fun i _ => h i

/-- R90 (1): the interrupt selected is taken at the pc, with trap value 0. -/
theorem step_of_interrupt {s : State} {i : Irq} (h : selectInterrupt s = some i) :
    step s = .next (takeTrap (.interrupt i) 0 s.pc s) := by
  show hartStep s = _
  rw [hartStep, h]

/-- Settles O8: the list step searches is in the order of rank, and its test is deliverability. -/
theorem interruptSelection : Obligations.InterruptSelection := by
  intro s deliver rank
  have hdeliver : ∀ i, deliver i ↔ deliverable s i = true := fun i => (deliverable_iff s i).symm
  have hrank : irqPriority.Pairwise fun j k => rank j < rank k := by simp [irqPriority, rank]
  simp only [hdeliver]
  exact ⟨fun i hi hmin => step_of_interrupt (selectInterrupt_eq_some hrank hi hmin), selectInterrupt_eq_none⟩

/-! ### Trap entry (60_exceptions.md R422, R441 to R443) -/

/-- R422: the cause word is the code, with the interrupt flag in bit 63. -/
theorem causeWord_eq (c : Cause) : causeWord c = BitVec.ofNat 64 ((if c.isInterrupt then 2 ^ 63 else 0) + c.code) := by
  cases c with
  | exception e => rw [causeWord_exception]; simp [Cause.isInterrupt, Cause.code]
  | interrupt i => cases i <;> rfl

theorem clear_low2 (w : Word) : w &&& ~~~3#64 = BitVec.ofNat 64 (w.toNat / 4 * 4) := by
  have hmask : ~~~3#64 = BitVec.allOnes 64 <<< 2 := by decide
  rw [hmask, ← BitVec.shiftLeft_ushiftRight]
  apply BitVec.eq_of_toNat_eq
  rw [BitVec.toNat_shiftLeft, BitVec.toNat_ushiftRight, Nat.shiftLeft_eq, Nat.shiftRight_eq_div_pow, BitVec.toNat_ofNat]

/-- R443: the vector is BASE, or in vectored mode BASE + 4 × code for an interrupt. -/
theorem trapVector_eq (tvec : Word) (c : Cause) : trapVector tvec c = BitVec.ofNat 64
    (if tvec.getLsbD 0 ∧ c.isInterrupt then tvec.toNat / 4 * 4 + 4 * c.code else tvec.toNat / 4 * 4) := by
  simp only [trapVector, getBit, clear_low2, Bool.and_eq_true]
  split
  · rw [BitVec.ofNat_add, BitVec.ofNat_mul 4]; rfl
  · rfl

/-- R441: entry to M-mode changes no bit of mstatus outside MIE, MPIE and MPP. -/
theorem mstatusEnterM_keepsOtherBits (m : Word) (p : Priv) : KeepsOtherBits m (mstatusEnterM m p) [3, 7, 11, 12] := by
  intro j hj
  simp only [List.mem_cons, List.not_mem_nil, or_false, not_or] at hj
  obtain ⟨h3, h7, h11, h12⟩ := hj
  rw [mstatusEnterM_getLsbD, if_neg h11, if_neg h12, if_neg h3, if_neg h7]

/-- R441: entry to M-mode stores the mode in MPP. -/
theorem mstatusEnterM_mpp (m : Word) (p : Priv) : (mstatusEnterM m p).toNat / 2 ^ 11 % 4 = p.code.toNat := by
  rw [← getMpp_eq, mstatusEnterM, getMpp_setMpp]

/-- R442: entry to S-mode changes no bit of mstatus outside SIE, SPIE and SPP. -/
theorem mstatusEnterS_keepsOtherBits (m : Word) (p : Priv) : KeepsOtherBits m (mstatusEnterS m p) [1, 5, 8] := by
  intro j hj
  simp only [List.mem_cons, List.not_mem_nil, or_false, not_or] at hj
  obtain ⟨h1, h5, h8⟩ := hj
  rw [mstatusEnterS_getLsbD, if_neg h8, if_neg h1, if_neg h5]

/-- R442: SPP is 0 exactly when the trap comes from U-mode. -/
theorem mstatusEnterS_spp (m : Word) (p : Priv) : (mstatusEnterS m p).getLsbD 8 = if p = .user then false else true := by
  rw [mstatusEnterS_getLsbD, if_pos rfl]
  cases p <;> decide

/-- Settles O33: such a trap is enterM, whose cause word, vector and mstatus the lemmas above give. -/
theorem trapEntryMachine : Obligations.TrapEntryMachine := by
  intro s c tval epc deleg h
  have bit := mstatusEnterM_getLsbD s.csr.mstatus s.priv
  have hentry : takeTrap c tval epc s = enterM c tval epc s := takeTrap_machine h tval epc
  rw [hentry]
  exact ⟨rfl, rfl, causeWord_eq c, bit 7, bit 3, mstatusEnterM_mpp .., mstatusEnterM_keepsOtherBits _ _, rfl, trapVector_eq .., rfl,
    rfl, rfl, fun _ => rfl, fun _ => rfl, rfl, rfl, rfl⟩

/-- Settles O34: such a trap is enterS, whose cause word, vector and mstatus the lemmas above give. -/
theorem trapEntrySupervisor : Obligations.TrapEntrySupervisor := by
  intro s c tval epc deleg hdel hp
  have bit := mstatusEnterS_getLsbD s.csr.mstatus s.priv
  have hentry : takeTrap c tval epc s = enterS c tval epc s := takeTrap_supervisor hdel hp tval epc
  rw [hentry]
  exact ⟨rfl, rfl, causeWord_eq c, bit 5, bit 1, mstatusEnterS_spp .., mstatusEnterS_keepsOtherBits _ _, rfl, trapVector_eq .., rfl,
    rfl, rfl, fun _ => rfl, fun _ => rfl, rfl, rfl, rfl⟩

/-! ### The numbers of modes and causes (60_exceptions.md R420, R421; 10_state.md R36, R49) -/

/-- Settles O59: each number is the value of its table at a constructor. -/
theorem modeAndCauseCodes : Obligations.ModeAndCauseCodes := by
  unfold Obligations.ModeAndCauseCodes
  decide

end Sys2Proof.Machine
end

section
/-! PROOFS. The statements of 70_reset_and_hazards.md, from the host's reset (hostReset_ok) and what it loads (Memory.read_writeBytes),
and the written words of 95_test_vectors.md. -/

namespace Sys2Proof.Machine

/-! ### The registers after reset (70_reset_and_hazards.md R480) -/

theorem clear_low4_toNat (w : Word) : (w &&& ~~~0xF#64).toNat = w.toNat / 16 * 16 := by
  have hmask : ~~~0xF#64 = BitVec.allOnes 64 <<< 4 := by decide
  rw [hmask, ← BitVec.shiftLeft_ushiftRight, BitVec.toNat_shiftLeft, BitVec.toNat_ushiftRight, Nat.shiftLeft_eq,
    Nat.shiftRight_eq_div_pow]
  omega

/-- R480: x2 is the top of RAM with its low four bits cleared, every other register 0. -/
theorem resetOn_reg (p : Platform) (entryPc : Word) (ram : Memory) (r : Reg) :
    (State.resetOn p entryPc ram).reg r = if r = 2 then BitVec.ofNat 64 (p.ramBase + p.ramSize) &&& ~~~0xF#64 else 0 := by
  by_cases h0 : r = 0
  · subst h0; rfl
  by_cases h2 : r = 2
  · subst h2; rfl
  have hne : 1 ≠ r.toNat - 1 := fun h => h2 (regIndex_inj h0 (by decide) h.symm)
  rw [if_neg h2, State.reg, if_neg h0]
  exact (Vector.getElem_set_ne (by decide) (regIndex_lt r) hne).trans (Vector.getElem_replicate _)

/-- R480: the top of RAM is at most 2^56, so x2 holds it without wrapping. -/
theorem resetOn_sp {p : Platform} (hp : p.wf = true) (entryPc : Word) (ram : Memory) :
    ((State.resetOn p entryPc ram).reg 2).toNat = (p.ramBase + p.ramSize) / 16 * 16 := by
  obtain ⟨-, -, -, htop, -⟩ := (Platform.wf_iff p).1 hp
  rw [resetOn_reg, if_pos rfl, clear_low4_toNat, BitVec.toNat_ofNat, Nat.mod_eq_of_lt (by omega)]

/-! ### RAM after reset (70_reset_and_hazards.md R480, R481) -/

/-- R481: the payload lies in RAM from its base, and every other byte is 0. -/
theorem read_payload (base : Nat) (payload : List Byte) (a : Nat) :
    Memory.read (Memory.writeBytes [] base payload) a =
      if base ≤ a ∧ a < base + payload.length then payload.getD (a - base) 0 else 0 :=
  Memory.read_writeBytes rfl base payload a

/-- Settles O44: a reset that succeeds makes State.resetOn of the payload's memory. -/
theorem resetState : Obligations.ResetState := by
  intro p entryPc base payload s h
  obtain ⟨hwf, -, -, rfl⟩ := hostReset_ok h
  refine ⟨rfl, rfl, rfl, rfl, resetOn_sp hwf entryPc _, fun r hr => ?_, rfl, fun k hk => ?_, fun a ha => ?_⟩
  · rw [resetOn_reg, if_neg hr]
  · rw [State.resetOn, read_payload, if_pos (by omega), Nat.add_sub_cancel_left]
  · rw [State.resetOn, read_payload, if_neg (by omega)]

/-! ### Refused setups (70_reset_and_hazards.md R483) -/

/-- R483: the checks of a reset, each of which refuses when it fails. -/
theorem hostReset_error_iff (p : Platform) (entryPc : Word) (base : Nat) (payload : List Byte) :
    (∃ e, hostReset p entryPc base payload = .error e) ↔
      ¬ p.wf = true ∨ ¬ inRam p base payload.length = true ∨ entryPc.toNat % 4 ≠ 0 ∨ ¬ inRam p entryPc.toNat 4 = true := by
  have hbad : (entryPc.extractLsb' 0 2 ≠ 0#2 ∨ inRam p entryPc.toNat 4 = false) ↔
      (entryPc.toNat % 4 ≠ 0 ∨ ¬ inRam p entryPc.toNat 4 = true) :=
    or_congr (not_congr (low2_eq_zero entryPc)) (iff_of_eq (Bool.not_eq_true _)).symm
  unfold hostReset
  split
  next hwf => exact iff_of_true ⟨_, rfl⟩ (.inl (by simpa using hwf))
  next hwf =>
    split
    next hin => exact iff_of_true ⟨_, rfl⟩ (.inr (.inl (by simpa using hin)))
    next hin =>
      split
      next hentry => exact iff_of_true ⟨_, rfl⟩ (.inr (.inr (hbad.1 hentry)))
      next hentry =>
        refine iff_of_false (fun ⟨_, h⟩ => nomatch h) ?_
        rintro (h | h | h)
        · exact h (by simpa using hwf)
        · exact h (by simpa using hin)
        · exact hentry (hbad.2 h)

/-- Settles O45: with the parameters well-formed, the three checks left are those of R483. -/
theorem resetRefusals : Obligations.ResetRefusals := by
  intro p entryPc base payload hwf
  rw [hostReset_error_iff, or_iff_right (not_not_intro hwf), inRam_iff, inRam_iff]

/-- Settles O46: the model's reset state is that of a reset that succeeds, so hostReset_inv gives the invariant. -/
theorem modelResetMeetsInvariant : Obligations.ModelResetMeetsInvariant := by
  have h : hostReset Config.testPlatform 0x80000000#64 0x80000000 [] = .ok State.reset := rfl
  exact ⟨h, hostReset_inv h⟩

/-! ### The written words (95_test_vectors.md) -/

/-- Settles O5: each of the 14 words matches the row of its instruction; the first of the two others has not the low bits 11 of a 32-bit
instruction, and the second, a SLLI whose funct6 is not 0, matches no row. -/
theorem writtenWordsDecode : Obligations.WrittenWordsDecode :=
  ⟨rfl, rfl, rfl, rfl, rfl, rfl, rfl, rfl, rfl, rfl, rfl, rfl, rfl, rfl, absentEncodingsAreIllegal _ (.inl (by decide)), _, rfl⟩

end Sys2Proof.Machine
end
